-- ==== Sys2Proof/Word.lean ====
section
/-! DEFINITION. The word types of HCC: 64-bit registers and command words, bytes, internal code values. -/

namespace Sys2Proof

/-- A host-visible register or a command word: REG_W = 64 bits (spec R7, R82). -/
abbrev Word := BitVec 64

/-- One byte of a stream, a symbol, a code length (spec R22, R45). -/
abbrev Byte := BitVec 8

/-- An internal code value: CODE_W = 255 bits (spec R7, R47). -/
abbrev CodeWord := BitVec 255

/-- A register file with one entry for each of the 256 byte values (spec R44 to R47). -/
abbrev Table (α : Type) := Vector α 256

end Sys2Proof
end

