-- ==== Sys2Proof/Config.lean ====
section
/-! DEFINITION. The implementation parameters of HCC, every one fixed by the spec (R7, R31, R81). Nothing is left
open (R20), so there is no free value. -/

namespace Sys2Proof.Config

/-- The constant the ID register reads (spec R31). -/
def idValue : Word := 0x4855464600070001#64

/-- CTRL.FMT at reset (spec R7, R32). -/
def fmtAtReset : Bool := true

/-- The alphabet size NSYM_MAX (spec R7). -/
def nsymMax : Nat := 256

/-- The width INT_W of the integer of PUT_BITS and GET_BITS (spec R7). -/
def intWidth : Nat := 64

/-- Histogram sums must stay below this bound: COUNT_W = 64 bits (spec R7, R23). -/
def countBound : Nat := 2 ^ 64

/-- The first byte address past the register space (spec R80, R85). -/
def regSpaceEnd : Nat := 0x4000

/-- The width in bytes of every register access (spec R85). -/
def accessWidth : Nat := 8

end Sys2Proof.Config
end

