-- ==== Sys2Proof/Syntax.lean ====
section
/-! DEFINITION. The commands of HCC: one constructor for each row of the opcode map (spec R125), in its order.
A command that uses ARG carries it as the byte of the command word (spec R120, R121). -/

namespace Sys2Proof

/-- The 17 commands (spec R125). -/
inductive Instr
  | nop
  | reset
  | errClear
  | buildTree
  | buildCodes
  | putBit (arg : Byte)
  | putBits (arg : Byte)
  | flush
  | encSym (arg : Byte)
  | getBit
  | getBits (arg : Byte)
  | align
  | decSym
  | hdrWrite
  | hdrRead
  | encode
  | decode
  deriving DecidableEq, Repr

end Sys2Proof
end

