-- ==== Sys2Proof/WellFormed.lean ====
section
/-! DEFINITION. Which commands are well formed: the ARG ranges of spec R126. -/

namespace Sys2Proof

/-- `ArgOK` (spec R126), on a command as syntax: PUT_BIT takes 0 or 1, PUT_BITS and GET_BITS 0 to 64, ENC_SYM any
byte. The other commands carry no ARG. -/
def Instr.wf : Instr → Bool
  | .nop => true
  | .reset => true
  | .errClear => true
  | .buildTree => true
  | .buildCodes => true
  | .putBit arg => arg.toNat ≤ 1
  | .putBits arg => arg.toNat ≤ Config.intWidth
  | .flush => true
  | .encSym _ => true
  | .getBit => true
  | .getBits arg => arg.toNat ≤ Config.intWidth
  | .align => true
  | .decSym => true
  | .hdrWrite => true
  | .hdrRead => true
  | .encode => true
  | .decode => true

end Sys2Proof
end

