-- ==== Sys2Proof/Decode.lean ====
section
/-! DEFINITION. The command word: its decoder (total, rejecting by name) and its encoder, both from the one opcode
map of spec R125 and the word format of spec R120. -/

namespace Sys2Proof

/-- The opcodes of the opcode map (spec R125). -/
inductive Op
  | nop | reset | errClear | buildTree | buildCodes
  | putBit | putBits | flush | encSym
  | getBit | getBits | align | decSym
  | hdrWrite | hdrRead | encode | decode
  deriving DecidableEq, Repr

/-- Why a command word is no command (spec R124, R127). -/
inductive DecodeError
  | illegalOp
  | reservedBits
  | badArg
  deriving DecidableEq, Repr

/-- The OP value of each opcode (spec R125). -/
def Op.code : Op → Byte
  | .nop => 0x00#8
  | .reset => 0x01#8
  | .errClear => 0x02#8
  | .buildTree => 0x10#8
  | .buildCodes => 0x11#8
  | .putBit => 0x20#8
  | .putBits => 0x21#8
  | .flush => 0x22#8
  | .encSym => 0x23#8
  | .getBit => 0x28#8
  | .getBits => 0x29#8
  | .align => 0x2A#8
  | .decSym => 0x2B#8
  | .hdrWrite => 0x30#8
  | .hdrRead => 0x31#8
  | .encode => 0x40#8
  | .decode => 0x41#8

/-- The rows of the opcode map, in its order (spec R125). -/
def Op.all : List Op :=
  [.nop, .reset, .errClear, .buildTree, .buildCodes, .putBit, .putBits, .flush, .encSym, .getBit, .getBits, .align,
    .decSym, .hdrWrite, .hdrRead, .encode, .decode]

/-- The opcode with a given OP value, if the map has one: match = OP, mask = 0xFF (spec R125). -/
def Op.ofCode (b : Byte) : Option Op := Op.all.find? fun op => op.code == b

/-- `ArgOK(op, arg)` (spec R126). -/
def Op.argOk (op : Op) (arg : Byte) : Bool :=
  match op with
  | .putBit => arg == 0 || arg == 1
  | .putBits => arg.toNat ≤ Config.intWidth
  | .getBits => arg.toNat ≤ Config.intWidth
  | .encSym => true
  | _ => arg == 0

/-- The command an opcode and its ARG stand for; an ARG that the command does not use is dropped. -/
def Op.command (op : Op) (arg : Byte) : Instr :=
  match op with
  | .nop => .nop
  | .reset => .reset
  | .errClear => .errClear
  | .buildTree => .buildTree
  | .buildCodes => .buildCodes
  | .putBit => .putBit arg
  | .putBits => .putBits arg
  | .flush => .flush
  | .encSym => .encSym arg
  | .getBit => .getBit
  | .getBits => .getBits arg
  | .align => .align
  | .decSym => .decSym
  | .hdrWrite => .hdrWrite
  | .hdrRead => .hdrRead
  | .encode => .encode
  | .decode => .decode

/-- The field OP, bits [7:0] of a command word (spec R120). -/
def opField (w : Word) : Byte := w.extractLsb' 0 8

/-- The field ARG, bits [15:8] of a command word (spec R120). -/
def argField (w : Word) : Byte := w.extractLsb' 8 8

/-- The reserved field, bits [63:16] of a command word (spec R120). -/
def reservedField (w : Word) : BitVec 48 := w.extractLsb' 16 48

/-- The decoder: the three checks of `Exec(w)` in the order of spec R124, then the command. -/
def decode (w : Word) : Except DecodeError Instr :=
  match Op.ofCode (opField w) with
  | none => .error .illegalOp
  | some op =>
    if reservedField w ≠ 0 then .error .reservedBits
    else if op.argOk (argField w) then .ok (op.command (argField w))
    else .error .badArg

/-- The opcode of a command (spec R125). -/
def Instr.op : Instr → Op
  | .nop => .nop
  | .reset => .reset
  | .errClear => .errClear
  | .buildTree => .buildTree
  | .buildCodes => .buildCodes
  | .putBit _ => .putBit
  | .putBits _ => .putBits
  | .flush => .flush
  | .encSym _ => .encSym
  | .getBit => .getBit
  | .getBits _ => .getBits
  | .align => .align
  | .decSym => .decSym
  | .hdrWrite => .hdrWrite
  | .hdrRead => .hdrRead
  | .encode => .encode
  | .decode => .decode

/-- The ARG a command is written with: 0 where the command uses none (spec R126). -/
def Instr.arg : Instr → Byte
  | .putBit arg => arg
  | .putBits arg => arg
  | .encSym arg => arg
  | .getBits arg => arg
  | .nop => 0
  | .reset => 0
  | .errClear => 0
  | .buildTree => 0
  | .buildCodes => 0
  | .flush => 0
  | .getBit => 0
  | .align => 0
  | .decSym => 0
  | .hdrWrite => 0
  | .hdrRead => 0
  | .encode => 0
  | .decode => 0

/-- A command word from its fields: `(ARG << 8) | OP`, reserved bits 0 (spec R120, R142). -/
def commandWord (op arg : Byte) : Word := (arg.setWidth 64 <<< 8) ||| op.setWidth 64

/-- The encoder: the command word of a command (spec R120, R125). -/
def encode (i : Instr) : Word := commandWord i.op.code i.arg

/-- The command the decoder reads from the bits of `w`, bit 0 the least significant; the bits from `nbits` up are 0.
A command is one 64-bit register word (spec R120, R82), so a number of more than 64 bits is none. -/
def decodeTableWord (nbits w : Nat) : Option Instr :=
  let bits := w % 2 ^ nbits
  if bits < 2 ^ 64 then
    match decode (BitVec.ofNat 64 bits) with
    | .ok i => some i
    | .error _ => none
  else none

end Sys2Proof
end

