-- ==== Sys2Proof/Machine/State.lean ====
section
/-! DEFINITION. The state of HCC and of its host, as plain data: the record of spec R54, the host's coming moves and
what it has taken; the reasons a step can stop; the state after power-on (spec R55, R373). -/

namespace Sys2Proof.Machine

/-- One entry of the code table: a symbol and its code length (spec R46). -/
structure Entry where
  sym : Byte
  len : Byte
  deriving DecidableEq, Repr

/-- The end of the input stream: open, closed, or failed (spec R90). -/
inductive InEnd
  | opened
  | eos
  | fail
  deriving DecidableEq, Repr

/-- The host's moves (spec R104). `memRead` and `memWrite` carry the access width in bytes, because an access of another
width than 8 is defined too (spec R85). -/
inductive HostMove
  | memRead (addr width : Nat)
  | memWrite (addr width : Nat) (v : Word)
  | push (b : Byte)
  | closeEos
  | closeFail
  | reopen
  | pop
  | setOutFail (x : Bool)
  | hardReset
  deriving DecidableEq, Repr

/-- Who moves next in a run (spec R98): the core, the host with one move, or the host polling STATUS until BUSY = 0
(spec R141). The model's own, log entries 1 and 13. -/
inductive Turn
  | core
  | host (m : HostMove)
  | wait
  deriving DecidableEq, Repr

/-- The registers of the register space (spec R31 to R47) and its reserved slots (spec R86). -/
inductive Reg
  | id | ctrl | status | errcode | cmd | data | total | remain | nsym | maxlen | wacc | racc | incnt | outcnt
  | freq (s : Byte)
  | len (s : Byte)
  | entry (i : Byte)
  | code (s : Byte)
  | reserved
  deriving DecidableEq, Repr

/-- The error classes (spec R330). -/
inductive ErrClass
  | io | invariant | corrupt | command | sequence
  deriving DecidableEq, Repr

/-- The errors, by name (spec R331). -/
inductive Err
  | ioRead | ioWrite | ioEnd
  | emptyFreq | noEntry | countMismatch | freqSum
  | truncated | badCount | badLen | dupSym | badOrder | badTotal | oversub | badCode | badPad
  | illegalOp | reservedBits | badArg
  | noCodes | unaligned
  deriving DecidableEq, Repr

/-- The state (spec R54). STATUS.BUSY is not stored: it is 1 exactly when `pending` holds a word (spec R49, log entry 6).
The last three fields are the model's own (log entry 1). -/
structure State where
  /-- CTRL.FMT (spec R32). -/
  fmt : Bool
  /-- STATUS.ERR (spec R33). -/
  err : Bool
  /-- STATUS.FATAL (spec R33). -/
  fatal : Bool
  /-- STATUS.OVR (spec R33). -/
  ovr : Bool
  /-- STATUS.CODES_VALID (spec R33). -/
  codesValid : Bool
  /-- ERRCODE (spec R34). -/
  errcode : Word
  /-- DATA (spec R36). -/
  data : Word
  /-- TOTAL (spec R37). -/
  total : Word
  /-- REMAIN (spec R38). -/
  remain : Word
  /-- NSYM[8:0] (spec R39). -/
  nsym : BitVec 9
  /-- MAXLEN[7:0] (spec R40). -/
  maxlen : Byte
  /-- WACC.WBITS (spec R41). -/
  wbits : Byte
  /-- WACC.WCNT, 0 to 7 between commands (spec R41, R53). -/
  wcnt : Fin 8
  /-- RACC.RBITS (spec R42). -/
  rbits : Byte
  /-- RACC.RCNT, 0 to 7 between commands (spec R42, R53). -/
  rcnt : Fin 8
  /-- INCNT (spec R43). -/
  incnt : Word
  /-- OUTCNT (spec R43). -/
  outcnt : Word
  /-- FREQ[0..255] (spec R44). -/
  freq : Table Word
  /-- LEN[0..255] (spec R45). -/
  len : Table Byte
  /-- ENTRY, in sorted order (spec R46). -/
  entry : List Entry
  /-- CODE[0..255], all 255 bits (spec R47, R50). -/
  code : Table CodeWord
  /-- PENDING (spec R49). -/
  pending : Option Word
  /-- The bytes delivered and not yet fetched, oldest first (spec R90). -/
  inq : List Byte
  /-- Whether the input is open, closed or failed (spec R90). -/
  inEnd : InEnd
  /-- The bytes emitted and not yet taken, oldest first (spec R90). -/
  outq : List Byte
  /-- Whether the sink is failing (spec R90). -/
  outFail : Bool
  /-- The turns still to come, the next one first; when it is empty the core moves. The model's own. -/
  script : List Turn
  /-- The bytes the host has popped, in order (spec R106). The model's own. -/
  taken : List Byte
  /-- The values the host's reads returned, in order (spec R88). The model's own. -/
  reads : List Word
  deriving DecidableEq, Repr

/-- STATUS.BUSY: 1 exactly when PENDING holds a word (spec R49). -/
abbrev State.busy (s : State) : Bool := s.pending.isSome

/-- The reasons the machine stops with a fault: none. Every error of HCC is recorded and the machine goes on (spec R333,
R339), and a command without its input waits (spec R14). Nothing raises a fault; safe. -/
inductive Fault
  deriving DecidableEq, Repr

/-- The reasons the model has no next state. -/
inductive Refusal
  /-- Raised by `exec` for a command that has no meaning yet; no command is left so. Safe: nothing follows. -/
  | notModelled (mnemonic : String)
  /-- Raised by `step` when the script holds a host move that is not enabled (spec R104): a Push or a Close on an input
  that is not open, a Reopen while BUSY = 1, a Pop of an empty queue. The spec's model has no such move (93 item 14).
  Safe: such a run is absent from the model. -/
  | hostMoveNotEnabled (m : HostMove)
  deriving DecidableEq, Repr

/-- The state after power-on: the reset state with the streams empty, the input open and the sink working (spec R55,
R373), and no host move to come. -/
def State.reset : State where
  fmt := Config.fmtAtReset
  err := false
  fatal := false
  ovr := false
  codesValid := false
  errcode := 0
  data := 0
  total := 0
  remain := 0
  nsym := 0
  maxlen := 0
  wbits := 0
  wcnt := 0
  rbits := 0
  rcnt := 0
  incnt := 0
  outcnt := 0
  freq := Vector.replicate 256 0
  len := Vector.replicate 256 0
  entry := []
  code := Vector.replicate 256 0
  pending := none
  inq := []
  inEnd := .opened
  outq := []
  outFail := false
  script := []
  taken := []
  reads := []

end Sys2Proof.Machine
end

