-- ==== Sys2Proof/Machine/Flags.lean ====
section
/-! DEFINITION. STATUS and ERRCODE: how the STATUS bits read, the error codes, how an error is recorded (the machine's
one exception entry) and how it is left (spec R33, R34, R330 to R333, R312). HCC has no condition codes and no command
sets a flag from arithmetic (spec R52). -/

namespace Sys2Proof.Machine

/-- STATUS as the host reads it (spec R33). -/
def State.statusWord (s : State) : Word :=
  BitVec.ofNat 64 (s.busy.toNat + 2 * s.err.toNat + 4 * s.fatal.toNat + 8 * s.ovr.toNat + 16 * s.codesValid.toNat)

/-- The class of an error (spec R331). -/
def Err.cls : Err → ErrClass
  | .ioRead | .ioWrite | .ioEnd => .io
  | .emptyFreq | .noEntry | .countMismatch | .freqSum => .invariant
  | .truncated | .badCount | .badLen | .dupSym | .badOrder | .badTotal | .oversub | .badCode | .badPad => .corrupt
  | .illegalOp | .reservedBits | .badArg => .command
  | .noCodes | .unaligned => .sequence

/-- The CLASS code (spec R330). -/
def ErrClass.code : ErrClass → Byte
  | .io => 0x01#8
  | .invariant => 0x02#8
  | .corrupt => 0x03#8
  | .command => 0x04#8
  | .sequence => 0x05#8

/-- The DETAIL code (spec R331). -/
def Err.detail : Err → Byte
  | .ioRead => 0x01#8
  | .ioWrite => 0x02#8
  | .ioEnd => 0x03#8
  | .emptyFreq => 0x01#8
  | .noEntry => 0x02#8
  | .countMismatch => 0x03#8
  | .freqSum => 0x04#8
  | .truncated => 0x01#8
  | .badCount => 0x02#8
  | .badLen => 0x03#8
  | .dupSym => 0x04#8
  | .badOrder => 0x05#8
  | .badTotal => 0x06#8
  | .oversub => 0x07#8
  | .badCode => 0x08#8
  | .badPad => 0x09#8
  | .illegalOp => 0x01#8
  | .reservedBits => 0x02#8
  | .badArg => 0x03#8
  | .noCodes => 0x01#8
  | .unaligned => 0x02#8

/-- Class INVARIANT, and no other, is fatal (spec R332). -/
def Err.isFatal (e : Err) : Bool := e.cls == .invariant

/-- The ERRCODE word: `(op << 16) | (C << 8) | D` (spec R333, R34). -/
def errWord (op : Byte) (e : Err) : Word :=
  (op.setWidth 64 <<< 16) ||| (e.cls.code.setWidth 64 <<< 8) ||| e.detail.setWidth 64

/-- The error a refused command word raises (spec R124). -/
def decodeErr : DecodeError → Err
  | .illegalOp => .illegalOp
  | .reservedBits => .reservedBits
  | .badArg => .badArg

end Sys2Proof.Machine
end

