-- ==== Sys2Proof/Machine/Operands.lean ====
section
/-! DEFINITION. The operand forms: entries of the register files by symbol, ARG as a number, and the register space as
the host addresses it, each register as it reads (spec R11, R31 to R47, R81, R85, R86, R121). -/

namespace Sys2Proof.Machine

/-- The entry of a register file at a byte value (spec R11). -/
def tget {α : Type} (t : Table α) (s : Byte) : α := t[s.toNat]'s.isLt

/-- A register file with the entry at a byte value replaced (spec R11). -/
def tset {α : Type} (t : Table α) (s : Byte) (x : α) : Table α := t.set s.toNat x s.isLt

/-- The byte values 0 to 255, ascending: the order of `for s = 0 to 255`. -/
def allBytes : List Byte := (List.range 256).map (BitVec.ofNat 8)

/-- A register file whose every entry is one value. -/
def tfill {α : Type} (x : α) : Table α := Vector.replicate 256 x

/-- The entries of a register file with their symbols, in ascending symbol order: what `for s = 0 to 255` runs over. -/
def tpairs {α : Type} (t : Table α) : List (Byte × α) := allBytes.zip t.toList

/-- FREQ[s] as a natural number (spec R44, R10). -/
def State.freqAt (s : State) (x : Byte) : Nat := (tget s.freq x).toNat

/-- LEN[s] as a natural number (spec R45, R10). -/
def State.lenAt (s : State) (x : Byte) : Nat := (tget s.len x).toNat

/-- CODE[s], all its bits, as a natural number (spec R47, R10). -/
def State.codeAt (s : State) (x : Byte) : Nat := (tget s.code x).toNat

/-- ENTRY[i]: the pair (0, 0) where there is no i-th entry, so that it reads 0 (spec R46, log entry 11). -/
def State.entryAt (s : State) (i : Nat) : Entry := s.entry.getD i ⟨0, 0⟩

/-- The register at a byte address; none for an access that does nothing because the address is misaligned or out of
range (spec R81, R85, and the map of 10_state.md section 2). -/
def regAt (addr : Nat) : Option Reg :=
  if addr % 8 ≠ 0 ∨ Config.regSpaceEnd ≤ addr then none
  else
    let k := addr / 8
    if k < 0x0E then
      some (match k with
        | 0 => .id | 1 => .ctrl | 2 => .status | 3 => .errcode | 4 => .cmd | 5 => .data | 6 => .total | 7 => .remain
        | 8 => .nsym | 9 => .maxlen | 10 => .wacc | 11 => .racc | 12 => .incnt | _ => .outcnt)
    else if k < 0x100 then some .reserved
    else if k < 0x200 then some (.freq (BitVec.ofNat 8 (k - 0x100)))
    else if k < 0x300 then some (.len (BitVec.ofNat 8 (k - 0x200)))
    else if k < 0x400 then some (.entry (BitVec.ofNat 8 (k - 0x300)))
    else if k < 0x500 then some (.code (BitVec.ofNat 8 (k - 0x400)))
    else some .reserved

/-- The byte address of a register (spec R31 to R47); the first reserved slot stands for the reserved ones. -/
def Reg.addr : Reg → Nat
  | .id => 0x0000
  | .ctrl => 0x0008
  | .status => 0x0010
  | .errcode => 0x0018
  | .cmd => 0x0020
  | .data => 0x0028
  | .total => 0x0030
  | .remain => 0x0038
  | .nsym => 0x0040
  | .maxlen => 0x0048
  | .wacc => 0x0050
  | .racc => 0x0058
  | .incnt => 0x0060
  | .outcnt => 0x0068
  | .reserved => 0x0070
  | .freq s => 0x0800 + 8 * s.toNat
  | .len s => 0x1000 + 8 * s.toNat
  | .entry i => 0x1800 + 8 * i.toNat
  | .code s => 0x2000 + 8 * s.toNat

/-- The value each register reads (spec R31 to R47): reserved slots and fields read 0 (spec R86), CMD reads 0 (spec R35),
CODE[s] its low 64 bits (spec R47). -/
def State.readReg (s : State) : Reg → Word
  | .id => Config.idValue
  | .ctrl => BitVec.ofNat 64 s.fmt.toNat
  | .status => s.statusWord
  | .errcode => s.errcode
  | .cmd => 0
  | .data => s.data
  | .total => s.total
  | .remain => s.remain
  | .nsym => s.nsym.setWidth 64
  | .maxlen => s.maxlen.setWidth 64
  | .wacc => BitVec.ofNat 64 (256 * s.wcnt.val + s.wbits.toNat)
  | .racc => BitVec.ofNat 64 (256 * s.rcnt.val + s.rbits.toNat)
  | .incnt => s.incnt
  | .outcnt => s.outcnt
  | .freq x => tget s.freq x
  | .len x => (tget s.len x).setWidth 64
  | .entry i => BitVec.ofNat 64 (256 * (s.entryAt i.toNat).len.toNat + (s.entryAt i.toNat).sym.toNat)
  | .code x => (tget s.code x).setWidth 64
  | .reserved => 0

/-- `MemRead(a, width)`: the register's value; an access of another width, misaligned or out of range reads 0 (spec R85,
R88). -/
def State.memRead (s : State) (addr width : Nat) : Word :=
  if width ≠ Config.accessWidth then 0
  else match regAt addr with
    | none => 0
    | some r => s.readReg r

end Sys2Proof.Machine
end

