-- ==== Sys2Proof/Machine/Ops.lean ====
section
/-! DEFINITION. The shared operations: how a command's pseudocode runs and ends, recording an error and clearing it, the
reset, the stream primitives and clearing the code table (spec R12 to R14, R93 to R95, R101, R170, R312, R333, R370). -/

namespace Sys2Proof.Machine

/-- How a piece of pseudocode ends: with a value, with a raise (spec R13), or by reaching HOLD (spec R14). The first two
carry the state reached; HOLD carries none, because it has no effect. -/
inductive Res (α : Type)
  | ok (a : α) (s : State)
  | raise (e : Err) (s : State)
  | hold
  deriving Repr

/-- One piece of pseudocode after another: a raise or a HOLD ends it (spec R13, R14). -/
def Res.bind {α β : Type} (r : Res α) (f : α → State → Res β) : Res β :=
  match r with
  | .ok a s => f a s
  | .raise e s => .raise e s
  | .hold => .hold

/-- A cleanup that runs when the piece of pseudocode raises (spec R13, R334). -/
def Res.onRaise {α : Type} (r : Res α) (f : State → State) : Res α :=
  match r with
  | .ok a s => .ok a s
  | .raise e s => .raise e (f s)
  | .hold => .hold

/-! ### Taking an error, and leaving it -/

/-- `Fail(op, C, D)`: the one way an error is taken (spec R333, R339). -/
def State.takeError (s : State) (op : Byte) (e : Err) : State :=
  { s with err := true, errcode := errWord op e, fatal := s.fatal || e.isFatal }

/-- The return from a recorded error: the effect of ERR_CLEAR (spec R312, R340). -/
def State.clearError (s : State) : State :=
  { s with err := false, ovr := false, errcode := 0 }

/-- The end of a core step: PENDING is emptied, and with it STATUS.BUSY cleared (spec R101). -/
def State.retire (s : State) : State := { s with pending := none }

/-- The core step of a command with opcode `op` whose pseudocode, run from `s`, ended as `r`: its effects up to its end
or its first raise, the error recorded, PENDING emptied. Where it reaches HOLD the state does not change and the command
stays pending (spec R101, R14, log entry 2). -/
def finish (op : Op) (s : State) (r : Res Unit) : Host.Outcome State Fault Refusal :=
  match r with
  | .ok _ t => .next t.retire
  | .raise e t => .next (t.takeError op.code e).retire
  | .hold => .next s

/-! ### Reset -/

/-- `ClearCodes()` (spec R170). -/
def State.clearCodes (s : State) : State :=
  { s with nsym := 0, maxlen := 0, entry := [], code := tfill 0 }

/-- `ResetState()` (spec R370): every field of the block; the streams and the host keep theirs (spec R372). -/
def State.resetBlock (s : State) : State :=
  { State.reset with
    inq := s.inq, inEnd := s.inEnd, outq := s.outq, outFail := s.outFail
    script := s.script, taken := s.taken, reads := s.reads }

/-! ### The stream primitives -/

/-- `FetchByteOrEnd()` (spec R94); none stands for END. -/
def fetchByteOrEnd (s : State) : Res (Option Byte) :=
  match s.inq with
  | b :: rest => .ok (some b) { s with inq := rest, incnt := s.incnt + 1 }
  | [] =>
    match s.inEnd with
    | .opened => .hold
    | .fail => .raise .ioRead s
    | .eos => .ok none s

/-- `FetchByte(E)` (spec R93). -/
def fetchByte (e : Err) (s : State) : Res Byte :=
  (fetchByteOrEnd s).bind fun b s =>
    match b with
    | some b => .ok b s
    | none => .raise e s

/-- `Emit(b)` (spec R95). A failed emission changes no register here: what clears the writer's accumulator is PutBit and
Flush (spec R200, R205), so a failed emission of DECODE leaves it alone (log entry 17). -/
def emit (b : Byte) (s : State) : Res Unit :=
  if s.outFail then .raise .ioWrite s
  else .ok () { s with outq := s.outq ++ [b], outcnt := s.outcnt + 1 }

/-- Emits a sequence of bytes, the first one first. -/
def emitAll : List Byte → State → Res Unit
  | [], s => .ok () s
  | b :: bs, s => (emit b s).bind fun _ s => emitAll bs s

end Sys2Proof.Machine
end

