-- ==== Sys2Proof/Machine/Bitstream.lean ====
section
/-! DEFINITION. The bit-stream encoder and decoder (spec R200 to R223). -/

namespace Sys2Proof.Machine

/-! ### The writer's procedures -/

/-- `PutBit(b)` (spec R200). -/
def putBit (b : Bool) (s : State) : Res Unit :=
  let v : Byte := (s.wbits <<< 1) ||| BitVec.ofNat 8 b.toNat
  if s.wcnt.val + 1 = 8 then emit v { s with wbits := 0, wcnt := 0 }
  else .ok () { s with wbits := v, wcnt := s.wcnt + 1 }

/-- `PutCode(v, n)`: bits n - 1 down to 0 of v (spec R201). -/
def putCode (v : Nat) : (n : Nat) → State → Res Unit
  | 0, s => .ok () s
  | n + 1, s => (putBit (v.testBit n) s).bind fun _ s => putCode v n s

/-- `Flush()` (spec R205). -/
def flush (s : State) : Res Unit :=
  if s.wcnt.val = 0 then .ok () s
  else emit (s.wbits <<< (8 - s.wcnt.val)) { s with wbits := 0, wcnt := 0 }

/-! ### The reader's procedures -/

/-- The last lines of `GetBit`: the bit `cnt - 1` of `bits`, and the lower bits kept (spec R202). `cnt` is 1 to 8. -/
def takeBit (bits : Byte) (cnt : Nat) (s : State) : Res Bool :=
  .ok (bits.getLsbD (cnt - 1))
    { s with rcnt := Fin.ofNat 8 (cnt - 1), rbits := BitVec.ofNat 8 (bits.toNat % 2 ^ (cnt - 1)) }

/-- `GetBit(E)` (spec R202). -/
def getBit (e : Err) (s : State) : Res Bool :=
  if s.rcnt.val = 0 then (fetchByte e s).bind fun b s => takeBit b 8 s
  else takeBit s.rbits s.rcnt.val s

/-- The loop of GET_BITS: `n` bits after those that make `v` (spec R221). -/
def getBits (e : Err) : (n v : Nat) → State → Res Nat
  | 0, v, s => .ok v s
  | n + 1, v, s => (getBit e s).bind fun b s => getBits e n (2 * v + b.toNat) s

/-- The symbol whose code has length `l` and value `p`, if there is one (spec R203; log entry 9). -/
def State.matchCode (s : State) (l p : Nat) : Option Byte :=
  ((allBytes.zip (s.len.toList.zip s.code.toList)).find? fun q => q.2.1.toNat == l && q.2.2.toNat == p).map
    fun q => q.1

/-- The loop of `DecodeSym` from length `l` on, with `n` lengths left and the prefix `p` read so far (spec R203). -/
def decodeFrom (e : Err) : (n l p : Nat) → State → Res Byte
  | 0, _, _, s => .raise .badCode s
  | n + 1, l, p, s =>
    (getBit e s).bind fun b s =>
      match s.matchCode l (2 * p + b.toNat) with
      | some x => .ok x s
      | none => decodeFrom e n (l + 1) (2 * p + b.toNat) s

/-- `DecodeSym(E)` (spec R203). -/
def decodeSym (e : Err) (s : State) : Res Byte :=
  if s.nsym = 0 then .raise .badCode s
  else decodeFrom e s.maxlen.toNat 1 0 s

/-- `Align()` (spec R204). -/
def align (s : State) : Res Unit :=
  if s.rbits ≠ 0 then .raise .badPad s
  else .ok () { s with rbits := 0, rcnt := 0 }

/-! ### The writer's commands -/

/-- PUT_BIT (spec R210). -/
def execPutBit (arg : Byte) (s : State) : Host.Outcome State Fault Refusal :=
  finish .putBit s (if Op.argOk .putBit arg then putBit (arg.getLsbD 0) s else .raise .badArg s)

/-- PUT_BITS (spec R211). -/
def execPutBits (arg : Byte) (s : State) : Host.Outcome State Fault Refusal :=
  finish .putBits s (if Op.argOk .putBits arg then putCode s.data.toNat arg.toNat s else .raise .badArg s)

/-- FLUSH (spec R212). -/
def execFlush (s : State) : Host.Outcome State Fault Refusal :=
  finish .flush s (flush s)

/-- The pseudocode of ENC_SYM (spec R213). -/
def encSym (x : Byte) (s : State) : Res Unit :=
  if s.codesValid = false then .raise .noCodes s
  else if s.lenAt x = 0 then .raise .noEntry s
  else putCode (s.codeAt x) (s.lenAt x) s

/-- ENC_SYM (spec R213). -/
def execEncSym (arg : Byte) (s : State) : Host.Outcome State Fault Refusal :=
  finish .encSym s (encSym arg s)

/-! ### The reader's commands -/

/-- GET_BIT (spec R220). -/
def execGetBit (s : State) : Host.Outcome State Fault Refusal :=
  finish .getBit s ((getBit .ioEnd s).bind fun b s => .ok () { s with data := BitVec.ofNat 64 b.toNat })

/-- GET_BITS (spec R221). -/
def execGetBits (arg : Byte) (s : State) : Host.Outcome State Fault Refusal :=
  finish .getBits s
    (if Op.argOk .getBits arg then
      (getBits .ioEnd arg.toNat 0 s).bind fun v s => .ok () { s with data := BitVec.ofNat 64 v }
    else .raise .badArg s)

/-- ALIGN (spec R222). -/
def execAlign (s : State) : Host.Outcome State Fault Refusal :=
  finish .align s (align s)

/-- The pseudocode of DEC_SYM (spec R223). -/
def decSym (s : State) : Res Unit :=
  if s.codesValid = false then .raise .noCodes s
  else (decodeSym .truncated s).bind fun x s => .ok () { s with data := x.setWidth 64 }

/-- DEC_SYM (spec R223). -/
def execDecSym (s : State) : Host.Outcome State Fault Refusal :=
  finish .decSym s (decSym s)

end Sys2Proof.Machine
end

