-- ==== Sys2Proof/Machine/TreeCodes.lean ====
section
/-! DEFINITION. The tree builder and the canonical code-length table generator (spec R160 to R177). -/

namespace Sys2Proof.Machine

/-! ### The tree builder -/

/-- A node of the Huffman tree (spec R161). The tree is no state: it lives during one BuildTree (spec R48). -/
inductive Tree
  | leaf (sym : Byte) (weight : Nat)
  | node (left right : Tree) (weight key : Nat)
  deriving DecidableEq, Repr

/-- The weight of a node (spec R161). -/
def Tree.weight : Tree → Nat
  | .leaf _ w => w
  | .node _ _ w _ => w

/-- The key of a node: a leaf's is its symbol value (spec R162). -/
def Tree.key : Tree → Nat
  | .leaf s _ => s.toNat
  | .node _ _ _ k => k

/-- The order of the live nodes: by (weight, key), lexicographically (spec R162). -/
def Tree.before (a b : Tree) : Bool :=
  a.weight < b.weight || (a.weight == b.weight && a.key < b.key)

/-- The least of a nonempty list of nodes, and the others (spec R161). -/
def takeLeast : Tree → List Tree → Tree × List Tree
  | t, [] => (t, [])
  | t, u :: us =>
    let r := takeLeast u us
    if t.before r.1 then (t, u :: us) else (r.1, t :: r.2)

/-- One merge: the two least nodes become the children of the k-th internal node, the first one extracted the left child
(spec R161, R162, R166). None where fewer than two nodes live. -/
def mergeStep (k : Nat) : List Tree → Option (List Tree)
  | [] => none
  | t :: ts =>
    let a := takeLeast t ts
    match a.2 with
    | [] => none
    | u :: us =>
      let b := takeLeast u us
      some (.node a.1 b.1 (a.1.weight + b.1.weight) (256 + k) :: b.2)

/-- The merges of BuildTree, from the k-th on; `n` bounds how many are left (spec R161, R163). -/
def mergeAll : (n k : Nat) → List Tree → List Tree
  | 0, _, l => l
  | n + 1, k, l =>
    match mergeStep k l with
    | none => l
    | some l' => mergeAll n (k + 1) l'

/-- The table with the depth of every leaf under a node of depth `d` written at the leaf's symbol (spec R161). -/
def writeDepths : Tree → (d : Nat) → Table Byte → Table Byte
  | .leaf s _, d, t => tset t s (BitVec.ofNat 8 d)
  | .node l r _ _, d, t => writeDepths r (d + 1) (writeDepths l (d + 1) t)

/-- The symbols with a nonzero frequency, ascending: S (spec R161). -/
def State.symbols (s : State) : List Byte := ((tpairs s.freq).filter fun p => p.2 != 0).map fun p => p.1

/-- The sum of FREQ, exact: W (spec R161). -/
def State.freqSum (s : State) : Nat := (s.freq.toList.map fun f => f.toNat).sum

/-- The live nodes at the start: one leaf for each symbol present (spec R161). -/
def State.leaves (s : State) : List Tree :=
  ((tpairs s.freq).filter fun p => p.2 != 0).map fun p => .leaf p.1 p.2.toNat

/-- The lengths BuildTree writes: 1 for a single symbol, else the leaf depths of the root; 0 elsewhere (spec R161,
R165). -/
def State.treeLengths (s : State) : Table Byte :=
  match s.symbols with
  | [x] => tset (tfill 0) x 1
  | _ =>
    match mergeAll s.leaves.length 0 s.leaves with
    | root :: _ => writeDepths root 0 (tfill 0)
    | [] => tfill 0

/-- `BuildTree()` (spec R161). -/
def buildTree (s : State) : Res Unit :=
  if s.symbols = [] then .raise .emptyFreq s
  else if Config.countBound ≤ s.freqSum then .raise .freqSum s
  else
    .ok () { ({ s with len := s.treeLengths, total := BitVec.ofNat 64 s.freqSum } : State).clearCodes with
      codesValid := false }

/-- BUILD_TREE (spec R160). -/
def execBuildTree (s : State) : Host.Outcome State Fault Refusal :=
  finish .buildTree s (buildTree s)

/-! ### The code-length table generator -/

/-- The order of the entries: (length, symbol), lexicographically (spec R46). -/
abbrev Entry.le (a b : Entry) : Prop :=
  a.len.toNat < b.len.toNat ∨ (a.len.toNat = b.len.toNat ∧ a.sym.toNat ≤ b.sym.toNat)

/-- E: the symbols with a nonzero length, in ascending (length, symbol) order (spec R171, steps (a) and (c)). -/
def sortedEntries (len : Table Byte) : List Entry :=
  (((tpairs len).filter fun p => p.2 != 0).map fun p => ⟨p.1, p.2⟩).insertionSort Entry.le

/-- Step (d): the codes of the entries in sorted order, written into a table; none where a code does not fit its length
(spec R171, R174). -/
def assignCodes : List Entry → (code prev : Nat) → Table CodeWord → Option (Table CodeWord)
  | [], _, _, t => some t
  | e :: es, code, prev, t =>
    let c := code <<< (e.len.toNat - prev)
    if 2 ^ e.len.toNat ≤ c then none
    else assignCodes es (c + 1) e.len.toNat (tset t e.sym (BitVec.ofNat 255 c))

/-- The largest length of a list of entries, 0 of none (spec R171). -/
def maxLength (es : List Entry) : Byte :=
  BitVec.ofNat 8 ((es.map fun e => e.len.toNat).foldl max 0)

/-- The codes of a sorted list of entries, or the error BuildCodes raises: a single entry has the code 1 and must have
length 1 (spec R171, R174, R175). -/
def codesOf (es : List Entry) : Except Err (Table CodeWord) :=
  match es with
  | [] => .ok (tfill 0)
  | [e] => if e.len ≠ 1 then .error .badLen else .ok (tset (tfill 0) e.sym 1)
  | _ =>
    match assignCodes es 0 0 (tfill 0) with
    | none => .error .oversub
    | some t => .ok t

/-- `BuildCodes()` (spec R171). -/
def buildCodes (s : State) : Res Unit :=
  let es := sortedEntries s.len
  match codesOf es with
  | .error e => .raise e { s.clearCodes with codesValid := false }
  | .ok t =>
    .ok () { s with
      nsym := BitVec.ofNat 9 es.length, maxlen := maxLength es, entry := es, code := t, codesValid := true }

/-- BUILD_CODES (spec R172). -/
def execBuildCodes (s : State) : Host.Outcome State Fault Refusal :=
  finish .buildCodes s (buildCodes s)

end Sys2Proof.Machine
end

