-- ==== Sys2Proof/Machine/Container.lean ====
section
/-! DEFINITION. The container header framer and parser (spec R250 to R257). -/

namespace Sys2Proof.Machine

/-- The `n` bytes of a number, most significant first (spec R83). -/
def bigEndian (v : Nat) : (n : Nat) → List Byte
  | 0 => []
  | n + 1 => BitVec.ofNat 8 (v >>> (8 * n)) :: bigEndian v n

/-- The bytes of the first `n` table entries, each symbol first, in the order of ENTRY (spec R130, R250). -/
def State.entryBytes (s : State) (n : Nat) : List Byte :=
  (List.range n).flatMap fun i => [(s.entryAt i).sym, (s.entryAt i).len]

/-- The header of the current code table: nothing for an empty one; else symbol_count, the entries and, with FMT = 1,
total_len (spec R130, R250). -/
def State.headerBytes (s : State) : List Byte :=
  if s.nsym.toNat = 0 then []
  else
    bigEndian s.nsym.toNat 2 ++ s.entryBytes s.nsym.toNat ++
      (if s.fmt then bigEndian s.total.toNat 8 else [])

/-- `HdrWrite()` (spec R250). -/
def hdrWrite (s : State) : Res Unit :=
  if s.codesValid = false then .raise .noCodes s
  else if s.wcnt.val ≠ 0 then .raise .unaligned s
  else emitAll s.headerBytes s

/-- HDR_WRITE (spec R251). -/
def execHdrWrite (s : State) : Host.Outcome State Fault Refusal :=
  finish .hdrWrite s (hdrWrite s)

/-- `EmptyTable()` (spec R252). -/
def State.emptyTable (s : State) : State :=
  { ({ s with len := tfill 0 } : State).clearCodes with total := 0, codesValid := true }

/-- The checks on one header entry that came after `prev`, with the lengths staged so far, in their order (spec R252,
R254). -/
def entryError (prev : Option Entry) (staged : Table Byte) (e : Entry) : Option Err :=
  if e.len = 0 then some .badLen
  else if tget staged e.sym ≠ 0 then some .dupSym
  else match prev with
    | some p => if e.le p then some .badOrder else none
    | none => none

/-- The entry loop of HdrRead: `n` entries left, after `prev`, with the lengths staged so far (spec R252). -/
def readEntries : (n : Nat) → (prev : Option Entry) → (staged : Table Byte) → State → Res (Table Byte)
  | 0, _, staged, s => .ok staged s
  | n + 1, prev, staged, s =>
    (fetchByte .truncated s).bind fun x s =>
      (fetchByte .truncated s).bind fun l s =>
        match entryError prev staged ⟨x, l⟩ with
        | some e => .raise e s
        | none => readEntries n (some ⟨x, l⟩) (tset staged x l) s

/-- A number of `n` bytes, most significant first, after those that make `t` (spec R252). -/
def readBigEndian : (n t : Nat) → State → Res Nat
  | 0, t, s => .ok t s
  | n + 1, t, s => (fetchByte .truncated s).bind fun b s => readBigEndian n (256 * t + b.toNat) s

/-- The total_len field, with FMT = 1 only: nothing where there is no field (spec R252). -/
def readTotal (s : State) : Res (Option Nat) :=
  if s.fmt then
    (readBigEndian 8 0 s).bind fun t s => if t = 0 then .raise .badTotal s else .ok (some t) s
  else .ok none s

/-- The last lines of HdrRead: the staged lengths installed, the code table built, TOTAL written (spec R252). -/
def installHeader (staged : Table Byte) (t : Option Nat) (s : State) : Res Unit :=
  (buildCodes { s with len := staged }).bind fun _ s =>
    match t with
    | some t => .ok () { s with total := BitVec.ofNat 64 t }
    | none => .ok () s

/-- HdrRead after symbol_count `n` (spec R252). -/
def hdrReadTable (n : Nat) (s : State) : Res Unit :=
  if n = 0 then .ok () s.emptyTable
  else if Config.nsymMax < n then .raise .badCount s
  else
    (readEntries n none (tfill 0) s).bind fun staged s =>
      (readTotal s).bind fun t s => installHeader staged t s

/-- The body of HdrRead, without its cleanup (spec R252). -/
def hdrReadBody (s : State) : Res Unit :=
  if s.rcnt.val ≠ 0 then .raise .unaligned s
  else
    (fetchByteOrEnd s).bind fun b0 s =>
      match b0 with
      | none => .ok () s.emptyTable
      | some b0 =>
        (fetchByte .truncated s).bind fun b1 s => hdrReadTable (256 * b0.toNat + b1.toNat) s

/-- The cleanup of a failed HdrRead (spec R252). -/
def State.dropTable (s : State) : State :=
  { ({ s with len := tfill 0 } : State).clearCodes with codesValid := false }

/-- `HdrRead()` (spec R252). -/
def hdrRead (s : State) : Res Unit := (hdrReadBody s).onRaise State.dropTable

/-- HDR_READ (spec R253). -/
def execHdrRead (s : State) : Host.Outcome State Fault Refusal :=
  finish .hdrRead s (hdrRead s)

end Sys2Proof.Machine
end

