-- ==== Sys2Proof/Machine/Control.lean ====
section
/-! DEFINITION. The control commands NOP, RESET and ERR_CLEAR (spec R310 to R312). -/

namespace Sys2Proof.Machine

/-- NOP (spec R310). -/
def execNop (s : State) : Host.Outcome State Fault Refusal :=
  finish .nop s (.ok () s)

/-- RESET (spec R311). -/
def execReset (s : State) : Host.Outcome State Fault Refusal :=
  finish .reset s (.ok () s.resetBlock)

/-- ERR_CLEAR (spec R312). -/
def execErrClear (s : State) : Host.Outcome State Fault Refusal :=
  finish .errClear s (.ok () s.clearError)

end Sys2Proof.Machine
end

