-- ==== Sys2Proof/Machine/Drivers.lean ====
section
/-! DEFINITION. The encode and decode drivers (spec R281, R282). -/

namespace Sys2Proof.Machine

/-- The part of ENCODE's loop after a byte `b` was fetched as the one after `n` others: the checks and the code (spec
R281). -/
def encodeByte (b : Byte) (n : Nat) (s : State) : Res Unit :=
  if n = s.total.toNat then .raise .countMismatch s
  else if s.lenAt b = 0 then .raise .noEntry s
  else putCode (s.codeAt b) (s.lenAt b) s

/-- ENCODE's loop: the count of the bytes coded, `n` of them before it. `fuel` is at least the length of `inq`, so the
loop always ends at the end of the input and never for want of fuel (spec R281). -/
def encodeLoop : (fuel n : Nat) → State → Res Nat
  | 0, n, s =>
    (fetchByteOrEnd s).bind fun _ s => .ok n s
  | fuel + 1, n, s =>
    (fetchByteOrEnd s).bind fun b s =>
      match b with
      | none => .ok n s
      | some b => (encodeByte b n s).bind fun _ s => encodeLoop fuel (n + 1) s

/-- The data pass of ENCODE: the loop, the count check and the flush (spec R281, steps (4) and (5)). -/
def encodeData (s : State) : Res Unit :=
  (encodeLoop s.inq.length 0 s).bind fun n s =>
    if n ≠ s.total.toNat then .raise .countMismatch s else flush s

/-- The pseudocode of ENCODE (spec R281). -/
def encodeAll (s : State) : Res Unit :=
  if s.wcnt.val ≠ 0 then .raise .unaligned s
  else if s.symbols = [] then .ok () s.emptyTable
  else
    (buildTree s).bind fun _ s =>
      (buildCodes s).bind fun _ s =>
        (hdrWrite s).bind fun _ s => encodeData s

/-- ENCODE (spec R281). -/
def execEncode (s : State) : Host.Outcome State Fault Refusal :=
  finish .encode s (encodeAll s)

/-- DECODE's loop with REMAIN = `n` (spec R282). Where Emit fails, WBITS and WCNT stay as they were (log entry 17). -/
def decodeLoop : (n : Nat) → State → Res Unit
  | 0, s => .ok () s
  | n + 1, s =>
    (decodeSym .truncated s).bind fun x s =>
      (emit x s).bind fun _ s => decodeLoop n { s with remain := s.remain - 1 }

/-- The payload pass of DECODE: REMAIN, the loop and the padding recovery (spec R282, step (4)). -/
def decodeData (s : State) : Res Unit :=
  (decodeLoop s.total.toNat { s with remain := s.total }).bind fun _ s => align s

/-- The pseudocode of DECODE (spec R282). -/
def decodeAll (s : State) : Res Unit :=
  (hdrRead s).bind fun _ s => decodeData s

/-- DECODE (spec R282). -/
def execDecode (s : State) : Host.Outcome State Fault Refusal :=
  finish .decode s (decodeAll s)

end Sys2Proof.Machine
end

