-- ==== Sys2Proof/Machine/Dispatch.lean ====
section
/-! DEFINITION. `exec`: the meaning of each command (spec R125), one arm per constructor of `Instr`. -/

namespace Sys2Proof.Machine

/-- The core step of a command (spec R124, R101). -/
def exec (i : Instr) (s : State) : Host.Outcome State Fault Refusal :=
  match i with
  | .nop => Sys2Proof.Machine.execNop s
  | .reset => Sys2Proof.Machine.execReset s
  | .errClear => Sys2Proof.Machine.execErrClear s
  | .buildTree => Sys2Proof.Machine.execBuildTree s
  | .buildCodes => Sys2Proof.Machine.execBuildCodes s
  | .putBit arg => Sys2Proof.Machine.execPutBit arg s
  | .putBits arg => Sys2Proof.Machine.execPutBits arg s
  | .flush => Sys2Proof.Machine.execFlush s
  | .encSym arg => Sys2Proof.Machine.execEncSym arg s
  | .getBit => Sys2Proof.Machine.execGetBit s
  | .getBits arg => Sys2Proof.Machine.execGetBits arg s
  | .align => Sys2Proof.Machine.execAlign s
  | .decSym => Sys2Proof.Machine.execDecSym s
  | .hdrWrite => Sys2Proof.Machine.execHdrWrite s
  | .hdrRead => Sys2Proof.Machine.execHdrRead s
  | .encode => Sys2Proof.Machine.execEncode s
  | .decode => Sys2Proof.Machine.execDecode s

end Sys2Proof.Machine
end

