-- ==== Sys2Proof/Machine/HostPort.lean ====
section
/-! DEFINITION. The host's moves (spec R85 to R89, R100, R104). -/

namespace Sys2Proof.Machine

/-- A word written to CMD (spec R100, R336): dropped with OVR while BUSY, dropped while an error is recorded unless the
filter lets it pass, else made pending. -/
def State.issue (s : State) (w : Word) : State :=
  if s.busy then { s with ovr := true }
  else if s.fatal ∧ w ≠ 1 then s
  else if s.err ∧ w ∉ ([0, 1, 2] : List Word) then s
  else { s with pending := some w }

/-- The effect of a register write made while BUSY = 0 (spec R89, R86). A LEN write makes the code table invalid, and the
codes of an invalid table are 0 (spec R47); NSYM, MAXLEN and ENTRY stay (log entry 8). -/
def State.writeReg (s : State) (r : Reg) (v : Word) : State :=
  match r with
  | .ctrl => { s with fmt := v.getLsbD 0 }
  | .cmd => s.issue v
  | .data => { s with data := v }
  | .total => { s with total := v }
  | .freq x => { s with freq := tset s.freq x v }
  | .len x => { s with len := tset s.len x (v.setWidth 8), code := tfill 0, codesValid := false }
  | .id => s
  | .status => s
  | .errcode => s
  | .remain => s
  | .nsym => s
  | .maxlen => s
  | .wacc => s
  | .racc => s
  | .incnt => s
  | .outcnt => s
  | .entry _ => s
  | .code _ => s
  | .reserved => s

/-- `MemWrite(a, width, v)`: an access of another width, misaligned or out of range does nothing (spec R85, log entry 7);
while BUSY = 1 the write is dropped and sets OVR (spec R87). -/
def State.memWrite (s : State) (addr width : Nat) (v : Word) : State :=
  if width ≠ Config.accessWidth then s
  else match regAt addr with
    | none => s
    | some r => if s.busy then { s with ovr := true } else s.writeReg r v

/-- One host move (spec R104). A move that is not enabled is no move of the model (93 item 14, log entry 4). -/
def hostMove (m : HostMove) (s : State) : Host.Outcome State Fault Refusal :=
  match m with
  | .memRead addr width => .next { s with reads := s.reads ++ [s.memRead addr width] }
  | .memWrite addr width v => .next (s.memWrite addr width v)
  | .push b =>
    if s.inEnd = .opened then .next { s with inq := s.inq ++ [b] } else .refused (.hostMoveNotEnabled m)
  | .closeEos =>
    if s.inEnd = .opened then .next { s with inEnd := .eos } else .refused (.hostMoveNotEnabled m)
  | .closeFail =>
    if s.inEnd = .opened then .next { s with inEnd := .fail } else .refused (.hostMoveNotEnabled m)
  | .reopen =>
    if s.busy then .refused (.hostMoveNotEnabled m) else .next { s with inq := [], inEnd := .opened }
  | .pop =>
    match s.outq with
    | [] => .refused (.hostMoveNotEnabled m)
    | b :: rest => .next { s with outq := rest, taken := s.taken ++ [b] }
  | .setOutFail x => .next { s with outFail := x }
  | .hardReset => .next s.resetBlock

/-- One poll of the `wait` pseudo-instruction: STATUS is read, and while BUSY = 1 the core moves before the next poll
(spec R141, R99, log entry 13). -/
def pollStatus (s : State) : State :=
  { s with
    reads := s.reads ++ [s.memRead Reg.status.addr Config.accessWidth]
    script := if s.busy then .core :: .wait :: s.script else s.script }

end Sys2Proof.Machine
end

