-- ==== Sys2Proof/Machine/CoreStep.lean ====
section
/-! DEFINITION. The core's turn, the turns of a run, and placing a command word (spec R98, R101, R124). -/

namespace Sys2Proof.Machine

/-- A refused command word: the error is recorded with OP = w[7:0], and the command ends (spec R124, R333). -/
def rejectWord (w : Word) (e : DecodeError) (s : State) : State :=
  (s.takeError (opField w) (decodeErr e)).retire

/-- The core's turn: with a command pending, its `Exec(w)`; with none, the core step is not enabled and the state does
not change (spec R101, R124, log entry 3). -/
def coreStep (s : State) : Host.Outcome State Fault Refusal :=
  match s.pending with
  | none => .next s
  | some w =>
    match decode w with
    | .ok i => exec i s
    | .error e => .next (rejectWord w e s)

/-- The next turn of the run: the one the script names, and the core's when it names none (spec R98, log entry 1). -/
def takeTurn (s : State) : Host.Outcome State Fault Refusal :=
  match s.script with
  | [] => coreStep s
  | .core :: rest => coreStep { s with script := rest }
  | .host m :: rest => hostMove m { s with script := rest }
  | .wait :: rest => .next (pollStatus { s with script := rest })

/-- The state with a command word pending, and the core's turn next (log entry 5). -/
def State.withPending (s : State) (w : Word) : State := { s with pending := some w, script := [] }

end Sys2Proof.Machine
end

