-- ==== Sys2Proof/Machine/Step.lean ====
section
/-! DEFINITION. The step of the machine, and how an instruction is put where it runs next. -/

namespace Sys2Proof.Machine

/-- One step of a run: one host move or one core step (spec R97, R98). -/
def step (s : State) : Host.Outcome State Fault Refusal := takeTurn s

/-- The state with the command whose bits are `w` (those from `nbits` up 0) in the pending-command latch, where the core
takes it from (spec R49, R102), and the core's turn next. -/
def State.withFetchWord (s : State) (nbits w : Nat) : State :=
  s.withPending (BitVec.ofNat 64 (w % 2 ^ nbits))

end Sys2Proof.Machine
end

