-- ==== Sys2Proof/Machine/Assembler.lean ====
section
/-! DEFINITION. Host programs: a line of the assembler syntax as data, and the turns it stands for (spec R140 to R144). -/

namespace Sys2Proof.Machine

/-- One line of a host program (spec R140 to R144). The `arg` of a `cmd` line has 56 bits, so that the word the line
writes, `(arg << 8) | OP`, has 64 (spec R140, R142, R10); an omitted `arg` is 0. -/
inductive Line
  | wr (r : Reg) (v : Word)
  | rd (r : Reg)
  | push (bs : List Byte)
  | closeEos
  | closeFail
  | reopen
  | pop (n : Nat)
  | outfail (x : Bool)
  | hwreset
  | wait
  | cmd (op : Op) (arg : BitVec 56)
  | cmdw (op : Op) (arg : BitVec 56)
  | loadfreq (bs : List Byte)
  | feed (bs : List Byte)
  deriving DecidableEq, Repr

/-- The host's register write by name (spec R140). -/
def writeTurn (r : Reg) (v : Word) : Turn := .host (.memWrite r.addr Config.accessWidth v)

/-- The value a `cmd` line writes to CMD: `(arg << 8) | OP`, no bit of which is lost (spec R142, R10). -/
def cmdValue (op : Op) (arg : BitVec 56) : Word := (arg.setWidth 64 <<< 8) ||| op.code.setWidth 64

/-- The turns of a line (spec R140 to R144). The spec leaves open which core steps come between the lines (R98): here
none does but inside a `wait`, so that a command issued by `cmd` runs at the next `wait` or at the program's end (DESIGN
CHOICE, log entry 14). -/
def Line.turns : Line → List Turn
  | .wr r v => [writeTurn r v]
  | .rd r => [.host (.memRead r.addr Config.accessWidth)]
  | .push bs => bs.map fun b => .host (.push b)
  | .closeEos => [.host .closeEos]
  | .closeFail => [.host .closeFail]
  | .reopen => [.host .reopen]
  | .pop n => List.replicate n (.host .pop)
  | .outfail x => [.host (.setOutFail x)]
  | .hwreset => [.host .hardReset]
  | .wait => [.wait]
  | .cmd op arg => [writeTurn .cmd (cmdValue op arg)]
  | .cmdw op arg => [writeTurn .cmd (cmdValue op arg), .wait]
  | .loadfreq bs => allBytes.map fun x => writeTurn (.freq x) (BitVec.ofNat 64 (bs.count x))
  | .feed bs => (bs.map fun b => .host (.push b)) ++ [.host .closeEos]

/-- The turns of a host program (spec R140). -/
def assemble (prog : List Line) : List Turn := prog.flatMap Line.turns

end Sys2Proof.Machine
end

