-- ==== Sys2Proof/Machine/AsmText.lean ====
section
/-! DEFINITION. Host programs as text: the lines of spec R140 to R144 read from characters. What the spec leaves open of
the text form is the model's choice (log entries 15 and 16). -/

namespace Sys2Proof.Machine

/-- The tokens of a program line (spec R140). -/
inductive Tok
  | word (cs : List Char)
  | num (n : Nat)
  | text (bs : List Byte)
  | comma
  | open_
  | close
  deriving DecidableEq, Repr

/-- The value of a digit in a base up to 16. -/
def digitValue (base : Nat) (c : Char) : Option Nat :=
  let v :=
    if '0' ≤ c ∧ c ≤ '9' then c.toNat - '0'.toNat
    else if 'a' ≤ c ∧ c ≤ 'f' then c.toNat - 'a'.toNat + 10
    else if 'A' ≤ c ∧ c ≤ 'F' then c.toNat - 'A'.toNat + 10
    else base
  if v < base then some v else none

/-- The number a sequence of digits writes in a base, after the digits that make `n`. -/
def digitsValue (base : Nat) : (n : Nat) → List Char → Option Nat
  | n, [] => some n
  | n, c :: cs => (digitValue base c).bind fun d => digitsValue base (base * n + d) cs

/-- A word or a number: decimal, or hexadecimal after `0x` (spec R140). -/
def wordTok (cs : List Char) : Option Tok :=
  match cs with
  | '0' :: 'x' :: d :: ds => (digitsValue 16 0 (d :: ds)).map .num
  | c :: rest => if c.isDigit then (digitsValue 10 0 (c :: rest)).map .num else some (.word (c :: rest))
  | [] => none

/-- The tokens of a line, with the characters of the current word (last first) and, inside a text, its bytes (last
first). A `;` starts a comment (spec R140); inside a quoted text it is a data byte and starts none (DESIGN CHOICE, log
entry 15). The space is the only separator, and a tab is none (DESIGN CHOICE, log entry 15); a character of a text stands
for the low 8 bits of its code point, which is its byte where it is ASCII (DESIGN CHOICE for the others, log entry 16; spec
R143, R144). -/
def lexLine : (cur : List Char) → (txt : Option (List Byte)) → List Char → Option (List Tok)
  | cur, none, [] => if cur = [] then some [] else (wordTok cur.reverse).map fun t => [t]
  | _, some _, [] => none
  | cur, some bs, c :: cs =>
    if c = '"' then (lexLine cur none cs).map fun ts => .text bs.reverse :: ts
    else lexLine cur (some (BitVec.ofNat 8 c.toNat :: bs)) cs
  | cur, none, c :: cs =>
    let done (rest : Option (List Tok)) : Option (List Tok) :=
      if cur = [] then rest
      else (wordTok cur.reverse).bind fun t => rest.map fun ts => t :: ts
    if c = ';' then done (some [])
    else if c = ' ' then done (lexLine [] none cs)
    else if c = ',' then done ((lexLine [] none cs).map fun ts => .comma :: ts)
    else if c = '[' then done ((lexLine [] none cs).map fun ts => .open_ :: ts)
    else if c = ']' then done ((lexLine [] none cs).map fun ts => .close :: ts)
    else if c = '"' then done (lexLine [] (some []) cs)
    else lexLine (c :: cur) none cs

/-- The mnemonic of an opcode (spec R125). -/
def opName : Op → List Char
  | .nop => "NOP".toList
  | .reset => "RESET".toList
  | .errClear => "ERR_CLEAR".toList
  | .buildTree => "BUILD_TREE".toList
  | .buildCodes => "BUILD_CODES".toList
  | .putBit => "PUT_BIT".toList
  | .putBits => "PUT_BITS".toList
  | .flush => "FLUSH".toList
  | .encSym => "ENC_SYM".toList
  | .getBit => "GET_BIT".toList
  | .getBits => "GET_BITS".toList
  | .align => "ALIGN".toList
  | .decSym => "DEC_SYM".toList
  | .hdrWrite => "HDR_WRITE".toList
  | .hdrRead => "HDR_READ".toList
  | .encode => "ENCODE".toList
  | .decode => "DECODE".toList

/-- The opcode with a mnemonic (spec R125). -/
def opNamed (cs : List Char) : Option Op := Op.all.find? fun op => opName op == cs

/-- The registers that are named without an index (10_state.md section 2). -/
def plainRegs : List (List Char × Reg) :=
  [("ID".toList, .id), ("CTRL".toList, .ctrl), ("STATUS".toList, .status), ("ERRCODE".toList, .errcode),
    ("CMD".toList, .cmd), ("DATA".toList, .data), ("TOTAL".toList, .total), ("REMAIN".toList, .remain),
    ("NSYM".toList, .nsym), ("MAXLEN".toList, .maxlen), ("WACC".toList, .wacc), ("RACC".toList, .racc),
    ("INCNT".toList, .incnt), ("OUTCNT".toList, .outcnt)]

/-- The register files, named with an index (spec R44 to R47). -/
def fileReg (cs : List Char) (i : Byte) : Option Reg :=
  if cs = "FREQ".toList then some (.freq i)
  else if cs = "LEN".toList then some (.len i)
  else if cs = "ENTRY".toList then some (.entry i)
  else if cs = "CODE".toList then some (.code i)
  else none

/-- A register operand and the tokens after it. -/
def regOperand : List Tok → Option (Reg × List Tok)
  | .word cs :: .open_ :: .num i :: .close :: rest =>
    if i < 256 then (fileReg cs (BitVec.ofNat 8 i)).map fun r => (r, rest) else none
  | .word cs :: rest => (plainRegs.find? fun p => p.1 == cs).map fun p => (p.2, rest)
  | _ => none

/-- A 64-bit number. -/
def word64 (n : Nat) : Option Word := if n < 2 ^ 64 then some (BitVec.ofNat 64 n) else none

/-- A list of bytes separated by commas; it may be empty or end in a comma (DESIGN CHOICE, log entry 15). -/
def byteOperands : List Tok → Option (List Byte)
  | [] => some []
  | [.num b] => if b < 256 then some [BitVec.ofNat 8 b] else none
  | .num b :: .comma :: rest =>
    if b < 256 then (byteOperands rest).map fun bs => BitVec.ofNat 8 b :: bs else none
  | _ => none

/-- The data of `loadfreq` and `feed`: a text, or bytes (spec R143, R144). -/
def dataOperand : List Tok → Option (List Byte)
  | [.text bs] => some bs
  | ts => byteOperands ts

/-- The argument of a `cmd` line: below 2^56, so that the `wr` line it stands for writes a 64-bit value (spec R140,
R142). -/
def arg56 (n : Nat) : Option (BitVec 56) := if n < 2 ^ 56 then some (BitVec.ofNat 56 n) else none

/-- The opcode and argument of a `cmd` line (spec R142). -/
def cmdOperands : List Tok → Option (Op × BitVec 56)
  | [.word cs] => (opNamed cs).map fun op => (op, 0)
  | [.word cs, .comma, .num a] => (opNamed cs).bind fun op => (arg56 a).map fun v => (op, v)
  | _ => none

/-- The line a list of tokens writes (spec R140 to R144). -/
def parseToks : List Tok → Option Line
  | [] => none
  | .word cs :: ts =>
    if cs = "wr".toList then
      match regOperand ts with
      | some (r, [.comma, .num v]) => (word64 v).map fun v => .wr r v
      | _ => none
    else if cs = "rd".toList then
      match regOperand ts with
      | some (r, []) => some (.rd r)
      | _ => none
    else if cs = "push".toList then (byteOperands ts).map .push
    else if cs = "close".toList then
      if ts = [.word "eos".toList] then some .closeEos
      else if ts = [.word "fail".toList] then some .closeFail
      else none
    else if cs = "reopen".toList then (if ts = [] then some .reopen else none)
    else if cs = "pop".toList then
      match ts with
      | [.num n] => some (.pop n)
      | _ => none
    else if cs = "outfail".toList then
      if ts = [.num 0] then some (.outfail false)
      else if ts = [.num 1] then some (.outfail true)
      else none
    else if cs = "hwreset".toList then (if ts = [] then some .hwreset else none)
    else if cs = "wait".toList then (if ts = [] then some .wait else none)
    else if cs = "cmd".toList then (cmdOperands ts).map fun p => .cmd p.1 p.2
    else if cs = "cmdw".toList then (cmdOperands ts).map fun p => .cmdw p.1 p.2
    else if cs = "loadfreq".toList then (dataOperand ts).map .loadfreq
    else if cs = "feed".toList then (dataOperand ts).map .feed
    else none
  | _ => none

/-- The program a list of text lines writes; a line with no token is no line (spec R140). -/
def parseProgram : List (List Char) → Option (List Line)
  | [] => some []
  | cs :: rest =>
    (lexLine [] none cs).bind fun ts =>
      if ts = [] then parseProgram rest
      else (parseToks ts).bind fun l => (parseProgram rest).map fun ls => l :: ls

/-- The turns of a host program given as text (spec R140 to R144). -/
def assembleText (prog : List String) : Option (List Turn) :=
  (parseProgram (prog.map String.toList)).map assemble

end Sys2Proof.Machine
end

