-- ==== Sys2Proof/Safety.lean ====
section
/-! DEFINITION. The terms the claims use: the streams as bits, the errors each command can raise, the modes, the
invariant between steps (spec R53), the tree relation of the tree builder, Kraft sums, headers, and how a run ends. -/

namespace Sys2Proof.Machine

/-! ### Streams as bits (spec R84) -/

/-- The low `n` bits of a number, most significant first (spec R201). -/
def natBits (v : Nat) : (n : Nat) → List Bool
  | 0 => []
  | n + 1 => v.testBit n :: natBits v n

/-- The bits of a byte, most significant first (spec R84). -/
def byteBits (b : Byte) : List Bool := natBits b.toNat 8

/-- The bits of a byte sequence, in stream order (spec R84). -/
def bytesBits (bs : List Byte) : List Bool := bs.flatMap byteBits

/-- The number whose bits these are, the first the most significant (spec R221). -/
def bitsValue (bs : List Bool) : Nat := bs.foldl (fun v b => 2 * v + b.toNat) 0

/-- The bits written so far and not yet taken by the host: the output queue, then the writer's accumulator. -/
def State.outBits (s : State) : List Bool := bytesBits s.outq ++ natBits s.wbits.toNat s.wcnt.val

/-- The bits still to be read: the reader's accumulator, then the input queue. -/
def State.inBits (s : State) : List Bool := natBits s.rbits.toNat s.rcnt.val ++ bytesBits s.inq

/-- The code of a symbol, most significant bit first (spec R47, R201). -/
def State.symBits (s : State) (x : Byte) : List Bool := natBits (s.codeAt x) (s.lenAt x)

/-! ### What a command may change -/

/-- From `s` to `t` only the input queue, INCNT and the reader's accumulator changed, and the bytes that left the queue
left its front and were counted (spec R93, R202). -/
def ReadsOnly (s t : State) : Prop :=
  t = { s with inq := t.inq, incnt := t.incnt, rbits := t.rbits, rcnt := t.rcnt } ∧
    ∃ p, s.inq = p ++ t.inq ∧ t.incnt = s.incnt + BitVec.ofNat 64 p.length

/-- From `s` to `t` only the output queue and OUTCNT changed, and the bytes that came were appended and counted (spec
R95). -/
def EmitsOnly (s t : State) : Prop :=
  t = { s with outq := t.outq, outcnt := t.outcnt } ∧
    ∃ e, t.outq = s.outq ++ e ∧ t.outcnt = s.outcnt + BitVec.ofNat 64 e.length

/-- As `EmitsOnly`, the writer's accumulator apart (spec R200). -/
def WritesOnly (s t : State) : Prop :=
  t = { s with outq := t.outq, outcnt := t.outcnt, wbits := t.wbits, wcnt := t.wcnt } ∧
    ∃ e, t.outq = s.outq ++ e ∧ t.outcnt = s.outcnt + BitVec.ofNat 64 e.length

/-- From `s` to `t` the streams only moved on: bytes left the front of the input queue and were counted, bytes came to the
end of the output queue and were counted (spec R91, R93, R95). -/
def StreamsMove (s t : State) : Prop :=
  (∃ p, s.inq = p ++ t.inq ∧ t.incnt = s.incnt + BitVec.ofNat 64 p.length) ∧
    ∃ e, t.outq = s.outq ++ e ∧ t.outcnt = s.outcnt + BitVec.ofNat 64 e.length

/-- From `s` to `t` only what HDR_READ writes changed (spec R253). -/
def HeaderReadsOnly (s t : State) : Prop :=
  t = { s with
      inq := t.inq, incnt := t.incnt, len := t.len, total := t.total, nsym := t.nsym, maxlen := t.maxlen
      entry := t.entry, code := t.code, codesValid := t.codesValid } ∧ StreamsMove s t

/-- From `s` to `t` only what ENCODE writes changed (spec R281). -/
def EncodesOnly (s t : State) : Prop :=
  t = { s with
      inq := t.inq, incnt := t.incnt, outq := t.outq, outcnt := t.outcnt, wbits := t.wbits, wcnt := t.wcnt
      len := t.len, total := t.total, nsym := t.nsym, maxlen := t.maxlen, entry := t.entry, code := t.code
      codesValid := t.codesValid } ∧ StreamsMove s t

/-- From `s` to `t` only what DECODE writes changed (spec R282). -/
def DecodesOnly (s t : State) : Prop :=
  t = { s with
      inq := t.inq, incnt := t.incnt, outq := t.outq, outcnt := t.outcnt, rbits := t.rbits, rcnt := t.rcnt
      len := t.len, total := t.total, remain := t.remain, nsym := t.nsym, maxlen := t.maxlen, entry := t.entry
      code := t.code, codesValid := t.codesValid } ∧ StreamsMove s t

/-- The errors a command can raise once its command word is legal (spec R331, last column); PUT_BIT, PUT_BITS and
GET_BITS raise BAD_ARG on an ARG out of their range (spec R210, R211, R221). -/
def raisedBy : Instr → List Err
  | .nop => []
  | .reset => []
  | .errClear => []
  | .buildTree => [.emptyFreq, .freqSum]
  | .buildCodes => [.badLen, .oversub]
  | .putBit _ => [.badArg, .ioWrite]
  | .putBits _ => [.badArg, .ioWrite]
  | .flush => [.ioWrite]
  | .encSym _ => [.noCodes, .noEntry, .ioWrite]
  | .getBit => [.ioRead, .ioEnd]
  | .getBits _ => [.badArg, .ioRead, .ioEnd]
  | .align => [.badPad]
  | .decSym => [.noCodes, .ioRead, .truncated, .badCode]
  | .hdrWrite => [.noCodes, .unaligned, .ioWrite]
  | .hdrRead =>
    [.unaligned, .ioRead, .truncated, .badCount, .badLen, .dupSym, .badOrder, .badTotal, .oversub]
  | .encode => [.unaligned, .freqSum, .noEntry, .countMismatch, .ioRead, .ioWrite]
  | .decode =>
    [.unaligned, .ioRead, .ioWrite, .truncated, .badCount, .badLen, .dupSym, .badOrder, .badTotal, .oversub, .badCode,
      .badPad]

/-- The commands that can be held for input (spec R381). -/
def canHold : Instr → Bool
  | .getBit => true
  | .getBits _ => true
  | .decSym => true
  | .hdrRead => true
  | .encode => true
  | .decode => true
  | .nop => false
  | .reset => false
  | .errClear => false
  | .buildTree => false
  | .buildCodes => false
  | .putBit _ => false
  | .putBits _ => false
  | .flush => false
  | .encSym _ => false
  | .align => false
  | .hdrWrite => false

/-! ### Command words as numbers -/

/-- The OP values of the opcode map (spec R125). -/
def opcodeValues : List Nat :=
  [0x00, 0x01, 0x02, 0x10, 0x11, 0x20, 0x21, 0x22, 0x23, 0x28, 0x29, 0x2A, 0x2B, 0x30, 0x31, 0x40, 0x41]

/-- The ARG values an opcode of the map takes (spec R126). -/
def ArgFits (op arg : Nat) : Prop :=
  if op = 0x20 then arg = 0 ∨ arg = 1
  else if op = 0x21 ∨ op = 0x29 then arg ≤ 64
  else if op = 0x23 then True
  else arg = 0

/-- The errors with their CLASS and DETAIL codes, as CLASS * 256 + DETAIL (spec R331). -/
def errorCodes : List (Err × Nat) :=
  [(.ioRead, 0x0101), (.ioWrite, 0x0102), (.ioEnd, 0x0103),
    (.emptyFreq, 0x0201), (.noEntry, 0x0202), (.countMismatch, 0x0203), (.freqSum, 0x0204),
    (.truncated, 0x0301), (.badCount, 0x0302), (.badLen, 0x0303), (.dupSym, 0x0304), (.badOrder, 0x0305),
    (.badTotal, 0x0306), (.oversub, 0x0307), (.badCode, 0x0308), (.badPad, 0x0309),
    (.illegalOp, 0x0401), (.reservedBits, 0x0402), (.badArg, 0x0403),
    (.noCodes, 0x0501), (.unaligned, 0x0502)]

/-! ### Modes and the invariant -/

/-- The modes (spec R342): views of STATUS. -/
inductive Mode
  | idle | busy | error | fatal
  deriving DecidableEq, Repr

/-- The mode of a state (spec R342). -/
def State.mode (s : State) : Mode :=
  if s.busy then .busy else if s.fatal then .fatal else if s.err then .error else .idle

/-- The CMD words a mode accepts (spec R342, R336). -/
def Mode.accepts (m : Mode) (w : Word) : Prop :=
  match m with
  | .idle => True
  | .busy => False
  | .error => w = 0 ∨ w = 1 ∨ w = 2
  | .fatal => w = 1

/-- Strict (length, symbol) order of entries (spec R10, R46). -/
def Entry.lt (a b : Entry) : Prop :=
  a.len.toNat < b.len.toNat ∨ (a.len.toNat = b.len.toNat ∧ a.sym.toNat < b.sym.toNat)

/-- The code table matches LEN (spec R53, item 3). -/
structure State.TableOk (s : State) : Prop where
  count : s.nsym.toNat = s.entry.length
  sorted : s.entry.Pairwise Entry.lt
  listed : ∀ e : Entry, e ∈ s.entry ↔ e.len ≠ 0 ∧ tget s.len e.sym = e.len
  bound : ∀ x, s.lenAt x ≤ s.maxlen.toNat
  attained : ∃ x, s.lenAt x = s.maxlen.toNat
  codes : codesOf s.entry = .ok s.code
  noCode : ∀ x, s.lenAt x = 0 → s.codeAt x = 0

/-- The invariant: items 1, 2, 3 and 5 of spec R53, no code while the code table is not valid (spec R47), ERRCODE = 0
while no error is recorded (spec R34, R330), and the words that can be pending while an error is recorded (spec R342). -/
structure State.Inv (s : State) : Prop where
  wacc : s.wbits.toNat < 2 ^ s.wcnt.val
  racc : s.rbits.toNat < 2 ^ s.rcnt.val
  table : s.codesValid = true → s.TableOk
  noTable : s.codesValid = false → ∀ x, s.codeAt x = 0
  fatalErr : s.fatal = true → s.err = true
  noErr : s.err = false → s.errcode = 0
  filter : ∀ w, s.pending = some w → (s.fatal = true → w = 1) ∧ (s.err = true → w = 0 ∨ w = 1 ∨ w = 2)

/-- Two different symbols with codes have codes neither of which begins the other (spec R53, item 4). -/
def State.PrefixFree (s : State) : Prop :=
  ∀ x y, x ≠ y → s.lenAt x ≠ 0 → s.lenAt y ≠ 0 → ¬ s.symBits x <+: s.symBits y

/-! ### The tree builder as a relation (spec R161) -/

/-- `Merges k l root`: merging the two least nodes of `l` again and again, the next internal node the k-th, ends in the
one node `root` (spec R161, R162). The order of the list does not matter. -/
inductive Merges : Nat → List Tree → Tree → Prop
  | one (k : Nat) (t : Tree) : Merges k [t] t
  | merge (k : Nat) (l rest : List Tree) (a b root : Tree) (perm : l.Perm (a :: b :: rest))
      (least : ∀ u ∈ b :: rest, a.before u = true) (second : ∀ u ∈ rest, b.before u = true)
      (next : Merges (k + 1) (.node a b (a.weight + b.weight) (256 + k) :: rest) root) : Merges k l root

/-- The depth of the leaf of a symbol under a node of depth `d`, if there is one (spec R161). -/
def Tree.depthOf (x : Byte) : Tree → (d : Nat) → Option Nat
  | .leaf s _, d => if s = x then some d else none
  | .node l r _ _, d => (l.depthOf x (d + 1)).orElse fun _ => r.depthOf x (d + 1)

/-! ### Kraft sums and headers -/

/-- The Kraft sum of the lengths of a table, times 2^255 (spec R17, R174). -/
def kraftSum (len : Table Byte) : Nat :=
  (allBytes.map fun x => if tget len x = 0 then 0 else 2 ^ (255 - (tget len x).toNat)).sum

/-- The lengths a list of entries gives (spec R252). -/
def lengthsOf (es : List Entry) : Table Byte := es.foldl (fun t e => tset t e.sym e.len) (tfill 0)

/-- The entries of a header that HdrRead accepts (spec R132, R254 checks 4 to 7, 9 and 10). -/
structure EntriesOk (es : List Entry) : Prop where
  nonempty : es ≠ []
  sorted : es.Pairwise Entry.lt
  distinct : (es.map fun e => e.sym).Nodup
  positive : ∀ e ∈ es, e.len ≠ 0
  single : ∀ e, es = [e] → e.len = 1
  kraft : kraftSum (lengthsOf es) ≤ 2 ^ 255

/-- The bytes of the header of a nonempty container (spec R130): symbol_count, the entries, and total_len with
FMT = 1. -/
def headerOf (fmt : Bool) (es : List Entry) (total : Nat) : List Byte :=
  bigEndian es.length 2 ++ (es.flatMap fun e => [e.sym, e.len]) ++ (if fmt then bigEndian total 8 else [])

/-- The bytes that hold a bit sequence, the last byte completed with zero bits (spec R134). -/
def IsPacked (bits : List Bool) (bytes : List Byte) : Prop :=
  ∃ n, n < 8 ∧ bytesBits bytes = bits ++ List.replicate n false

/-- The entries in order, each one symbol then length, as they stand in a header (spec R130). -/
def entryPairs (es : List Entry) : List Byte := es.flatMap fun e => [e.sym, e.len]

/-- The sum of FREQ, without truncation (spec R161). -/
def State.totalFreq (s : State) : Nat := (allBytes.map s.freqAt).sum

/-- The bits of the codes of a byte sequence, given the codes and their lengths (spec R134). -/
def codeBits (code : Table CodeWord) (len : Table Byte) (data : List Byte) : List Bool :=
  data.flatMap fun x => natBits (tget code x).toNat (tget len x).toNat

/-- FREQ holds the histogram of a byte sequence (spec R44, R290). -/
def State.HasHistogram (s : State) (data : List Byte) : Prop := ∀ x, s.freqAt x = data.count x

/-- The code table ENCODE builds from FREQ: LEN as BUILD_TREE writes it, the sum in TOTAL, and a valid code table (spec
R281, R335). -/
def HasEncodeTable (s t : State) : Prop :=
  (∃ b, exec .buildTree s = .next b ∧ t.len = b.len) ∧ t.total = BitVec.ofNat 64 s.totalFreq ∧ t.codesValid = true ∧
    t.TableOk

/-- ENCODE from `s` ended in `t` by an error after it had coded the bytes `good`: the record of the error, the table, and
the header and the codes of these bytes in the output and the accumulator (spec R335). -/
def EncodeFailedAfter (good : List Byte) (errcode : Word) (fatal : Bool) (s t : State) : Prop :=
  EncodesOnly { s with pending := none, err := true, fatal := s.fatal || fatal, errcode := errcode } t ∧
    HasEncodeTable s t ∧
    t.outBits = s.outBits ++ bytesBits (headerOf s.fmt t.entry s.totalFreq) ++ good.flatMap t.symBits

/-- DECODE from `s` ended in `t` by an error after it had emitted the bytes `good` of `total`: the record of the error, the
header's table, and REMAIN (spec R335). -/
def DecodeFailedAfter (es : List Entry) (good : List Byte) (total : Nat) (errcode : Word) (s t : State) : Prop :=
  DecodesOnly { s with pending := none, err := true, errcode := errcode } t ∧ t.outq = s.outq ++ good ∧
    t.total = BitVec.ofNat 64 total ∧ t.remain = BitVec.ofNat 64 (total - good.length) ∧ t.codesValid = true ∧
    t.TableOk ∧ t.entry = es

/-! ### The end of a run (spec R106) -/

/-- A run has ended: no command is pending and the host makes no further move (spec R106). -/
def State.ended (s : State) : Prop := s.pending = none ∧ s.script = []

/-- A state is stuck: a command is held and the host makes no further move (spec R106, R107). -/
def State.stuck (s : State) : Prop := s.pending ≠ none ∧ s.script = [] ∧ step s = .next s

/-- The output a run shows: the bytes the host popped, in order, followed by the output queue (spec R106). -/
def State.output (s : State) : List Byte := s.taken ++ s.outq

end Sys2Proof.Machine
end

