-- ==== Sys2Proof/Certificates/Slice0/Obligations.lean ====
section
/-! DEFINITION. The statements for the provers: what the command words mean, what each command does and leaves alone,
what the host's moves do, and the laws of the whole block. An error is written as the record it leaves: ERRCODE is
OP * 65536 + CLASS * 256 + DETAIL (spec R34, R333). -/

open Sys2Proof Sys2Proof.Machine

/-! ### Command words (30_encoding.md) -/

/-- Words written out from the format of R120 and the opcode map of R125, each with its command. -/
def Obligations.CommandWordsDecode : Prop :=
  decode 0x00#64 = .ok .nop ∧ decode 0x01#64 = .ok .reset ∧ decode 0x02#64 = .ok .errClear ∧
  decode 0x10#64 = .ok .buildTree ∧ decode 0x11#64 = .ok .buildCodes ∧
  decode 0x0120#64 = .ok (.putBit 1) ∧ decode 0x0521#64 = .ok (.putBits 5) ∧ decode 0x4021#64 = .ok (.putBits 64) ∧
  decode 0x22#64 = .ok .flush ∧ decode 0x6223#64 = .ok (.encSym 0x62) ∧
  decode 0x28#64 = .ok .getBit ∧ decode 0x0C29#64 = .ok (.getBits 12) ∧ decode 0x2A#64 = .ok .align ∧
  decode 0x2B#64 = .ok .decSym ∧ decode 0x30#64 = .ok .hdrWrite ∧ decode 0x31#64 = .ok .hdrRead ∧
  decode 0x40#64 = .ok .encode ∧ decode 0x41#64 = .ok .decode

/-- Decoding the word of any well-formed command gives that command with its ARG (R120, R121, R125, R126, R142). -/
def Obligations.DecodeInvertsEncode : Prop :=
  ∀ i : Instr, i.wf = true → decode (encode i) = .ok i

/-- A word that decodes is the word of its command, and that command is well formed: each command has one word for each
ARG, and no bit of the word is ignored (R120, R124, R126). -/
def Obligations.DecodedWordIsEncoded : Prop :=
  ∀ (w : Word) (i : Instr), decode w = .ok i → i.wf = true ∧ encode i = w

/-- The three checks of a command word, in their order, and what each failure records; a word that passes all three is a
command (R124, R126, R127). Errors raised here are not fatal. -/
def Obligations.IllegalWordsAreRecorded : Prop :=
  ∀ (s : State) (w : Word), s.pending = some w →
    (w.toNat % 256 ∉ opcodeValues →
      coreStep s = .next { s with
        pending := none, err := true, errcode := BitVec.ofNat 64 (65536 * (w.toNat % 256) + 0x0401) }) ∧
    (w.toNat % 256 ∈ opcodeValues → 2 ^ 16 ≤ w.toNat →
      coreStep s = .next { s with
        pending := none, err := true, errcode := BitVec.ofNat 64 (65536 * (w.toNat % 256) + 0x0402) }) ∧
    (w.toNat % 256 ∈ opcodeValues → w.toNat < 2 ^ 16 → ¬ ArgFits (w.toNat % 256) (w.toNat / 256) →
      coreStep s = .next { s with
        pending := none, err := true, errcode := BitVec.ofNat 64 (65536 * (w.toNat % 256) + 0x0403) }) ∧
    (w.toNat % 256 ∈ opcodeValues → w.toNat < 2 ^ 16 → ArgFits (w.toNat % 256) (w.toNat / 256) →
      ∃ i : Instr, decode w = .ok i ∧ coreStep s = exec i s)

/-! ### Steps (20_memory.md section 6) -/

/-- With a command word pending that decodes, the core's turn is `exec` of that command; the turn itself only leaves the
script, log entry 1 (R98, R101, R124). -/
def Obligations.StepRunsDecodedCommand : Prop :=
  ∀ (s : State) (w : Word) (i : Instr), s.pending = some w → decode w = .ok i →
    (s.script = [] → step s = exec i s) ∧
    ∀ rest : List Turn, s.script = .core :: rest → step s = exec i { s with script := rest }

/-- Every command answers a next state in every state, errors included. It has ended there, or it is held: it is one of the
six that wait, the input is open, and nothing at all changed (R14, R101, R333, R381). -/
def Obligations.CommandsEndOrWaitUnchanged : Prop :=
  ∀ (i : Instr) (s : State), ∃ t : State, exec i s = .next t ∧
    (t.pending = none ∨ (t = s ∧ canHold i = true ∧ s.inEnd = .opened))

/-! ### Errors (60_exceptions.md) -/

/-- What recording an error writes, for every error of R331: ERR, ERRCODE with the opcode, class and detail, FATAL for class
INVARIANT, and PENDING emptied; every other field is as the error left it. So for every command, and for every opcode byte,
legal or not (R333). -/
def Obligations.ErrorIsRecorded : Prop :=
  (∀ e : Err, ∃ n : Nat, (e, n) ∈ errorCodes) ∧
  ∀ (e : Err) (n : Nat), (e, n) ∈ errorCodes →
    (∀ (op : Op) (s t : State), finish op s (.raise e t) = .next { t with
      pending := none, err := true, errcode := BitVec.ofNat 64 (65536 * op.code.toNat + n)
      fatal := t.fatal || n / 256 == 2 }) ∧
    ∀ (op : Byte) (t : State), (t.takeError op e).retire = { t with
      pending := none, err := true, errcode := BitVec.ofNat 64 (65536 * op.toNat + n)
      fatal := t.fatal || n / 256 == 2 }

/-- A command other than RESET and ERR_CLEAR leaves ERR, FATAL and ERRCODE alone or records one of the errors R331 lists
for it. -/
def Obligations.OnlyListedErrorsAreRaised : Prop :=
  ∀ (i : Instr) (s t : State), exec i s = .next t → i ≠ .reset → i ≠ .errClear →
    (t.err = s.err ∧ t.fatal = s.fatal ∧ t.errcode = s.errcode) ∨
    ∃ (e : Err) (n : Nat), e ∈ raisedBy i ∧ (e, n) ∈ errorCodes ∧ t.err = true ∧
      t.fatal = (s.fatal || n / 256 == 2) ∧ t.errcode = BitVec.ofNat 64 (65536 * i.op.code.toNat + n)

/-- FATAL is left only by a HardReset move or by the core performing RESET (R33, R332, R340). -/
def Obligations.OnlyResetLeavesFatal : Prop :=
  ∀ s t : State, s.fatal = true → step s = .next t →
    t.fatal = true ∨ (∃ rest : List Turn, s.script = .host .hardReset :: rest) ∨
      (s.pending = some 1 ∧ (s.script = [] ∨ ∃ rest : List Turn, s.script = .core :: rest))

/-! ### Control commands and reset (44_control.md, 70_reset_and_hazards.md) -/

/-- NOP only ends; ERR_CLEAR clears ERR, OVR and ERRCODE and nothing else (R310, R312). -/
def Obligations.NopAndErrClear : Prop :=
  ∀ s : State,
    exec .nop s = .next { s with pending := none } ∧
    exec .errClear s = .next { s with pending := none, err := false, ovr := false, errcode := 0 }

/-- RESET and HardReset both write every field of the block and leave the streams alone (R370, R372); that the host's own
fields keep their values is the model's choice, log entry 1. -/
def Obligations.ResetWritesEveryField : Prop :=
  ∀ s t : State,
    t = { fmt := true, err := false, fatal := false, ovr := false, codesValid := false, errcode := 0, data := 0
          total := 0, remain := 0, nsym := 0, maxlen := 0, wbits := 0, wcnt := 0, rbits := 0, rcnt := 0, incnt := 0
          outcnt := 0, freq := tfill 0, len := tfill 0, entry := [], code := tfill 0, pending := none
          inq := s.inq, inEnd := s.inEnd, outq := s.outq, outFail := s.outFail
          script := s.script, taken := s.taken, reads := s.reads } →
    exec .reset s = .next t ∧ hostMove .hardReset s = .next t

/-- HardReset is enabled in every state and discards the pending command with the streams kept; no other host move removes
or replaces a pending command, whether it can run or not (R371, R372). -/
def Obligations.OnlyHardResetDiscardsPending : Prop :=
  (∀ s : State, ∃ t : State, hostMove .hardReset s = .next t ∧ t.pending = none ∧ t.inq = s.inq ∧ t.inEnd = s.inEnd ∧
    t.outq = s.outq ∧ t.outFail = s.outFail) ∧
  ∀ (s t : State) (m : HostMove) (w : Word), s.pending = some w → m ≠ .hardReset → hostMove m s = .next t →
    t.pending = some w

/-- The power-on state: ResetState() of any state, with both streams empty, the input open and the sink working, in mode
IDLE (R373), the host's script and record empty, log entry 1. ID and CTRL then read as R31 and R32 say, and every other
address reads 0 (R55, R86). -/
def Obligations.PowerOnIsResetState : Prop :=
  (∀ s : State, State.reset = { s.resetBlock with
    inq := [], inEnd := .opened, outq := [], outFail := false, script := [], taken := [], reads := [] }) ∧
  State.reset.mode = .idle ∧
  State.reset.memRead 0x0000 8 = 0x4855464600070001#64 ∧ State.reset.memRead 0x0008 8 = 1#64 ∧
  ∀ a : Nat, a ≠ 0x0000 → a ≠ 0x0008 → State.reset.memRead a 8 = 0#64

/-! ### Invariants (10_state.md section 6) -/

/-- The invariant holds at power-on (R53, R55). -/
def Obligations.ResetMeetsInvariant : Prop := State.reset.Inv

/-- Every step, of the core or of the host, keeps the invariant: both accumulators hold no bit above their counts, a valid
code table matches LEN, an invalid one holds no code (R47 as log entry 8 reads it), FATAL implies ERR, no ERRCODE without
ERR, and only words a mode accepts are pending (R53, R34, R342). -/
def Obligations.EveryStepKeepsInvariant : Prop :=
  ∀ s t : State, s.Inv → step s = .next t → t.Inv

/-- In every state that meets the invariant a valid code table is prefix-free, and each code is a number of its length
(R53 item 4, R47, R177). -/
def Obligations.ValidCodesArePrefixFree : Prop :=
  ∀ s : State, s.Inv → s.codesValid = true → s.PrefixFree ∧ ∀ x : Byte, s.codeAt x < 2 ^ s.lenAt x

/-! ### The host's accesses (20_memory.md section 3) -/

/-- A register read returns the register's value in the current state and changes nothing but the host's record of what it
read, log entry 1. An access that is misaligned, out of range or of another width reads 0 and writes nothing, also while
BUSY = 1, where log entry 7 says which of R85 and R87 the model follows. Any other write while BUSY = 1 sets OVR and does
nothing else (R85, R87, R88). -/
def Obligations.ReadsAndIgnoredAccesses : Prop :=
  ∀ (s : State) (a width : Nat) (v : Word),
    hostMove (.memRead a width) s = .next { s with reads := s.reads ++ [s.memRead a width] } ∧
    (∀ r : Reg, width = 8 → regAt a = some r → s.memRead a width = s.readReg r) ∧
    (width ≠ 8 ∨ a % 8 ≠ 0 ∨ 0x4000 ≤ a →
      s.memRead a width = 0 ∧ hostMove (.memWrite a width v) s = .next s) ∧
    ∀ w : Word, s.pending = some w → width = 8 → a % 8 = 0 → a < 0x4000 →
      hostMove (.memWrite a width v) s = .next { s with ovr := true }

/-- What a register write does while no command is pending: CTRL, DATA, TOTAL, FREQ and LEN take the value, CMD issues it,
and a write to any other register or slot is ignored (R86, R89). A LEN write makes the code table invalid; that the codes
are 0 from then on (R47) while NSYM, MAXLEN and ENTRY stay is how the model reads R89 and R47 together, log entry 8. -/
def Obligations.WriteEffects : Prop :=
  ∀ (s : State) (v : Word), s.pending = none →
    hostMove (.memWrite 0x0008 8 v) s = .next { s with fmt := v.toNat % 2 == 1 } ∧
    hostMove (.memWrite 0x0020 8 v) s = .next (s.issue v) ∧
    hostMove (.memWrite 0x0028 8 v) s = .next { s with data := v } ∧
    hostMove (.memWrite 0x0030 8 v) s = .next { s with total := v } ∧
    (∀ x : Byte, hostMove (.memWrite (0x0800 + 8 * x.toNat) 8 v) s = .next { s with freq := tset s.freq x v }) ∧
    (∀ x : Byte, hostMove (.memWrite (0x1000 + 8 * x.toNat) 8 v) s = .next { s with
      len := tset s.len x (BitVec.ofNat 8 (v.toNat % 256)), code := tfill 0, codesValid := false }) ∧
    ∀ a : Nat, a % 8 = 0 → a < 0x4000 → a ≠ 0x0008 → a ≠ 0x0020 → a ≠ 0x0028 → a ≠ 0x0030 →
      ¬ (0x0800 ≤ a ∧ a < 0x1800) → hostMove (.memWrite a 8 v) s = .next s

/-- A CMD write: dropped with OVR while BUSY, dropped while FATAL unless the word is 1, dropped while ERR unless it is 0, 1
or 2, else pending (R100). -/
def Obligations.CommandWriteIsFiltered : Prop :=
  ∀ (s : State) (w : Word), hostMove (.memWrite 0x0020 8 w) s = .next
    (if s.pending ≠ none then { s with ovr := true }
    else if s.fatal = true ∧ w ≠ 1 then s
    else if s.err = true ∧ ¬ (w = 0 ∨ w = 1 ∨ w = 2) then s
    else { s with pending := some w })

/-- In a state that meets the invariant, a CMD word becomes pending exactly when the mode accepts it (R342). -/
def Obligations.ModesAcceptTheirWords : Prop :=
  ∀ (s t : State) (w : Word), s.Inv → s.pending = none → hostMove (.memWrite 0x0020 8 w) s = .next t →
    (t.pending = some w ↔ s.mode.accepts w) ∧ (t.pending = none ∨ t.mode = .busy)

/-- What the registers read in any state, by address (R31 to R47), and the reserved slots (R86). ENTRY[i] reads 0 past
the last entry; where NSYM is larger than the list of entries, which no run reaches, that is the model's choice, log entry
11. -/
def Obligations.RegisterReads : Prop :=
  ∀ s : State,
    s.memRead 0x0000 8 = 0x4855464600070001#64 ∧
    (s.memRead 0x0008 8).toNat = s.fmt.toNat ∧
    (s.memRead 0x0010 8).toNat = (if s.pending = none then 0 else 1) + 2 * s.err.toNat + 4 * s.fatal.toNat +
      8 * s.ovr.toNat + 16 * s.codesValid.toNat ∧
    s.memRead 0x0018 8 = s.errcode ∧ s.memRead 0x0020 8 = 0 ∧ s.memRead 0x0028 8 = s.data ∧
    s.memRead 0x0030 8 = s.total ∧ s.memRead 0x0038 8 = s.remain ∧
    (s.memRead 0x0040 8).toNat = s.nsym.toNat ∧ (s.memRead 0x0048 8).toNat = s.maxlen.toNat ∧
    (s.memRead 0x0050 8).toNat = s.wbits.toNat + 256 * s.wcnt.val ∧
    (s.memRead 0x0058 8).toNat = s.rbits.toNat + 256 * s.rcnt.val ∧
    s.memRead 0x0060 8 = s.incnt ∧ s.memRead 0x0068 8 = s.outcnt ∧
    (∀ x : Byte, (s.memRead (0x0800 + 8 * x.toNat) 8).toNat = s.freqAt x) ∧
    (∀ x : Byte, (s.memRead (0x1000 + 8 * x.toNat) 8).toNat = s.lenAt x) ∧
    (∀ x : Byte, (s.memRead (0x2000 + 8 * x.toNat) 8).toNat = s.codeAt x % 2 ^ 64) ∧
    (∀ (i : Byte) (e : Entry), s.entry[i.toNat]? = some e →
      (s.memRead (0x1800 + 8 * i.toNat) 8).toNat = e.sym.toNat + 256 * e.len.toNat) ∧
    (∀ i : Byte, s.entry.length ≤ i.toNat → s.memRead (0x1800 + 8 * i.toNat) 8 = 0) ∧
    ∀ a : Nat, (0x0070 ≤ a ∧ a ≤ 0x07F8) ∨ (0x2800 ≤ a ∧ a ≤ 0x3FF8) → s.memRead a 8 = 0

/-! ### The streams (20_memory.md sections 4 and 7) -/

/-- The host's stream moves, each where it is enabled (R104). That Pop records the byte in `taken` is the model's choice,
log entry 1. -/
def Obligations.StreamMoves : Prop :=
  ∀ s : State,
    (∀ b : Byte, s.inEnd = .opened → hostMove (.push b) s = .next { s with inq := s.inq ++ [b] }) ∧
    (s.inEnd = .opened → hostMove .closeEos s = .next { s with inEnd := .eos }) ∧
    (s.inEnd = .opened → hostMove .closeFail s = .next { s with inEnd := .fail }) ∧
    (s.pending = none → hostMove .reopen s = .next { s with inq := [], inEnd := .opened }) ∧
    (∀ (b : Byte) (rest : List Byte), s.outq = b :: rest →
      hostMove .pop s = .next { s with outq := rest, taken := s.taken ++ [b] }) ∧
    ∀ x : Bool, hostMove (.setOutFail x) s = .next { s with outFail := x }

/-- The output is first-in first-out: in every step the bytes the host took, followed by the queue, only grow at the end,
and OUTCNT counts what came, but for a reset, by HardReset or by the core performing RESET, which adds nothing and clears
it (R43, R91, R95). `taken` is the model's own, log entry 1. -/
def Obligations.OutputIsFifo : Prop :=
  ∀ s t : State, step s = .next t → ∃ e : List Byte, t.taken ++ t.outq = s.taken ++ s.outq ++ e ∧
    (t.outcnt = s.outcnt + BitVec.ofNat 64 e.length ∨
      (e = [] ∧ t.outcnt = 0 ∧
        ((∃ rest : List Turn, s.script = .host .hardReset :: rest) ∨
          (s.pending = some 1 ∧ (s.script = [] ∨ ∃ rest : List Turn, s.script = .core :: rest)))))

/-- A command takes input bytes from the front of the queue only and puts output bytes at the end of the queue only, and
INCNT and OUTCNT count them modulo 2^64, but for RESET, which clears the counters. Only GET_BIT, GET_BITS, DEC_SYM,
HDR_READ, ENCODE and DECODE fetch, and only PUT_BIT, PUT_BITS, FLUSH, ENC_SYM, HDR_WRITE, ENCODE and DECODE emit (R43,
R91, R93, R95, R331). -/
def Obligations.CommandsMoveStreamsInOrder : Prop :=
  ∀ (i : Instr) (s t : State), exec i s = .next t →
    (i ≠ .reset → StreamsMove s t) ∧
    (canHold i = false → t.inq = s.inq ∧ (i ≠ .reset → t.incnt = s.incnt)) ∧
    (Err.ioWrite ∉ raisedBy i → t.outq = s.outq ∧ (i ≠ .reset → t.outcnt = s.outcnt))

/-! ### What commands leave alone -/

/-- What commands leave alone. No command changes the input's end or the sink; that none, RESET included, changes the
host's own fields `script`, `taken` and `reads` is the model's choice, log entry 1. Only RESET changes FMT and FREQ, and
only it and ERR_CLEAR change OVR. Only GET_BIT, GET_BITS, DEC_SYM and RESET write DATA; only DECODE and RESET write REMAIN;
only BUILD_TREE, HDR_READ, ENCODE, DECODE and RESET write TOTAL and LEN; only these and BUILD_CODES write the code table
and CODES_VALID (R32, R33, R36 to R40, R44 to R47, R51). -/
def Obligations.OnlyOwnersWriteRegisters : Prop :=
  ∀ (i : Instr) (s t : State), exec i s = .next t →
    (t.inEnd = s.inEnd ∧ t.outFail = s.outFail ∧ t.script = s.script ∧ t.taken = s.taken ∧ t.reads = s.reads) ∧
    (i ≠ .reset →
      t.fmt = s.fmt ∧ t.freq = s.freq ∧
      (i ≠ .errClear → t.ovr = s.ovr) ∧
      (i ≠ .getBit → (∀ n : Byte, i ≠ .getBits n) → i ≠ .decSym → t.data = s.data) ∧
      (i ≠ .decode → t.remain = s.remain) ∧
      (i ≠ .buildTree → i ≠ .hdrRead → i ≠ .encode → i ≠ .decode → t.total = s.total ∧ t.len = s.len) ∧
      (i ≠ .buildTree → i ≠ .buildCodes → i ≠ .hdrRead → i ≠ .encode → i ≠ .decode →
        t.nsym = s.nsym ∧ t.maxlen = s.maxlen ∧ t.entry = s.entry ∧ t.code = s.code ∧ t.codesValid = s.codesValid))

/-- Only PUT_BIT, PUT_BITS, FLUSH, ENC_SYM, ENCODE and RESET change the writer's accumulator; only GET_BIT, GET_BITS,
ALIGN, DEC_SYM, DECODE and RESET the reader's (R206). That a failed emission of DECODE leaves the writer's alone is how the
model reads R95 and R206 beside R386, log entry 17. -/
def Obligations.WriterAndReaderAreSeparate : Prop :=
  ∀ (i : Instr) (s t : State), exec i s = .next t → i ≠ .reset →
    ((∀ b : Byte, i ≠ .putBit b) → (∀ n : Byte, i ≠ .putBits n) → i ≠ .flush → (∀ x : Byte, i ≠ .encSym x) →
      i ≠ .encode → t.wbits = s.wbits ∧ t.wcnt = s.wcnt) ∧
    (i ≠ .getBit → (∀ n : Byte, i ≠ .getBits n) → i ≠ .align → i ≠ .decSym → i ≠ .decode →
      t.rbits = s.rbits ∧ t.rcnt = s.rcnt)

/-! ### The bit-stream encoder (41_bitstream.md sections 1 and 2) -/

/-- PUT_BIT appends its bit to the accumulator; the eighth bit emits the byte, or loses it where the sink fails (R200). -/
def Obligations.PutBitAppendsOneBit : Prop :=
  ∀ (s : State) (b : Byte), b.toNat ≤ 1 →
    (s.wcnt.val < 7 → exec (.putBit b) s = .next { s with
      pending := none, wbits := BitVec.ofNat 8 (2 * s.wbits.toNat + b.toNat), wcnt := s.wcnt + 1 }) ∧
    (s.wcnt.val = 7 → s.outFail = false → exec (.putBit b) s = .next { s with
      pending := none, wbits := 0, wcnt := 0, outq := s.outq ++ [BitVec.ofNat 8 (2 * s.wbits.toNat + b.toNat)]
      outcnt := s.outcnt + 1 }) ∧
    (s.wcnt.val = 7 → s.outFail = true → exec (.putBit b) s = .next { s with
      pending := none, wbits := 0, wcnt := 0, err := true, errcode := 0x200102 })

/-- PUT_BITS appends the low N bits of DATA, most significant first, to the bits written (R201, R211). -/
def Obligations.PutBitsAppendsLowBits : Prop :=
  ∀ (s : State) (n : Byte), n.toNat ≤ 64 → s.outFail = false ∨ s.wcnt.val + n.toNat < 8 →
    ∃ t : State, exec (.putBits n) s = .next t ∧ WritesOnly { s with pending := none } t ∧
      t.outBits = s.outBits ++ natBits s.data.toNat n.toNat ∧
      (s.wbits.toNat < 2 ^ s.wcnt.val → t.wbits.toNat < 2 ^ t.wcnt.val)

/-- ENC_SYM appends the code of its symbol, however long, most significant bit first (R201, R213). -/
def Obligations.EncSymAppendsCode : Prop :=
  ∀ (s : State) (x : Byte), s.codesValid = true → s.lenAt x ≠ 0 →
    s.outFail = false ∨ s.wcnt.val + s.lenAt x < 8 →
    ∃ t : State, exec (.encSym x) s = .next t ∧ WritesOnly { s with pending := none } t ∧
      t.outBits = s.outBits ++ s.symBits x ∧
      (s.wbits.toNat < 2 ^ s.wcnt.val → t.wbits.toNat < 2 ^ t.wcnt.val)

/-- ENC_SYM and DEC_SYM without a valid code table, ENC_SYM with a symbol that has no code, DEC_SYM with an empty table: the
error, and nothing else; no bit is read (R203, R213, R223, R335). -/
def Obligations.SymbolCommandsNeedCodes : Prop :=
  ∀ (s : State) (x : Byte),
    (s.codesValid = false → exec (.encSym x) s = .next { s with
      pending := none, err := true, errcode := 0x230501 }) ∧
    (s.codesValid = true → s.lenAt x = 0 → exec (.encSym x) s = .next { s with
      pending := none, err := true, fatal := true, errcode := 0x230202 }) ∧
    (s.codesValid = false → exec .decSym s = .next { s with
      pending := none, err := true, errcode := 0x2B0501 }) ∧
    (s.codesValid = true → s.nsym = 0 → exec .decSym s = .next { s with
      pending := none, err := true, errcode := 0x2B0308 })

/-- FLUSH emits nothing at a byte boundary; else it left-aligns the partial byte over zero bits and emits it, or loses it
where the sink fails (R205). -/
def Obligations.FlushPadsTheLastByte : Prop :=
  ∀ s : State,
    (s.wcnt.val = 0 → exec .flush s = .next { s with pending := none }) ∧
    (s.wcnt.val ≠ 0 → s.outFail = false → exec .flush s = .next { s with
      pending := none, wbits := 0, wcnt := 0
      outq := s.outq ++ [BitVec.ofNat 8 (s.wbits.toNat * 2 ^ (8 - s.wcnt.val))], outcnt := s.outcnt + 1 }) ∧
    (s.wcnt.val ≠ 0 → s.outFail = true → exec .flush s = .next { s with
      pending := none, wbits := 0, wcnt := 0, err := true, errcode := 0x220102 })

/-- Where the sink fails, a PUT_BITS or ENC_SYM that fills a byte emits nothing, loses the byte and the bits after it, and
leaves the accumulator empty (R200, R211, R213, R386). -/
def Obligations.FailedEmissionLosesBits : Prop :=
  ∀ s : State, s.outFail = true →
    (∀ n : Byte, n.toNat ≤ 64 → 8 ≤ s.wcnt.val + n.toNat → exec (.putBits n) s = .next { s with
      pending := none, wbits := 0, wcnt := 0, err := true, errcode := 0x210102 }) ∧
    (∀ x : Byte, s.codesValid = true → s.lenAt x ≠ 0 → 8 ≤ s.wcnt.val + s.lenAt x →
      exec (.encSym x) s = .next { s with
        pending := none, wbits := 0, wcnt := 0, err := true, errcode := 0x230102 })

/-! ### The bit-stream decoder (41_bitstream.md sections 1 and 3) -/

/-- GET_BIT puts the next unread bit into DATA and leaves the others unread (R202, R220). -/
def Obligations.GetBitReadsNextBit : Prop :=
  ∀ (s : State) (b : Bool) (rest : List Bool), s.inBits = b :: rest →
    ∃ t : State, exec .getBit s = .next t ∧
      ReadsOnly { s with pending := none, data := BitVec.ofNat 64 b.toNat } t ∧ t.inBits = rest ∧
      t.rbits.toNat < 2 ^ t.rcnt.val

/-- GET_BITS puts the next N unread bits into DATA, the first one most significant, and leaves the others unread (R202,
R221). -/
def Obligations.GetBitsReadsBits : Prop :=
  ∀ (s : State) (n : Byte) (bits rest : List Bool), n.toNat ≤ 64 → bits.length = n.toNat → s.inBits = bits ++ rest →
    ∃ t : State, exec (.getBits n) s = .next t ∧
      ReadsOnly { s with pending := none, data := BitVec.ofNat 64 (bitsValue bits) } t ∧ t.inBits = rest ∧
      (s.rbits.toNat < 2 ^ s.rcnt.val → t.rbits.toNat < 2 ^ t.rcnt.val)

/-- GET_BIT and GET_BITS where the input has fewer bits than they need: held while it is open; at its end IO.END and after
its failure IO.READ, with the bits there were consumed and DATA unchanged (R93, R202, R220, R221). -/
def Obligations.RawReadPastTheEnd : Prop :=
  ∀ s : State,
    (s.inBits = [] →
      (s.inEnd = .opened → exec .getBit s = .next s) ∧
      (s.inEnd = .eos → exec .getBit s = .next { s with pending := none, err := true, errcode := 0x280103 }) ∧
      (s.inEnd = .fail → exec .getBit s = .next { s with pending := none, err := true, errcode := 0x280101 })) ∧
    ∀ n : Byte, n.toNat ≤ 64 → s.inBits.length < n.toNat →
      (s.inEnd = .opened → exec (.getBits n) s = .next s) ∧
      (s.inEnd = .eos → ∃ t : State, exec (.getBits n) s = .next t ∧ t.inBits = [] ∧
        ReadsOnly { s with pending := none, err := true, errcode := 0x290103 } t) ∧
      (s.inEnd = .fail → ∃ t : State, exec (.getBits n) s = .next t ∧ t.inBits = [] ∧
        ReadsOnly { s with pending := none, err := true, errcode := 0x290101 } t)

/-- ALIGN drops unread bits that are all 0 and refuses others, fetching nothing either way (R204). -/
def Obligations.AlignDropsZeroBits : Prop :=
  ∀ s : State,
    (s.rbits = 0 → exec .align s = .next { s with pending := none, rbits := 0, rcnt := 0 }) ∧
    (s.rbits ≠ 0 → exec .align s = .next { s with pending := none, err := true, errcode := 0x2A0309 })

/-- DEC_SYM with a valid code table: where the unread bits begin with the code of a symbol, that symbol goes to DATA and
exactly its code is read (R203, R207, R223). -/
def Obligations.DecSymReadsOneCode : Prop :=
  ∀ (s : State) (x : Byte) (rest : List Bool), s.Inv → s.codesValid = true → s.lenAt x ≠ 0 →
    s.inBits = s.symBits x ++ rest →
    ∃ t : State, exec .decSym s = .next t ∧
      ReadsOnly { s with pending := none, data := BitVec.ofNat 64 x.toNat } t ∧ t.inBits = rest ∧
      t.rbits.toNat < 2 ^ t.rcnt.val

/-- DEC_SYM where the unread bits begin with no code: with MAXLEN bits there, BAD_CODE after MAXLEN bits; with fewer, held
while the input is open, TRUNCATED at its end and IO.READ after its failure, with the bits there were consumed (R203,
R223). -/
def Obligations.DecSymFindsNoCode : Prop :=
  ∀ s : State, s.Inv → s.codesValid = true → s.nsym ≠ 0 →
    (∀ x : Byte, s.lenAt x ≠ 0 → ¬ s.symBits x <+: s.inBits) →
    (s.maxlen.toNat ≤ s.inBits.length → ∃ t : State, exec .decSym s = .next t ∧
      t.inBits = s.inBits.drop s.maxlen.toNat ∧
      ReadsOnly { s with pending := none, err := true, errcode := 0x2B0308 } t) ∧
    (s.inBits.length < s.maxlen.toNat →
      (s.inEnd = .opened → exec .decSym s = .next s) ∧
      (s.inEnd = .eos → ∃ t : State, exec .decSym s = .next t ∧ t.inBits = [] ∧
        ReadsOnly { s with pending := none, err := true, errcode := 0x2B0301 } t) ∧
      (s.inEnd = .fail → ∃ t : State, exec .decSym s = .next t ∧ t.inBits = [] ∧
        ReadsOnly { s with pending := none, err := true, errcode := 0x2B0101 } t))

/-! ### The tree builder and the code table (40_tree_and_codes.md) -/

/-- BUILD_TREE: both refusals, with nothing else changed; else TOTAL is the sum of FREQ, the code table is emptied and
LEN holds, for a single symbol, 1, and otherwise the leaf depths of the tree that merging the two least live nodes by
(weight, key) again and again ends in (R161, R162, R165). -/
def Obligations.BuildTreeWritesLeafDepths : Prop :=
  ∀ s : State,
    ((∀ x : Byte, s.freqAt x = 0) → exec .buildTree s = .next { s with
      pending := none, err := true, fatal := true, errcode := 0x100201 }) ∧
    (2 ^ 64 ≤ s.totalFreq → exec .buildTree s = .next { s with
      pending := none, err := true, fatal := true, errcode := 0x100204 }) ∧
    ((∃ x : Byte, s.freqAt x ≠ 0) → s.totalFreq < 2 ^ 64 →
      ∃ len : Table Byte,
        exec .buildTree s = .next { s with
          pending := none, len := len, total := BitVec.ofNat 64 s.totalFreq, nsym := 0, maxlen := 0, entry := []
          code := tfill 0, codesValid := false } ∧
        (∀ x : Byte, (∀ y : Byte, s.freqAt y ≠ 0 ↔ y = x) → len = tset (tfill 0) x 1) ∧
        ((∃ x y : Byte, x ≠ y ∧ s.freqAt x ≠ 0 ∧ s.freqAt y ≠ 0) →
          ∃ root : Tree,
            Merges 0 ((allBytes.filter fun x => s.freqAt x ≠ 0).map fun x => .leaf x (s.freqAt x)) root ∧
            ∀ x : Byte, if s.freqAt x = 0 then tget len x = 0
              else root.depthOf x 0 = some (tget len x).toNat))

/-- With two symbols or more the lengths BUILD_TREE writes are 1 to 255 on exactly the symbols present and meet the Kraft
equality, so BUILD_CODES accepts them; with one symbol it accepts them too (R164, R167). -/
def Obligations.TreeLengthsMeetKraftEquality : Prop :=
  ∀ s t : State, s.totalFreq < 2 ^ 64 → (∃ x : Byte, s.freqAt x ≠ 0) → exec .buildTree s = .next t →
    (∀ x : Byte, t.lenAt x ≠ 0 ↔ s.freqAt x ≠ 0) ∧
    ((∃ x y : Byte, x ≠ y ∧ s.freqAt x ≠ 0 ∧ s.freqAt y ≠ 0) → kraftSum t.len = 2 ^ 255) ∧
    ∃ u : State, exec .buildCodes t = .next u ∧ u.codesValid = true ∧ u.err = t.err ∧ u.errcode = t.errcode

/-- BUILD_CODES accepts exactly the lengths whose Kraft sum is at most 1 and that are not a single one other than 1; it
leaves a valid table that matches LEN, and changes nothing else (R171, R172, R174, R175). -/
def Obligations.BuildCodesAcceptsKraftSets : Prop :=
  ∀ s : State, kraftSum s.len ≤ 2 ^ 255 →
    (∀ x : Byte, (∀ y : Byte, s.lenAt y ≠ 0 ↔ y = x) → s.lenAt x = 1) →
    ∃ t : State, exec .buildCodes s = .next t ∧ t.TableOk ∧
      t = { s with
        pending := none, nsym := t.nsym, maxlen := t.maxlen, entry := t.entry, code := t.code, codesValid := true }

/-- BUILD_CODES refuses every other set of lengths, empties the code table and leaves LEN (R172, R174, R175). -/
def Obligations.BuildCodesRefusesOthers : Prop :=
  ∀ s : State,
    (2 ^ 255 < kraftSum s.len → exec .buildCodes s = .next { s with
      pending := none, nsym := 0, maxlen := 0, entry := [], code := tfill 0, codesValid := false
      err := true, errcode := 0x110307 }) ∧
    ∀ x : Byte, (∀ y : Byte, s.lenAt y ≠ 0 ↔ y = x) → s.lenAt x ≠ 1 → exec .buildCodes s = .next { s with
      pending := none, nsym := 0, maxlen := 0, entry := [], code := tfill 0, codesValid := false
      err := true, errcode := 0x110303 }

/-- The codes of a table that matches LEN are canonical: in sorted order the first is 0 and each next one is the last plus
one, shifted left by the difference of the lengths; a single symbol has the code 1 (R171, R173, R175). -/
def Obligations.CodesAreCanonical : Prop :=
  ∀ s : State, s.TableOk →
    (∀ e : Entry, s.entry = [e] → s.codeAt e.sym = 1 ∧ e.len = 1) ∧
    (2 ≤ s.entry.length →
      (∀ e : Entry, s.entry[0]? = some e → s.codeAt e.sym = 0) ∧
      ∀ (i : Nat) (a b : Entry), s.entry[i]? = some a → s.entry[i + 1]? = some b →
        s.codeAt b.sym = (s.codeAt a.sym + 1) * 2 ^ (b.len.toNat - a.len.toNat))

/-! ### The container header (42_container.md) -/

/-- HDR_WRITE, where the code table is valid and counted by NSYM: NO_CODES before UNALIGNED; nothing for an empty table;
else the whole header, or IO.WRITE with nothing emitted where the sink fails. Only the output and OUTCNT change (R250). -/
def Obligations.HdrWriteEmitsHeader : Prop :=
  ∀ s : State,
    (s.codesValid = false → exec .hdrWrite s = .next { s with
      pending := none, err := true, errcode := 0x300501 }) ∧
    (s.codesValid = true → s.wcnt.val ≠ 0 → exec .hdrWrite s = .next { s with
      pending := none, err := true, errcode := 0x300502 }) ∧
    (s.codesValid = true → s.wcnt.val = 0 → s.nsym = 0 → exec .hdrWrite s = .next { s with pending := none }) ∧
    (s.codesValid = true → s.wcnt.val = 0 → s.nsym ≠ 0 → s.nsym.toNat = s.entry.length →
      (s.outFail = false → exec .hdrWrite s = .next { s with
        pending := none, outq := s.outq ++ headerOf s.fmt s.entry s.total.toNat
        outcnt := s.outcnt + BitVec.ofNat 64 (2 + 2 * s.nsym.toNat + if s.fmt then 8 else 0) }) ∧
      (s.outFail = true → exec .hdrWrite s = .next { s with
        pending := none, err := true, errcode := 0x300102 }))

/-- HDR_READ of a well-formed header fetches exactly its bytes, installs its lengths and their code table, and writes TOTAL
with FMT = 1 only (R130, R252, R253). -/
def Obligations.HdrReadInstallsHeader : Prop :=
  ∀ (s : State) (es : List Entry) (total : Nat) (rest : List Byte),
    s.rcnt.val = 0 → EntriesOk es → (s.fmt = true → 0 < total ∧ total < 2 ^ 64) →
    s.inq = headerOf s.fmt es total ++ rest →
    ∃ t : State, exec .hdrRead s = .next t ∧ t.TableOk ∧ t.entry = es ∧
      t = { s with
        pending := none, inq := rest, incnt := s.incnt + BitVec.ofNat 64 (2 + 2 * es.length + if s.fmt then 8 else 0)
        len := lengthsOf es, total := if s.fmt then BitVec.ofNat 64 total else s.total, nsym := t.nsym
        maxlen := t.maxlen, entry := es, code := t.code, codesValid := true }

/-- The empty container, an ended input or the bytes 00 00, gives the empty table and TOTAL = 0 (R135, R252, R253). -/
def Obligations.HdrReadEmptyContainer : Prop :=
  ∀ (s : State) (rest : List Byte), s.rcnt.val = 0 →
    (s.inq = [] → s.inEnd = .eos → exec .hdrRead s = .next { s with
      pending := none, len := tfill 0, total := 0, nsym := 0, maxlen := 0, entry := [], code := tfill 0
      codesValid := true }) ∧
    (s.inq = 0x00#8 :: 0x00#8 :: rest → exec .hdrRead s = .next { s with
      pending := none, inq := rest, incnt := s.incnt + 2, len := tfill 0, total := 0, nsym := 0, maxlen := 0
      entry := [], code := tfill 0, codesValid := true })

/-- A failed HDR_READ leaves no lengths and no code table, TOTAL as before, and the bytes it fetched consumed (R252,
R335). -/
def Obligations.FailedHdrReadLeavesNoTable : Prop :=
  ∀ s t : State, s.err = false → exec .hdrRead s = .next t → t.err = true →
    t = { s with
      pending := none, inq := t.inq, incnt := t.incnt, len := tfill 0, nsym := 0, maxlen := 0, entry := []
      code := tfill 0, codesValid := false, err := true, errcode := t.errcode } ∧
    StreamsMove s t

/-- HDR_READ of an input that breaks off before or inside a well-formed header: held while it is open, IO.READ after its
failure and, where at least one byte is there, TRUNCATED at its end, with every byte there was consumed (R252, R254 checks
2 and 3). -/
def Obligations.HdrReadOfPartOfHeader : Prop :=
  ∀ (s : State) (es : List Entry) (total : Nat) (missing : List Byte),
    s.rcnt.val = 0 → EntriesOk es → (s.fmt = true → 0 < total ∧ total < 2 ^ 64) →
    s.inq ++ missing = headerOf s.fmt es total → missing ≠ [] →
    (s.inEnd = .opened → exec .hdrRead s = .next s) ∧
    (s.inEnd = .eos → s.inq ≠ [] →
      ∃ t : State, exec .hdrRead s = .next t ∧ t.err = true ∧ t.errcode = 0x310301 ∧ t.inq = []) ∧
    (s.inEnd = .fail → ∃ t : State, exec .hdrRead s = .next t ∧ t.err = true ∧ t.errcode = 0x310101 ∧ t.inq = [])

/-- The content checks of HDR_READ, in their order: a partial byte in the reader, a count above 256, and, on the first bad
entry after good ones, a length of 0, a symbol seen before, an entry not after the last one. Nothing after the failing
byte is fetched (R252, R254 checks 1 and 4 to 7). -/
def Obligations.HdrReadChecksInOrder : Prop :=
  ∀ (s : State) (n : Nat) (es : List Entry) (e : Entry) (rest : List Byte),
    (s.rcnt.val ≠ 0 → ∃ t : State, exec .hdrRead s = .next t ∧ t.err = true ∧ t.errcode = 0x310502 ∧ t.inq = s.inq) ∧
    (s.rcnt.val = 0 → 256 < n → n < 65536 → s.inq = bigEndian n 2 ++ rest →
      ∃ t : State, exec .hdrRead s = .next t ∧ t.err = true ∧ t.errcode = 0x310302 ∧ t.inq = rest) ∧
    (s.rcnt.val = 0 → es.length < n → n ≤ 256 → es.Pairwise Entry.lt → (es.map fun a => a.sym).Nodup →
      (∀ a ∈ es, a.len ≠ 0) → s.inq = bigEndian n 2 ++ entryPairs (es ++ [e]) ++ rest →
      (e.len = 0 →
        ∃ t : State, exec .hdrRead s = .next t ∧ t.err = true ∧ t.errcode = 0x310303 ∧ t.inq = rest) ∧
      (e.len ≠ 0 → e.sym ∈ es.map (fun a => a.sym) →
        ∃ t : State, exec .hdrRead s = .next t ∧ t.err = true ∧ t.errcode = 0x310304 ∧ t.inq = rest) ∧
      (e.len ≠ 0 → e.sym ∉ es.map (fun a => a.sym) → (∃ a ∈ es, ¬ a.lt e) →
        ∃ t : State, exec .hdrRead s = .next t ∧ t.err = true ∧ t.errcode = 0x310305 ∧ t.inq = rest))

/-- The checks HDR_READ makes after the entries: with FMT = 1 a total_len of 0, then a single length other than 1, then
lengths that over-fill the code space, with exactly the header consumed (R252, R254 checks 8 to 10). -/
def Obligations.HdrReadChecksWholeHeader : Prop :=
  ∀ (s : State) (es : List Entry) (total : Nat) (rest : List Byte),
    s.rcnt.val = 0 → es ≠ [] → es.Pairwise Entry.lt → (es.map fun a => a.sym).Nodup → (∀ a ∈ es, a.len ≠ 0) →
    total < 2 ^ 64 → s.inq = headerOf s.fmt es total ++ rest →
    (s.fmt = true → total = 0 →
      ∃ t : State, exec .hdrRead s = .next t ∧ t.err = true ∧ t.errcode = 0x310306 ∧ t.inq = rest) ∧
    (s.fmt = false ∨ total ≠ 0 →
      (∀ e : Entry, es = [e] → e.len ≠ 1 →
        ∃ t : State, exec .hdrRead s = .next t ∧ t.err = true ∧ t.errcode = 0x310303 ∧ t.inq = rest) ∧
      (2 ^ 255 < kraftSum (lengthsOf es) →
        ∃ t : State, exec .hdrRead s = .next t ∧ t.err = true ∧ t.errcode = 0x310307 ∧ t.inq = rest))

/-- HDR_READ inverts HDR_WRITE: reading back, in any block with the same FMT and an aligned reader, what HDR_WRITE emitted
of a nonempty valid table gives the same LEN and code table and, with FMT = 1, the same TOTAL (R256). -/
def Obligations.HdrReadInvertsHdrWrite : Prop :=
  ∀ (s t u : State) (header rest : List Byte),
    s.Inv → s.codesValid = true → s.nsym ≠ 0 → s.wcnt.val = 0 → s.outFail = false → (s.fmt = true → s.total ≠ 0) →
    exec .hdrWrite s = .next t → t.outq = s.outq ++ header →
    u.fmt = s.fmt → u.rcnt.val = 0 → u.inq = header ++ rest →
    ∃ v : State, exec .hdrRead u = .next v ∧ v.inq = rest ∧ v.codesValid = true ∧ v.err = u.err ∧ v.len = s.len ∧
      v.nsym = s.nsym ∧ v.maxlen = s.maxlen ∧ v.entry = s.entry ∧ v.code = s.code ∧ (s.fmt = true → v.total = s.total)

/-! ### The drivers (43_drivers.md) -/

/-- ENCODE with every FREQ entry 0 leaves the empty table and TOTAL = 0, reads nothing and emits nothing; so does DECODE of
an ended, empty input, and DECODE of the bytes 00 00, which fetches just these (R135, R281, R282, R294). -/
def Obligations.EmptyDataIsEmptyContainer : Prop :=
  ∀ (s : State) (rest : List Byte),
    (s.wcnt.val = 0 → (∀ x : Byte, s.freqAt x = 0) → exec .encode s = .next { s with
      pending := none, len := tfill 0, total := 0, nsym := 0, maxlen := 0, entry := [], code := tfill 0
      codesValid := true }) ∧
    (s.rcnt.val = 0 → s.rbits = 0 →
      (s.inq = [] → s.inEnd = .eos → exec .decode s = .next { s with
        pending := none, len := tfill 0, total := 0, remain := 0, nsym := 0, maxlen := 0, entry := [], code := tfill 0
        codesValid := true }) ∧
      (s.inq = 0x00#8 :: 0x00#8 :: rest → exec .decode s = .next { s with
        pending := none, inq := rest, incnt := s.incnt + 2, len := tfill 0, total := 0, remain := 0, nsym := 0
        maxlen := 0, entry := [], code := tfill 0, codesValid := true }))

/-- ENCODE of an ended input of TOTAL bytes, each counted in FREQ, emits one container: the header of the table BUILD_TREE
and BUILD_CODES give, then the codes of the bytes packed into whole bytes. It consumes the input, ends byte-aligned and
writes nothing but what R281 lists (R130, R134, R281, R295). -/
def Obligations.EncodeEmitsContainer : Prop :=
  ∀ (s : State) (data : List Byte), data ≠ [] → data.length < 2 ^ 64 → s.totalFreq = data.length →
    (∀ x ∈ data, s.freqAt x ≠ 0) → s.wcnt.val = 0 → s.outFail = false → s.inq = data → s.inEnd = .eos →
    ∃ (t : State) (payload : List Byte), exec .encode s = .next t ∧ EncodesOnly { s with pending := none } t ∧
      HasEncodeTable s t ∧ t.inq = [] ∧ t.wcnt.val = 0 ∧
      t.outq = s.outq ++ headerOf s.fmt t.entry data.length ++ payload ∧ IsPacked (data.flatMap t.symBits) payload

/-- ENCODE's refusals: a partial byte in the writer; a histogram of 2^64 or more; a failing sink, where nothing is emitted
or read; a byte FREQ did not count; a byte more than FREQ counted; an input that ends early; an input that fails. The last
four come after the header and the good bytes before them were coded. From the failing sink on, LEN, TOTAL and the code
table are those of FREQ (R281, R335). -/
def Obligations.EncodeRefusesBadInput : Prop :=
  ∀ (s : State) (good rest : List Byte) (x : Byte),
    (s.wcnt.val ≠ 0 → exec .encode s = .next { s with pending := none, err := true, errcode := 0x400502 }) ∧
    (s.wcnt.val = 0 → 2 ^ 64 ≤ s.totalFreq → exec .encode s = .next { s with
      pending := none, err := true, fatal := true, errcode := 0x400204 }) ∧
    (s.wcnt.val = 0 → s.totalFreq < 2 ^ 64 → s.totalFreq ≠ 0 →
      (s.outFail = true → ∃ t : State, exec .encode s = .next t ∧ HasEncodeTable s t ∧
        t = { s with
          pending := none, err := true, errcode := 0x400102, len := t.len, total := t.total, nsym := t.nsym
          maxlen := t.maxlen, entry := t.entry, code := t.code, codesValid := true }) ∧
      (s.outFail = false → (∀ y ∈ good, s.freqAt y ≠ 0) →
        (s.inq = good ++ x :: rest → good.length < s.totalFreq → s.freqAt x = 0 →
          ∃ t : State, exec .encode s = .next t ∧ EncodeFailedAfter good 0x400202 true s t ∧ t.inq = rest) ∧
        (s.inq = good ++ x :: rest → good.length = s.totalFreq →
          ∃ t : State, exec .encode s = .next t ∧ EncodeFailedAfter good 0x400203 true s t ∧ t.inq = rest) ∧
        (s.inq = good → s.inEnd = .eos → good.length < s.totalFreq →
          ∃ t : State, exec .encode s = .next t ∧ EncodeFailedAfter good 0x400203 true s t ∧ t.inq = []) ∧
        (s.inq = good → s.inEnd = .fail → good.length ≤ s.totalFreq →
          ∃ t : State, exec .encode s = .next t ∧ EncodeFailedAfter good 0x400101 false s t ∧ t.inq = [])))

/-- ENCODE is held until the input is closed, as long as the bytes so far are good (R14, R281, R381). -/
def Obligations.EncodeWaitsForTheEnd : Prop :=
  ∀ s : State, s.wcnt.val = 0 → s.totalFreq < 2 ^ 64 → s.totalFreq ≠ 0 → s.outFail = false → s.inEnd = .opened →
    (∀ y ∈ s.inq, s.freqAt y ≠ 0) → s.inq.length ≤ s.totalFreq → exec .encode s = .next s

/-- ENCODE is a function of FREQ, CTRL.FMT and the input bytes: two states that agree on these, with the writer empty, give
the same output and the same tables, counts and errors, whatever else differs (R291). -/
def Obligations.EncodeIsDeterminedByItsInput : Prop :=
  ∀ s s' t t' : State, s.freq = s'.freq → s.fmt = s'.fmt → s.inq = s'.inq → s.inEnd = s'.inEnd →
    s.outFail = s'.outFail → s.wcnt.val = 0 → s'.wcnt.val = 0 → s.wbits = s'.wbits → s.inEnd ≠ .opened →
    s.totalFreq < 2 ^ 64 → exec .encode s = .next t → exec .encode s' = .next t' →
    (∃ out : List Byte, t.outq = s.outq ++ out ∧ t'.outq = s'.outq ++ out) ∧ t.inq = t'.inq ∧ t.len = t'.len ∧
      t.total = t'.total ∧ t.nsym = t'.nsym ∧ t.maxlen = t'.maxlen ∧ t.entry = t'.entry ∧ t.code = t'.code ∧
      t.codesValid = t'.codesValid ∧ t.wbits = t'.wbits ∧ t.wcnt = t'.wcnt ∧
      (s.err = false → s'.err = false → s.errcode = s'.errcode → t.err = t'.err ∧ t.errcode = t'.errcode)

/-- DECODE of a container emits exactly the data its payload holds, fetches exactly the container, and leaves TOTAL,
REMAIN = 0, an aligned reader and the header's table (R207, R282, R283). -/
def Obligations.DecodeEmitsTheData : Prop :=
  ∀ (s : State) (es : List Entry) (code : Table CodeWord) (data payload rest : List Byte),
    s.rcnt.val = 0 → s.rbits = 0 → s.outFail = false ∨ data = [] → EntriesOk es → codesOf es = .ok code →
    (∀ x ∈ data, tget (lengthsOf es) x ≠ 0) → data.length < 2 ^ 64 → (s.fmt = true → data ≠ []) →
    (s.fmt = false → s.total = BitVec.ofNat 64 data.length) →
    IsPacked (codeBits code (lengthsOf es) data) payload →
    s.inq = headerOf s.fmt es data.length ++ payload ++ rest →
    ∃ t : State, exec .decode s = .next t ∧ DecodesOnly { s with pending := none } t ∧ t.outq = s.outq ++ data ∧
      t.inq = rest ∧ t.total = BitVec.ofNat 64 data.length ∧ t.remain = 0 ∧ t.rcnt.val = 0 ∧ t.rbits = 0 ∧
      t.codesValid = true ∧ t.entry = es ∧ t.code = code

/-- DECODE's refusals. What HDR_READ refuses, DECODE refuses with the same error and the same state, and where HDR_READ is
held DECODE is held; so for a partial byte in the reader. After a header and the codes of some bytes, which are emitted: a
code whose byte the sink fails to take; a pad bit 1; bits that begin with no code, of which as many as the longest code has
give BAD_CODE, and with fewer DECODE is held while the input is open and raises TRUNCATED at its end and IO.READ after its
failure. The header's table stays and REMAIN counts the bytes not emitted (R203, R204, R253, R282, R335). That the writer's
accumulator stays as it was where the sink fails is log entry 17. -/
def Obligations.DecodeRefusesBadPayload : Prop :=
  ∀ (s : State) (es : List Entry) (code : Table CodeWord) (total : Nat) (good payload rest : List Byte)
    (tail : List Bool),
    (∃ t : State, exec .hdrRead s = .next t ∧
      (s.err = false → t.err = true →
        exec .decode s = .next { t with errcode := BitVec.ofNat 64 (0x410000 + t.errcode.toNat % 65536) }) ∧
      (s.pending ≠ none → t.pending ≠ none → exec .decode s = .next s)) ∧
    (s.rcnt.val ≠ 0 → ∃ t : State, exec .decode s = .next t ∧ t.err = true ∧ t.errcode = 0x410502 ∧ t.inq = s.inq ∧
      t.outq = s.outq ∧ t.codesValid = false) ∧
    (s.rcnt.val = 0 → s.rbits = 0 → EntriesOk es → codesOf es = .ok code →
      (∀ x ∈ good, tget (lengthsOf es) x ≠ 0) → total < 2 ^ 64 → (s.fmt = true → 0 < total) →
      (s.fmt = false → s.total = BitVec.ofNat 64 total) →
      bytesBits payload = codeBits code (lengthsOf es) good ++ tail →
      (s.outFail = true → good.length = 1 → 0 < total → s.inq = headerOf s.fmt es total ++ payload ++ rest →
        ∃ t : State, exec .decode s = .next t ∧ DecodeFailedAfter es [] total 0x410102 s t ∧
          t.inBits = tail ++ bytesBits rest) ∧
      (s.outFail = false → good.length = total → tail.length < 8 → true ∈ tail →
        s.inq = headerOf s.fmt es total ++ payload ++ rest →
        ∃ t : State, exec .decode s = .next t ∧ DecodeFailedAfter es good total 0x410309 s t ∧
          t.inBits = tail ++ bytesBits rest ∧ t.inq = rest) ∧
      (s.outFail = false ∨ good = [] → good.length < total →
        (∀ e ∈ es, ¬ natBits (tget code e.sym).toNat e.len.toNat <+: tail) →
        ((∀ e ∈ es, e.len.toNat ≤ tail.length) → s.inq = headerOf s.fmt es total ++ payload ++ rest →
          ∃ t : State, exec .decode s = .next t ∧ DecodeFailedAfter es good total 0x410308 s t ∧
            t.inBits = tail.drop t.maxlen.toNat ++ bytesBits rest) ∧
        ((∃ e ∈ es, tail.length < e.len.toNat) → s.inq = headerOf s.fmt es total ++ payload →
          (s.inEnd = .opened → exec .decode s = .next s) ∧
          (s.inEnd = .eos → ∃ t : State, exec .decode s = .next t ∧ DecodeFailedAfter es good total 0x410301 s t ∧
            t.inBits = []) ∧
          (s.inEnd = .fail → ∃ t : State, exec .decode s = .next t ∧ DecodeFailedAfter es good total 0x410101 s t ∧
            t.inBits = []))))

/-- The round trip: what ENCODE emits for a byte sequence with its histogram in FREQ, DECODE in any block with the same FMT
and, for FMT = 0, the count in TOTAL, turns back into exactly that sequence, fetching exactly the container (R290). -/
def Obligations.DecodeInvertsEncodeOfData : Prop :=
  ∀ (s t u : State) (data container rest : List Byte),
    data.length < 2 ^ 64 → s.HasHistogram data → s.wcnt.val = 0 → s.outFail = false → s.inq = data → s.inEnd = .eos →
    exec .encode s = .next t → t.outq = s.outq ++ container →
    u.fmt = s.fmt → u.rcnt.val = 0 → u.rbits = 0 → u.outFail = false →
    (u.fmt = false → u.total = BitVec.ofNat 64 data.length) →
    u.inq = container ++ rest → (data = [] → rest = [] ∧ u.inEnd = .eos) →
    t.err = s.err ∧ t.inq = [] ∧
    ∃ v : State, exec .decode u = .next v ∧ v.outq = u.outq ++ data ∧ v.inq = rest ∧ v.err = u.err ∧ v.remain = 0

/-- ENCODE of N copies of one byte: one entry of length 1 and N payload bits 1, zero-padded (R136, R293). -/
def Obligations.EncodeOfSingleSymbol : Prop :=
  ∀ (s : State) (x : Byte) (n : Nat), 0 < n → n < 2 ^ 64 → s.HasHistogram (List.replicate n x) → s.wcnt.val = 0 →
    s.outFail = false → s.inq = List.replicate n x → s.inEnd = .eos →
    ∃ t : State, exec .encode s = .next t ∧
      t.outq = s.outq ++ [0x00#8, 0x01#8, x, 0x01#8] ++ (if s.fmt then bigEndian n 8 else []) ++
        List.replicate (n / 8) 0xFF#8 ++ (if n % 8 = 0 then [] else [BitVec.ofNat 8 (256 - 2 ^ (8 - n % 8))])
end

