-- ==== Sys2Proof/Laws/State.lean ====
section
/-! SUPPORT. One lemma for each field of the state after each named update of it, true by definition, so that no proof
unfolds a record update. -/

namespace Sys2Proof.Machine

/-! ### `State.takeError` -/

@[simp] theorem State.takeError_fmt (s : State) (op : Byte) (e : Err) : (s.takeError op e).fmt = s.fmt := rfl
@[simp] theorem State.takeError_err (s : State) (op : Byte) (e : Err) : (s.takeError op e).err = true := rfl
@[simp] theorem State.takeError_fatal (s : State) (op : Byte) (e : Err) : (s.takeError op e).fatal = (s.fatal || e.isFatal) := rfl
@[simp] theorem State.takeError_ovr (s : State) (op : Byte) (e : Err) : (s.takeError op e).ovr = s.ovr := rfl
@[simp] theorem State.takeError_codesValid (s : State) (op : Byte) (e : Err) : (s.takeError op e).codesValid = s.codesValid := rfl
@[simp] theorem State.takeError_errcode (s : State) (op : Byte) (e : Err) : (s.takeError op e).errcode = errWord op e := rfl
@[simp] theorem State.takeError_data (s : State) (op : Byte) (e : Err) : (s.takeError op e).data = s.data := rfl
@[simp] theorem State.takeError_total (s : State) (op : Byte) (e : Err) : (s.takeError op e).total = s.total := rfl
@[simp] theorem State.takeError_remain (s : State) (op : Byte) (e : Err) : (s.takeError op e).remain = s.remain := rfl
@[simp] theorem State.takeError_nsym (s : State) (op : Byte) (e : Err) : (s.takeError op e).nsym = s.nsym := rfl
@[simp] theorem State.takeError_maxlen (s : State) (op : Byte) (e : Err) : (s.takeError op e).maxlen = s.maxlen := rfl
@[simp] theorem State.takeError_wbits (s : State) (op : Byte) (e : Err) : (s.takeError op e).wbits = s.wbits := rfl
@[simp] theorem State.takeError_wcnt (s : State) (op : Byte) (e : Err) : (s.takeError op e).wcnt = s.wcnt := rfl
@[simp] theorem State.takeError_rbits (s : State) (op : Byte) (e : Err) : (s.takeError op e).rbits = s.rbits := rfl
@[simp] theorem State.takeError_rcnt (s : State) (op : Byte) (e : Err) : (s.takeError op e).rcnt = s.rcnt := rfl
@[simp] theorem State.takeError_incnt (s : State) (op : Byte) (e : Err) : (s.takeError op e).incnt = s.incnt := rfl
@[simp] theorem State.takeError_outcnt (s : State) (op : Byte) (e : Err) : (s.takeError op e).outcnt = s.outcnt := rfl
@[simp] theorem State.takeError_freq (s : State) (op : Byte) (e : Err) : (s.takeError op e).freq = s.freq := rfl
@[simp] theorem State.takeError_len (s : State) (op : Byte) (e : Err) : (s.takeError op e).len = s.len := rfl
@[simp] theorem State.takeError_entry (s : State) (op : Byte) (e : Err) : (s.takeError op e).entry = s.entry := rfl
@[simp] theorem State.takeError_code (s : State) (op : Byte) (e : Err) : (s.takeError op e).code = s.code := rfl
@[simp] theorem State.takeError_pending (s : State) (op : Byte) (e : Err) : (s.takeError op e).pending = s.pending := rfl
@[simp] theorem State.takeError_inq (s : State) (op : Byte) (e : Err) : (s.takeError op e).inq = s.inq := rfl
@[simp] theorem State.takeError_inEnd (s : State) (op : Byte) (e : Err) : (s.takeError op e).inEnd = s.inEnd := rfl
@[simp] theorem State.takeError_outq (s : State) (op : Byte) (e : Err) : (s.takeError op e).outq = s.outq := rfl
@[simp] theorem State.takeError_outFail (s : State) (op : Byte) (e : Err) : (s.takeError op e).outFail = s.outFail := rfl
@[simp] theorem State.takeError_script (s : State) (op : Byte) (e : Err) : (s.takeError op e).script = s.script := rfl
@[simp] theorem State.takeError_taken (s : State) (op : Byte) (e : Err) : (s.takeError op e).taken = s.taken := rfl
@[simp] theorem State.takeError_reads (s : State) (op : Byte) (e : Err) : (s.takeError op e).reads = s.reads := rfl

/-! ### `State.clearError` -/

@[simp] theorem State.clearError_fmt (s : State) : (s.clearError).fmt = s.fmt := rfl
@[simp] theorem State.clearError_err (s : State) : (s.clearError).err = false := rfl
@[simp] theorem State.clearError_fatal (s : State) : (s.clearError).fatal = s.fatal := rfl
@[simp] theorem State.clearError_ovr (s : State) : (s.clearError).ovr = false := rfl
@[simp] theorem State.clearError_codesValid (s : State) : (s.clearError).codesValid = s.codesValid := rfl
@[simp] theorem State.clearError_errcode (s : State) : (s.clearError).errcode = 0 := rfl
@[simp] theorem State.clearError_data (s : State) : (s.clearError).data = s.data := rfl
@[simp] theorem State.clearError_total (s : State) : (s.clearError).total = s.total := rfl
@[simp] theorem State.clearError_remain (s : State) : (s.clearError).remain = s.remain := rfl
@[simp] theorem State.clearError_nsym (s : State) : (s.clearError).nsym = s.nsym := rfl
@[simp] theorem State.clearError_maxlen (s : State) : (s.clearError).maxlen = s.maxlen := rfl
@[simp] theorem State.clearError_wbits (s : State) : (s.clearError).wbits = s.wbits := rfl
@[simp] theorem State.clearError_wcnt (s : State) : (s.clearError).wcnt = s.wcnt := rfl
@[simp] theorem State.clearError_rbits (s : State) : (s.clearError).rbits = s.rbits := rfl
@[simp] theorem State.clearError_rcnt (s : State) : (s.clearError).rcnt = s.rcnt := rfl
@[simp] theorem State.clearError_incnt (s : State) : (s.clearError).incnt = s.incnt := rfl
@[simp] theorem State.clearError_outcnt (s : State) : (s.clearError).outcnt = s.outcnt := rfl
@[simp] theorem State.clearError_freq (s : State) : (s.clearError).freq = s.freq := rfl
@[simp] theorem State.clearError_len (s : State) : (s.clearError).len = s.len := rfl
@[simp] theorem State.clearError_entry (s : State) : (s.clearError).entry = s.entry := rfl
@[simp] theorem State.clearError_code (s : State) : (s.clearError).code = s.code := rfl
@[simp] theorem State.clearError_pending (s : State) : (s.clearError).pending = s.pending := rfl
@[simp] theorem State.clearError_inq (s : State) : (s.clearError).inq = s.inq := rfl
@[simp] theorem State.clearError_inEnd (s : State) : (s.clearError).inEnd = s.inEnd := rfl
@[simp] theorem State.clearError_outq (s : State) : (s.clearError).outq = s.outq := rfl
@[simp] theorem State.clearError_outFail (s : State) : (s.clearError).outFail = s.outFail := rfl
@[simp] theorem State.clearError_script (s : State) : (s.clearError).script = s.script := rfl
@[simp] theorem State.clearError_taken (s : State) : (s.clearError).taken = s.taken := rfl
@[simp] theorem State.clearError_reads (s : State) : (s.clearError).reads = s.reads := rfl

/-! ### `State.retire` -/

@[simp] theorem State.retire_fmt (s : State) : (s.retire).fmt = s.fmt := rfl
@[simp] theorem State.retire_err (s : State) : (s.retire).err = s.err := rfl
@[simp] theorem State.retire_fatal (s : State) : (s.retire).fatal = s.fatal := rfl
@[simp] theorem State.retire_ovr (s : State) : (s.retire).ovr = s.ovr := rfl
@[simp] theorem State.retire_codesValid (s : State) : (s.retire).codesValid = s.codesValid := rfl
@[simp] theorem State.retire_errcode (s : State) : (s.retire).errcode = s.errcode := rfl
@[simp] theorem State.retire_data (s : State) : (s.retire).data = s.data := rfl
@[simp] theorem State.retire_total (s : State) : (s.retire).total = s.total := rfl
@[simp] theorem State.retire_remain (s : State) : (s.retire).remain = s.remain := rfl
@[simp] theorem State.retire_nsym (s : State) : (s.retire).nsym = s.nsym := rfl
@[simp] theorem State.retire_maxlen (s : State) : (s.retire).maxlen = s.maxlen := rfl
@[simp] theorem State.retire_wbits (s : State) : (s.retire).wbits = s.wbits := rfl
@[simp] theorem State.retire_wcnt (s : State) : (s.retire).wcnt = s.wcnt := rfl
@[simp] theorem State.retire_rbits (s : State) : (s.retire).rbits = s.rbits := rfl
@[simp] theorem State.retire_rcnt (s : State) : (s.retire).rcnt = s.rcnt := rfl
@[simp] theorem State.retire_incnt (s : State) : (s.retire).incnt = s.incnt := rfl
@[simp] theorem State.retire_outcnt (s : State) : (s.retire).outcnt = s.outcnt := rfl
@[simp] theorem State.retire_freq (s : State) : (s.retire).freq = s.freq := rfl
@[simp] theorem State.retire_len (s : State) : (s.retire).len = s.len := rfl
@[simp] theorem State.retire_entry (s : State) : (s.retire).entry = s.entry := rfl
@[simp] theorem State.retire_code (s : State) : (s.retire).code = s.code := rfl
@[simp] theorem State.retire_pending (s : State) : (s.retire).pending = none := rfl
@[simp] theorem State.retire_inq (s : State) : (s.retire).inq = s.inq := rfl
@[simp] theorem State.retire_inEnd (s : State) : (s.retire).inEnd = s.inEnd := rfl
@[simp] theorem State.retire_outq (s : State) : (s.retire).outq = s.outq := rfl
@[simp] theorem State.retire_outFail (s : State) : (s.retire).outFail = s.outFail := rfl
@[simp] theorem State.retire_script (s : State) : (s.retire).script = s.script := rfl
@[simp] theorem State.retire_taken (s : State) : (s.retire).taken = s.taken := rfl
@[simp] theorem State.retire_reads (s : State) : (s.retire).reads = s.reads := rfl

/-! ### `State.clearCodes` -/

@[simp] theorem State.clearCodes_fmt (s : State) : (s.clearCodes).fmt = s.fmt := rfl
@[simp] theorem State.clearCodes_err (s : State) : (s.clearCodes).err = s.err := rfl
@[simp] theorem State.clearCodes_fatal (s : State) : (s.clearCodes).fatal = s.fatal := rfl
@[simp] theorem State.clearCodes_ovr (s : State) : (s.clearCodes).ovr = s.ovr := rfl
@[simp] theorem State.clearCodes_codesValid (s : State) : (s.clearCodes).codesValid = s.codesValid := rfl
@[simp] theorem State.clearCodes_errcode (s : State) : (s.clearCodes).errcode = s.errcode := rfl
@[simp] theorem State.clearCodes_data (s : State) : (s.clearCodes).data = s.data := rfl
@[simp] theorem State.clearCodes_total (s : State) : (s.clearCodes).total = s.total := rfl
@[simp] theorem State.clearCodes_remain (s : State) : (s.clearCodes).remain = s.remain := rfl
@[simp] theorem State.clearCodes_nsym (s : State) : (s.clearCodes).nsym = 0 := rfl
@[simp] theorem State.clearCodes_maxlen (s : State) : (s.clearCodes).maxlen = 0 := rfl
@[simp] theorem State.clearCodes_wbits (s : State) : (s.clearCodes).wbits = s.wbits := rfl
@[simp] theorem State.clearCodes_wcnt (s : State) : (s.clearCodes).wcnt = s.wcnt := rfl
@[simp] theorem State.clearCodes_rbits (s : State) : (s.clearCodes).rbits = s.rbits := rfl
@[simp] theorem State.clearCodes_rcnt (s : State) : (s.clearCodes).rcnt = s.rcnt := rfl
@[simp] theorem State.clearCodes_incnt (s : State) : (s.clearCodes).incnt = s.incnt := rfl
@[simp] theorem State.clearCodes_outcnt (s : State) : (s.clearCodes).outcnt = s.outcnt := rfl
@[simp] theorem State.clearCodes_freq (s : State) : (s.clearCodes).freq = s.freq := rfl
@[simp] theorem State.clearCodes_len (s : State) : (s.clearCodes).len = s.len := rfl
@[simp] theorem State.clearCodes_entry (s : State) : (s.clearCodes).entry = [] := rfl
@[simp] theorem State.clearCodes_code (s : State) : (s.clearCodes).code = tfill 0 := rfl
@[simp] theorem State.clearCodes_pending (s : State) : (s.clearCodes).pending = s.pending := rfl
@[simp] theorem State.clearCodes_inq (s : State) : (s.clearCodes).inq = s.inq := rfl
@[simp] theorem State.clearCodes_inEnd (s : State) : (s.clearCodes).inEnd = s.inEnd := rfl
@[simp] theorem State.clearCodes_outq (s : State) : (s.clearCodes).outq = s.outq := rfl
@[simp] theorem State.clearCodes_outFail (s : State) : (s.clearCodes).outFail = s.outFail := rfl
@[simp] theorem State.clearCodes_script (s : State) : (s.clearCodes).script = s.script := rfl
@[simp] theorem State.clearCodes_taken (s : State) : (s.clearCodes).taken = s.taken := rfl
@[simp] theorem State.clearCodes_reads (s : State) : (s.clearCodes).reads = s.reads := rfl

/-! ### `State.emptyTable` -/

@[simp] theorem State.emptyTable_fmt (s : State) : (s.emptyTable).fmt = s.fmt := rfl
@[simp] theorem State.emptyTable_err (s : State) : (s.emptyTable).err = s.err := rfl
@[simp] theorem State.emptyTable_fatal (s : State) : (s.emptyTable).fatal = s.fatal := rfl
@[simp] theorem State.emptyTable_ovr (s : State) : (s.emptyTable).ovr = s.ovr := rfl
@[simp] theorem State.emptyTable_codesValid (s : State) : (s.emptyTable).codesValid = true := rfl
@[simp] theorem State.emptyTable_errcode (s : State) : (s.emptyTable).errcode = s.errcode := rfl
@[simp] theorem State.emptyTable_data (s : State) : (s.emptyTable).data = s.data := rfl
@[simp] theorem State.emptyTable_total (s : State) : (s.emptyTable).total = 0 := rfl
@[simp] theorem State.emptyTable_remain (s : State) : (s.emptyTable).remain = s.remain := rfl
@[simp] theorem State.emptyTable_nsym (s : State) : (s.emptyTable).nsym = 0 := rfl
@[simp] theorem State.emptyTable_maxlen (s : State) : (s.emptyTable).maxlen = 0 := rfl
@[simp] theorem State.emptyTable_wbits (s : State) : (s.emptyTable).wbits = s.wbits := rfl
@[simp] theorem State.emptyTable_wcnt (s : State) : (s.emptyTable).wcnt = s.wcnt := rfl
@[simp] theorem State.emptyTable_rbits (s : State) : (s.emptyTable).rbits = s.rbits := rfl
@[simp] theorem State.emptyTable_rcnt (s : State) : (s.emptyTable).rcnt = s.rcnt := rfl
@[simp] theorem State.emptyTable_incnt (s : State) : (s.emptyTable).incnt = s.incnt := rfl
@[simp] theorem State.emptyTable_outcnt (s : State) : (s.emptyTable).outcnt = s.outcnt := rfl
@[simp] theorem State.emptyTable_freq (s : State) : (s.emptyTable).freq = s.freq := rfl
@[simp] theorem State.emptyTable_len (s : State) : (s.emptyTable).len = tfill 0 := rfl
@[simp] theorem State.emptyTable_entry (s : State) : (s.emptyTable).entry = [] := rfl
@[simp] theorem State.emptyTable_code (s : State) : (s.emptyTable).code = tfill 0 := rfl
@[simp] theorem State.emptyTable_pending (s : State) : (s.emptyTable).pending = s.pending := rfl
@[simp] theorem State.emptyTable_inq (s : State) : (s.emptyTable).inq = s.inq := rfl
@[simp] theorem State.emptyTable_inEnd (s : State) : (s.emptyTable).inEnd = s.inEnd := rfl
@[simp] theorem State.emptyTable_outq (s : State) : (s.emptyTable).outq = s.outq := rfl
@[simp] theorem State.emptyTable_outFail (s : State) : (s.emptyTable).outFail = s.outFail := rfl
@[simp] theorem State.emptyTable_script (s : State) : (s.emptyTable).script = s.script := rfl
@[simp] theorem State.emptyTable_taken (s : State) : (s.emptyTable).taken = s.taken := rfl
@[simp] theorem State.emptyTable_reads (s : State) : (s.emptyTable).reads = s.reads := rfl

/-! ### `State.dropTable` -/

@[simp] theorem State.dropTable_fmt (s : State) : (s.dropTable).fmt = s.fmt := rfl
@[simp] theorem State.dropTable_err (s : State) : (s.dropTable).err = s.err := rfl
@[simp] theorem State.dropTable_fatal (s : State) : (s.dropTable).fatal = s.fatal := rfl
@[simp] theorem State.dropTable_ovr (s : State) : (s.dropTable).ovr = s.ovr := rfl
@[simp] theorem State.dropTable_codesValid (s : State) : (s.dropTable).codesValid = false := rfl
@[simp] theorem State.dropTable_errcode (s : State) : (s.dropTable).errcode = s.errcode := rfl
@[simp] theorem State.dropTable_data (s : State) : (s.dropTable).data = s.data := rfl
@[simp] theorem State.dropTable_total (s : State) : (s.dropTable).total = s.total := rfl
@[simp] theorem State.dropTable_remain (s : State) : (s.dropTable).remain = s.remain := rfl
@[simp] theorem State.dropTable_nsym (s : State) : (s.dropTable).nsym = 0 := rfl
@[simp] theorem State.dropTable_maxlen (s : State) : (s.dropTable).maxlen = 0 := rfl
@[simp] theorem State.dropTable_wbits (s : State) : (s.dropTable).wbits = s.wbits := rfl
@[simp] theorem State.dropTable_wcnt (s : State) : (s.dropTable).wcnt = s.wcnt := rfl
@[simp] theorem State.dropTable_rbits (s : State) : (s.dropTable).rbits = s.rbits := rfl
@[simp] theorem State.dropTable_rcnt (s : State) : (s.dropTable).rcnt = s.rcnt := rfl
@[simp] theorem State.dropTable_incnt (s : State) : (s.dropTable).incnt = s.incnt := rfl
@[simp] theorem State.dropTable_outcnt (s : State) : (s.dropTable).outcnt = s.outcnt := rfl
@[simp] theorem State.dropTable_freq (s : State) : (s.dropTable).freq = s.freq := rfl
@[simp] theorem State.dropTable_len (s : State) : (s.dropTable).len = tfill 0 := rfl
@[simp] theorem State.dropTable_entry (s : State) : (s.dropTable).entry = [] := rfl
@[simp] theorem State.dropTable_code (s : State) : (s.dropTable).code = tfill 0 := rfl
@[simp] theorem State.dropTable_pending (s : State) : (s.dropTable).pending = s.pending := rfl
@[simp] theorem State.dropTable_inq (s : State) : (s.dropTable).inq = s.inq := rfl
@[simp] theorem State.dropTable_inEnd (s : State) : (s.dropTable).inEnd = s.inEnd := rfl
@[simp] theorem State.dropTable_outq (s : State) : (s.dropTable).outq = s.outq := rfl
@[simp] theorem State.dropTable_outFail (s : State) : (s.dropTable).outFail = s.outFail := rfl
@[simp] theorem State.dropTable_script (s : State) : (s.dropTable).script = s.script := rfl
@[simp] theorem State.dropTable_taken (s : State) : (s.dropTable).taken = s.taken := rfl
@[simp] theorem State.dropTable_reads (s : State) : (s.dropTable).reads = s.reads := rfl

/-! ### `State.withPending` -/

@[simp] theorem State.withPending_fmt (s : State) (w : Word) : (s.withPending w).fmt = s.fmt := rfl
@[simp] theorem State.withPending_err (s : State) (w : Word) : (s.withPending w).err = s.err := rfl
@[simp] theorem State.withPending_fatal (s : State) (w : Word) : (s.withPending w).fatal = s.fatal := rfl
@[simp] theorem State.withPending_ovr (s : State) (w : Word) : (s.withPending w).ovr = s.ovr := rfl
@[simp] theorem State.withPending_codesValid (s : State) (w : Word) : (s.withPending w).codesValid = s.codesValid := rfl
@[simp] theorem State.withPending_errcode (s : State) (w : Word) : (s.withPending w).errcode = s.errcode := rfl
@[simp] theorem State.withPending_data (s : State) (w : Word) : (s.withPending w).data = s.data := rfl
@[simp] theorem State.withPending_total (s : State) (w : Word) : (s.withPending w).total = s.total := rfl
@[simp] theorem State.withPending_remain (s : State) (w : Word) : (s.withPending w).remain = s.remain := rfl
@[simp] theorem State.withPending_nsym (s : State) (w : Word) : (s.withPending w).nsym = s.nsym := rfl
@[simp] theorem State.withPending_maxlen (s : State) (w : Word) : (s.withPending w).maxlen = s.maxlen := rfl
@[simp] theorem State.withPending_wbits (s : State) (w : Word) : (s.withPending w).wbits = s.wbits := rfl
@[simp] theorem State.withPending_wcnt (s : State) (w : Word) : (s.withPending w).wcnt = s.wcnt := rfl
@[simp] theorem State.withPending_rbits (s : State) (w : Word) : (s.withPending w).rbits = s.rbits := rfl
@[simp] theorem State.withPending_rcnt (s : State) (w : Word) : (s.withPending w).rcnt = s.rcnt := rfl
@[simp] theorem State.withPending_incnt (s : State) (w : Word) : (s.withPending w).incnt = s.incnt := rfl
@[simp] theorem State.withPending_outcnt (s : State) (w : Word) : (s.withPending w).outcnt = s.outcnt := rfl
@[simp] theorem State.withPending_freq (s : State) (w : Word) : (s.withPending w).freq = s.freq := rfl
@[simp] theorem State.withPending_len (s : State) (w : Word) : (s.withPending w).len = s.len := rfl
@[simp] theorem State.withPending_entry (s : State) (w : Word) : (s.withPending w).entry = s.entry := rfl
@[simp] theorem State.withPending_code (s : State) (w : Word) : (s.withPending w).code = s.code := rfl
@[simp] theorem State.withPending_pending (s : State) (w : Word) : (s.withPending w).pending = some w := rfl
@[simp] theorem State.withPending_inq (s : State) (w : Word) : (s.withPending w).inq = s.inq := rfl
@[simp] theorem State.withPending_inEnd (s : State) (w : Word) : (s.withPending w).inEnd = s.inEnd := rfl
@[simp] theorem State.withPending_outq (s : State) (w : Word) : (s.withPending w).outq = s.outq := rfl
@[simp] theorem State.withPending_outFail (s : State) (w : Word) : (s.withPending w).outFail = s.outFail := rfl
@[simp] theorem State.withPending_script (s : State) (w : Word) : (s.withPending w).script = [] := rfl
@[simp] theorem State.withPending_taken (s : State) (w : Word) : (s.withPending w).taken = s.taken := rfl
@[simp] theorem State.withPending_reads (s : State) (w : Word) : (s.withPending w).reads = s.reads := rfl

/-! ### `State.resetBlock` -/

@[simp] theorem State.resetBlock_fmt (s : State) : (s.resetBlock).fmt = true := rfl
@[simp] theorem State.resetBlock_err (s : State) : (s.resetBlock).err = false := rfl
@[simp] theorem State.resetBlock_fatal (s : State) : (s.resetBlock).fatal = false := rfl
@[simp] theorem State.resetBlock_ovr (s : State) : (s.resetBlock).ovr = false := rfl
@[simp] theorem State.resetBlock_codesValid (s : State) : (s.resetBlock).codesValid = false := rfl
@[simp] theorem State.resetBlock_errcode (s : State) : (s.resetBlock).errcode = 0 := rfl
@[simp] theorem State.resetBlock_data (s : State) : (s.resetBlock).data = 0 := rfl
@[simp] theorem State.resetBlock_total (s : State) : (s.resetBlock).total = 0 := rfl
@[simp] theorem State.resetBlock_remain (s : State) : (s.resetBlock).remain = 0 := rfl
@[simp] theorem State.resetBlock_nsym (s : State) : (s.resetBlock).nsym = 0 := rfl
@[simp] theorem State.resetBlock_maxlen (s : State) : (s.resetBlock).maxlen = 0 := rfl
@[simp] theorem State.resetBlock_wbits (s : State) : (s.resetBlock).wbits = 0 := rfl
@[simp] theorem State.resetBlock_wcnt (s : State) : (s.resetBlock).wcnt = 0 := rfl
@[simp] theorem State.resetBlock_rbits (s : State) : (s.resetBlock).rbits = 0 := rfl
@[simp] theorem State.resetBlock_rcnt (s : State) : (s.resetBlock).rcnt = 0 := rfl
@[simp] theorem State.resetBlock_incnt (s : State) : (s.resetBlock).incnt = 0 := rfl
@[simp] theorem State.resetBlock_outcnt (s : State) : (s.resetBlock).outcnt = 0 := rfl
@[simp] theorem State.resetBlock_freq (s : State) : (s.resetBlock).freq = tfill 0 := rfl
@[simp] theorem State.resetBlock_len (s : State) : (s.resetBlock).len = tfill 0 := rfl
@[simp] theorem State.resetBlock_entry (s : State) : (s.resetBlock).entry = [] := rfl
@[simp] theorem State.resetBlock_code (s : State) : (s.resetBlock).code = tfill 0 := rfl
@[simp] theorem State.resetBlock_pending (s : State) : (s.resetBlock).pending = none := rfl
@[simp] theorem State.resetBlock_inq (s : State) : (s.resetBlock).inq = s.inq := rfl
@[simp] theorem State.resetBlock_inEnd (s : State) : (s.resetBlock).inEnd = s.inEnd := rfl
@[simp] theorem State.resetBlock_outq (s : State) : (s.resetBlock).outq = s.outq := rfl
@[simp] theorem State.resetBlock_outFail (s : State) : (s.resetBlock).outFail = s.outFail := rfl
@[simp] theorem State.resetBlock_script (s : State) : (s.resetBlock).script = s.script := rfl
@[simp] theorem State.resetBlock_taken (s : State) : (s.resetBlock).taken = s.taken := rfl
@[simp] theorem State.resetBlock_reads (s : State) : (s.resetBlock).reads = s.reads := rfl

/-! ### `State.reset` -/

@[simp] theorem State.reset_fmt : State.reset.fmt = true := rfl
@[simp] theorem State.reset_err : State.reset.err = false := rfl
@[simp] theorem State.reset_fatal : State.reset.fatal = false := rfl
@[simp] theorem State.reset_ovr : State.reset.ovr = false := rfl
@[simp] theorem State.reset_codesValid : State.reset.codesValid = false := rfl
@[simp] theorem State.reset_errcode : State.reset.errcode = 0 := rfl
@[simp] theorem State.reset_data : State.reset.data = 0 := rfl
@[simp] theorem State.reset_total : State.reset.total = 0 := rfl
@[simp] theorem State.reset_remain : State.reset.remain = 0 := rfl
@[simp] theorem State.reset_nsym : State.reset.nsym = 0 := rfl
@[simp] theorem State.reset_maxlen : State.reset.maxlen = 0 := rfl
@[simp] theorem State.reset_wbits : State.reset.wbits = 0 := rfl
@[simp] theorem State.reset_wcnt : State.reset.wcnt = 0 := rfl
@[simp] theorem State.reset_rbits : State.reset.rbits = 0 := rfl
@[simp] theorem State.reset_rcnt : State.reset.rcnt = 0 := rfl
@[simp] theorem State.reset_incnt : State.reset.incnt = 0 := rfl
@[simp] theorem State.reset_outcnt : State.reset.outcnt = 0 := rfl
@[simp] theorem State.reset_freq : State.reset.freq = tfill 0 := rfl
@[simp] theorem State.reset_len : State.reset.len = tfill 0 := rfl
@[simp] theorem State.reset_entry : State.reset.entry = [] := rfl
@[simp] theorem State.reset_code : State.reset.code = tfill 0 := rfl
@[simp] theorem State.reset_pending : State.reset.pending = none := rfl
@[simp] theorem State.reset_inq : State.reset.inq = [] := rfl
@[simp] theorem State.reset_inEnd : State.reset.inEnd = .opened := rfl
@[simp] theorem State.reset_outq : State.reset.outq = [] := rfl
@[simp] theorem State.reset_outFail : State.reset.outFail = false := rfl
@[simp] theorem State.reset_script : State.reset.script = [] := rfl
@[simp] theorem State.reset_taken : State.reset.taken = [] := rfl
@[simp] theorem State.reset_reads : State.reset.reads = [] := rfl

end Sys2Proof.Machine
end

