-- ==== Sys2Proof/Laws/Ops.lean ====
section
/-! SUPPORT. What the shared operations can do: sequencing, the end of a core step, register files, the stream
primitives. -/

namespace Sys2Proof.Machine

variable {α β : Type}

/-! ### Sequencing -/

@[simp] theorem Res.bind_ok (a : α) (s : State) (f : α → State → Res β) : (Res.ok a s).bind f = f a s := rfl

@[simp] theorem Res.bind_raise (e : Err) (s : State) (f : α → State → Res β) :
    (Res.raise e s).bind f = .raise e s := rfl

@[simp] theorem Res.bind_hold (f : α → State → Res β) : (Res.hold : Res α).bind f = .hold := rfl

@[simp] theorem Res.onRaise_ok (a : α) (s : State) (f : State → State) : (Res.ok a s).onRaise f = .ok a s := rfl

@[simp] theorem Res.onRaise_raise (e : Err) (s : State) (f : State → State) :
    (Res.raise e s : Res α).onRaise f = .raise e (f s) := rfl

@[simp] theorem Res.onRaise_hold (f : State → State) : (Res.hold : Res α).onRaise f = .hold := rfl

theorem Res.bind_eq_ok {r : Res α} {f : α → State → Res β} {b : β} {t : State} :
    r.bind f = .ok b t ↔ ∃ a s, r = .ok a s ∧ f a s = .ok b t := by
  cases r <;> simp

theorem Res.bind_eq_raise {r : Res α} {f : α → State → Res β} {e : Err} {t : State} :
    r.bind f = .raise e t ↔ r = .raise e t ∨ ∃ a s, r = .ok a s ∧ f a s = .raise e t := by
  cases r <;> simp

theorem Res.bind_eq_hold {r : Res α} {f : α → State → Res β} :
    r.bind f = .hold ↔ r = .hold ∨ ∃ a s, r = .ok a s ∧ f a s = .hold := by
  cases r <;> simp

/-- What a piece of pseudocode does, in one predicate: a property of the state it ends in, the errors it can raise, and
when it can reach HOLD. -/
def Res.Sat (P : State → Prop) (es : List Err) (held : Prop) : Res α → Prop
  | .ok _ s => P s
  | .raise e s => e ∈ es ∧ P s
  | .hold => held

theorem Res.Sat.bind {r : Res α} {f : α → State → Res β} {P Q : State → Prop} {es es' : List Err} {h h' : Prop}
    (hr : r.Sat P es h) (hP : ∀ t, P t → Q t) (he : ∀ e ∈ es, e ∈ es') (hh : h → h')
    (hf : ∀ a t, P t → (f a t).Sat Q es' h') : (r.bind f).Sat Q es' h' := by
  cases r with
  | ok a s => exact hf a s hr
  | raise e s => exact ⟨he e hr.1, hP s hr.2⟩
  | hold => exact hh hr

theorem Res.Sat.mono {r : Res α} {P Q : State → Prop} {es es' : List Err} {h h' : Prop}
    (hr : r.Sat P es h) (hP : ∀ t, P t → Q t) (he : ∀ e ∈ es, e ∈ es') (hh : h → h') : r.Sat Q es' h' := by
  cases r with
  | ok a s => exact hP s hr
  | raise e s => exact ⟨he e hr.1, hP s hr.2⟩
  | hold => exact hh hr

/-- Sequencing under a transitive relation to the start: the usual shape of a frame. -/
theorem Res.Sat.seq {R : State → State → Prop} (trans : ∀ a b c, R a b → R b c → R a c) {s : State} {r : Res α}
    {f : α → State → Res β} {es : List Err} {h : Prop} (hr : r.Sat (R s) es h)
    (hf : ∀ a t, R s t → (f a t).Sat (R t) es h) : (r.bind f).Sat (R s) es h :=
  hr.bind (fun _ ht => ht) (fun _ he => he) id fun a t ht =>
    (hf a t ht).mono (fun u hu => trans s t u ht hu) (fun _ he => he) id

/-- As `Res.Sat`, with a property of its own for each way to end. -/
def Res.Spec (P : α → State → Prop) (Q : Err → State → Prop) (held : Prop) : Res α → Prop
  | .ok a s => P a s
  | .raise e s => Q e s
  | .hold => held

theorem Res.Spec.bind {r : Res α} {f : α → State → Res β} {P : α → State → Prop} {P' : β → State → Prop}
    {Q : Err → State → Prop} {h : Prop} (hr : r.Spec P Q h) (hf : ∀ a t, P a t → (f a t).Spec P' Q h) :
    (r.bind f).Spec P' Q h := by
  cases r with
  | ok a s => exact hf a s hr
  | raise e s => exact hr
  | hold => exact hr

theorem Res.Sat.spec {r : Res α} {P : State → Prop} {es : List Err} {h h' : Prop} {P' : α → State → Prop}
    {Q : Err → State → Prop} (hr : r.Sat P es h) (hP : ∀ a t, P t → P' a t) (hQ : ∀ e t, e ∈ es → P t → Q e t)
    (hh : h → h') : r.Spec P' Q h' := by
  cases r with
  | ok a s => exact hP a s hr
  | raise e s => exact hQ e s hr.1 hr.2
  | hold => exact hh hr

/-! ### The end of a core step -/

theorem finish_ok (op : Op) (s t : State) : finish op s (.ok () t) = .next t.retire := rfl

theorem finish_raise (op : Op) (s t : State) (e : Err) :
    finish op s (.raise e t) = .next (t.takeError op.code e).retire := rfl

theorem finish_hold (op : Op) (s : State) : finish op s .hold = .next s := rfl

/-- A core step ends in one of three ways (spec R101). -/
theorem finish_cases {op : Op} {s t : State} {r : Res Unit} (h : finish op s r = .next t) :
    (∃ u, r = .ok () u ∧ t = u.retire) ∨ (∃ e u, r = .raise e u ∧ t = (u.takeError op.code e).retire) ∨
      (r = .hold ∧ t = s) := by
  cases r with
  | ok a u => exact .inl ⟨u, rfl, by simpa [finish] using h.symm⟩
  | raise e u => exact .inr (.inl ⟨e, u, rfl, by simpa [finish] using h.symm⟩)
  | hold => exact .inr (.inr ⟨rfl, by simpa [finish] using h.symm⟩)

/-- A core step always answers a next state: nothing faults and nothing is refused. -/
theorem finish_answers (op : Op) (s : State) (r : Res Unit) : ∃ t, finish op s r = .next t := by
  cases r <;> simp [finish]

/-! ### Register files -/

theorem byte_ext {a b : Byte} (h : a.toNat = b.toNat) : a = b := BitVec.eq_of_toNat_eq h

@[simp] theorem tget_tset_self (t : Table α) (s : Byte) (x : α) : tget (tset t s x) s = x := by
  simp [tget, tset]

theorem tget_tset_ne (t : Table α) {s r : Byte} (x : α) (h : r ≠ s) : tget (tset t s x) r = tget t r := by
  have : s.toNat ≠ r.toNat := fun hn => h (byte_ext hn.symm)
  simp [tget, tset, this]

theorem tget_tset (t : Table α) (s r : Byte) (x : α) : tget (tset t s x) r = if r = s then x else tget t r := by
  split
  · subst r; simp
  · exact tget_tset_ne t x ‹_›

@[simp] theorem tget_tfill (x : α) (s : Byte) : tget (tfill x) s = x := by simp [tget, tfill]

theorem table_ext {t u : Table α} (h : ∀ x, tget t x = tget u x) : t = u := by
  apply Vector.ext
  intro i hi
  have := h (BitVec.ofNat 8 i)
  simpa [tget, Nat.mod_eq_of_lt hi] using this

@[simp] theorem mem_allBytes (x : Byte) : x ∈ allBytes := by
  refine List.mem_map.2 ⟨x.toNat, List.mem_range.2 x.isLt, ?_⟩
  simp

theorem allBytes_nodup : allBytes.Nodup := by decide +kernel

theorem allBytes_sorted : allBytes.Pairwise fun a b => a.toNat < b.toNat := by decide +kernel

theorem length_allBytes : allBytes.length = 256 := by decide +kernel

/-- The entries of a register file are its symbols with their entries (spec R11). -/
theorem tpairs_eq (t : Table α) : tpairs t = allBytes.map fun x => (x, tget t x) := by
  apply List.ext_getElem
  · simp [tpairs, length_allBytes]
  · intro i h1 h2
    have hi : i < 256 := by simpa [length_allBytes] using h2
    simp [tpairs, allBytes, tget, Nat.mod_eq_of_lt hi]

theorem toList_eq_map (t : Table α) : t.toList = allBytes.map (tget t) := by
  apply List.ext_getElem
  · simp [length_allBytes]
  · intro i h1 h2
    have hi : i < 256 := by simpa [length_allBytes] using h2
    simp [allBytes, tget, Nat.mod_eq_of_lt hi]

/-! ### The stream primitives -/

theorem fetchByteOrEnd_cons {s : State} {b : Byte} {rest : List Byte} (h : s.inq = b :: rest) :
    fetchByteOrEnd s = .ok (some b) { s with inq := rest, incnt := s.incnt + 1 } := by
  simp [fetchByteOrEnd, h]

theorem fetchByteOrEnd_nil {s : State} (h : s.inq = []) :
    fetchByteOrEnd s =
      match s.inEnd with
      | .opened => .hold
      | .fail => .raise .ioRead s
      | .eos => .ok none s := by
  cases he : s.inEnd <;> simp [fetchByteOrEnd, h, he]

theorem fetchByte_cons {s : State} {b : Byte} {rest : List Byte} (e : Err) (h : s.inq = b :: rest) :
    fetchByte e s = .ok b { s with inq := rest, incnt := s.incnt + 1 } := by
  simp [fetchByte, fetchByteOrEnd_cons h]

theorem fetchByte_nil {s : State} (e : Err) (h : s.inq = []) :
    fetchByte e s =
      match s.inEnd with
      | .opened => .hold
      | .fail => .raise .ioRead s
      | .eos => .raise e s := by
  cases hi : s.inEnd <;> simp [fetchByte, fetchByteOrEnd_nil h, hi]

theorem emit_ok {s : State} (b : Byte) (h : s.outFail = false) :
    emit b s = .ok () { s with outq := s.outq ++ [b], outcnt := s.outcnt + 1 } := by simp [emit, h]

theorem emit_fail {s : State} (b : Byte) (h : s.outFail = true) : emit b s = .raise .ioWrite s := by simp [emit, h]

theorem ReadsOnly.refl (s : State) : ReadsOnly s s := ⟨rfl, [], by simp⟩

theorem ReadsOnly.trans (s t u : State) (h : ReadsOnly s t) (h' : ReadsOnly t u) : ReadsOnly s u := by
  obtain ⟨h1, p, hp, hc⟩ := h
  obtain ⟨h1', q, hq, hc'⟩ := h'
  refine ⟨?_, p ++ q, ?_, ?_⟩
  · rw [h1', h1]
  · rw [hp, hq, List.append_assoc]
  · rw [hc', hc, List.length_append, BitVec.ofNat_add, BitVec.add_assoc]

theorem WritesOnly.refl (s : State) : WritesOnly s s := ⟨rfl, [], by simp⟩

theorem WritesOnly.trans (s t u : State) (h : WritesOnly s t) (h' : WritesOnly t u) : WritesOnly s u := by
  obtain ⟨h1, p, hp, hc⟩ := h
  obtain ⟨h1', q, hq, hc'⟩ := h'
  refine ⟨?_, p ++ q, ?_, ?_⟩
  · rw [h1', h1]
  · rw [hq, hp, List.append_assoc]
  · rw [hc', hc, List.length_append, BitVec.ofNat_add, BitVec.add_assoc]

theorem EmitsOnly.writesOnly {s t : State} (h : EmitsOnly s t) : WritesOnly s t := by
  obtain ⟨h1, p, hp, hc⟩ := h
  refine ⟨?_, p, hp, hc⟩
  rw [h1]

theorem EmitsOnly.refl (s : State) : EmitsOnly s s := ⟨rfl, [], by simp⟩

theorem EmitsOnly.trans (s t u : State) (h : EmitsOnly s t) (h' : EmitsOnly t u) : EmitsOnly s u := by
  obtain ⟨h1, p, hp, hc⟩ := h
  obtain ⟨h1', q, hq, hc'⟩ := h'
  refine ⟨?_, p ++ q, ?_, ?_⟩
  · rw [h1', h1]
  · rw [hq, hp, List.append_assoc]
  · rw [hc', hc, List.length_append, BitVec.ofNat_add, BitVec.add_assoc]

theorem ReadsOnly.inEnd {s t : State} (h : ReadsOnly s t) : t.inEnd = s.inEnd := by rw [h.1]

/-- Everything FetchByteOrEnd can do (spec R94). -/
theorem fetchByteOrEnd_sat (s : State) :
    (fetchByteOrEnd s).Sat (ReadsOnly s) [.ioRead] (s.inEnd = .opened) := by
  cases hq : s.inq with
  | nil => cases hi : s.inEnd <;> simp [fetchByteOrEnd_nil hq, hi, Res.Sat, ReadsOnly.refl]
  | cons b rest =>
    rw [fetchByteOrEnd_cons hq]
    exact ⟨rfl, [b], by simp [hq]⟩

/-- Everything FetchByte can do (spec R93). -/
theorem fetchByte_sat (e : Err) (s : State) :
    (fetchByte e s).Sat (ReadsOnly s) [.ioRead, e] (s.inEnd = .opened) := by
  refine (fetchByteOrEnd_sat s).bind (fun _ h => h) (by simp) id fun a t ht => ?_
  cases a with
  | none => exact ⟨by simp, ht⟩
  | some b => exact ht

/-- Everything Emit can do (spec R95). -/
theorem emit_sat (b : Byte) (s : State) : (emit b s).Sat (EmitsOnly s) [.ioWrite] False := by
  cases h : s.outFail with
  | true => rw [emit_fail b h]; exact ⟨by simp, .refl s⟩
  | false => rw [emit_ok b h]; exact ⟨rfl, [b], by simp⟩

theorem emitAll_sat (bs : List Byte) (s : State) : (emitAll bs s).Sat (EmitsOnly s) [.ioWrite] False := by
  induction bs generalizing s with
  | nil => exact EmitsOnly.refl s
  | cons b bs ih => exact Res.Sat.seq EmitsOnly.trans (emit_sat b s) fun _ t _ => ih t

theorem emitAll_ok {s : State} (bs : List Byte) (h : s.outFail = false) :
    emitAll bs s = .ok () { s with outq := s.outq ++ bs, outcnt := s.outcnt + BitVec.ofNat 64 bs.length } := by
  induction bs generalizing s with
  | nil => simp [emitAll]
  | cons b bs ih =>
    rw [emitAll, emit_ok b h, Res.bind_ok, ih (by exact h)]
    simp only [List.append_assoc, List.singleton_append, List.length_cons, BitVec.ofNat_add]
    congr 2
    ac_rfl

end Sys2Proof.Machine
end

