-- ==== Sys2Proof/Laws/Bits.lean ====
section
/-! SUPPORT. What the bit writer and the bit reader do, in terms of the bits of the streams (spec R200 to R207). -/

namespace Sys2Proof.Machine

/-! ### Bits of numbers -/

@[simp] theorem natBits_zero (v : Nat) : natBits v 0 = [] := rfl

theorem natBits_succ (v n : Nat) : natBits v (n + 1) = v.testBit n :: natBits v n := rfl

@[simp] theorem length_natBits (v n : Nat) : (natBits v n).length = n := by
  induction n with
  | zero => rfl
  | succ n ih => simp [natBits_succ, ih]

@[simp] theorem length_byteBits (b : Byte) : (byteBits b).length = 8 := by simp [byteBits]

theorem natBits_congr {v w n : Nat} (h : ∀ i < n, v.testBit i = w.testBit i) : natBits v n = natBits w n := by
  induction n with
  | zero => rfl
  | succ n ih => rw [natBits_succ, natBits_succ, h n (by omega), ih fun i hi => h i (by omega)]

theorem natBits_mod {v n m : Nat} (h : n ≤ m) : natBits (v % 2 ^ m) n = natBits v n :=
  natBits_congr fun i hi => by simp [Nat.testBit_mod_two_pow, show i < m by omega]

theorem natBits_snoc (v n : Nat) (b : Bool) : natBits (2 * v + b.toNat) (n + 1) = natBits v n ++ [b] := by
  induction n with
  | zero => cases b <;> simp [natBits_succ]
  | succ n ih =>
    rw [natBits_succ, ih, natBits_succ, List.cons_append, Nat.testBit_succ]
    congr 2
    have : (2 * v + b.toNat) / 2 = v := by cases b <;> simp; omega
    rw [this]

theorem natBits_shiftLeft (v n k : Nat) : natBits (v <<< k) (n + k) = natBits v n ++ List.replicate k false := by
  induction k with
  | zero => simp
  | succ k ih =>
    have : v <<< (k + 1) = 2 * (v <<< k) + false.toNat := by simp [Nat.shiftLeft_succ]
    rw [this, ← Nat.add_assoc, natBits_snoc, ih, List.append_assoc, List.replicate_succ' (n := k)]

theorem natBits_drop (v n k : Nat) : natBits v (n + k) = natBits (v >>> k) n ++ natBits v k := by
  induction n with
  | zero => simp
  | succ n ih =>
    rw [show n + 1 + k = (n + k) + 1 by omega, natBits_succ, ih, natBits_succ, List.cons_append, Nat.testBit_shiftRight,
      Nat.add_comm k n]

theorem natBits_inj {v w n : Nat} (hv : v < 2 ^ n) (hw : w < 2 ^ n) (h : natBits v n = natBits w n) : v = w := by
  have key : ∀ (n : Nat), natBits v n = natBits w n → ∀ i < n, v.testBit i = w.testBit i := by
    intro n
    induction n with
    | zero => intro _ i hi; omega
    | succ n ih =>
      intro h i hi
      rw [natBits_succ, natBits_succ, List.cons.injEq] at h
      rcases Nat.lt_succ_iff_lt_or_eq.1 hi with hlt | rfl
      · exact ih h.2 i hlt
      · exact h.1
  refine Nat.eq_of_testBit_eq fun i => ?_
  rcases Nat.lt_or_ge i n with hi | hi
  · exact key n h i hi
  · rw [Nat.testBit_lt_two_pow (Nat.lt_of_lt_of_le hv (Nat.pow_le_pow_right (by omega) hi)),
      Nat.testBit_lt_two_pow (Nat.lt_of_lt_of_le hw (Nat.pow_le_pow_right (by omega) hi))]

theorem bitsValue_snoc (bs : List Bool) (b : Bool) : bitsValue (bs ++ [b]) = 2 * bitsValue bs + b.toNat := by
  simp [bitsValue]

theorem bitsValue_natBits {v n : Nat} (h : v < 2 ^ n) : bitsValue (natBits v n) = v := by
  induction n generalizing v with
  | zero => simp [bitsValue] at *; omega
  | succ n ih =>
    have hv : v = 2 * (v / 2) + (v.testBit 0).toNat := by
      cases hb : v.testBit 0 <;> simp [Nat.testBit_zero] at hb ⊢ <;> omega
    rw [hv, natBits_snoc, bitsValue_snoc, ih (by rw [Nat.pow_succ] at h; omega)]

@[simp] theorem bytesBits_nil : bytesBits [] = [] := rfl

@[simp] theorem bytesBits_cons (b : Byte) (bs : List Byte) : bytesBits (b :: bs) = byteBits b ++ bytesBits bs := rfl

@[simp] theorem bytesBits_append (as bs : List Byte) : bytesBits (as ++ bs) = bytesBits as ++ bytesBits bs := by
  simp [bytesBits]

@[simp] theorem length_bytesBits (bs : List Byte) : (bytesBits bs).length = 8 * bs.length := by
  induction bs with
  | nil => rfl
  | cons b bs ih => simp [ih]; omega

/-! ### The writer -/

/-- Everything PutBit can do (spec R200). -/
theorem putBit_sat (b : Bool) (s : State) : (putBit b s).Sat (WritesOnly s) [.ioWrite] False := by
  unfold putBit
  split
  · refine (emit_sat _ _).mono (fun t ht => ?_) (fun _ h => h) id
    exact WritesOnly.trans s _ t ⟨rfl, [], by simp⟩ ht.writesOnly
  · exact ⟨rfl, [], by simp⟩

theorem toNat_shift_or (w : Byte) (b : Bool) :
    ((w <<< 1) ||| BitVec.ofNat 8 b.toNat : Byte).toNat = (2 * w.toNat + b.toNat) % 2 ^ 8 := by
  revert w b; decide +kernel

/-- PutBit appends its bit, where the sink works (spec R200). -/
theorem putBit_ok {s : State} (b : Bool) (h : s.outFail = false) :
    ∃ t, putBit b s = .ok () t ∧ WritesOnly s t ∧ t.outBits = s.outBits ++ [b] := by
  have hw := putBit_sat b s
  by_cases hc : s.wcnt.val + 1 = 8
  · have e : putBit b s = .ok () { s with
        wbits := 0, wcnt := 0, outq := s.outq ++ [(s.wbits <<< 1) ||| BitVec.ofNat 8 b.toNat],
        outcnt := s.outcnt + 1 } := by
      simp only [putBit, hc, if_true]
      rw [emit_ok _ (by exact h)]
    rw [e] at hw ⊢
    refine ⟨_, rfl, hw, ?_⟩
    have h7 : s.wcnt.val = 7 := by omega
    simp only [State.outBits, bytesBits_append, bytesBits_cons, bytesBits_nil, List.append_nil, List.append_assoc]
    congr 1
    rw [byteBits, toNat_shift_or, natBits_mod (Nat.le_refl 8), natBits_snoc, h7]
    simp
  · have e : putBit b s = .ok () { s with
        wbits := (s.wbits <<< 1) ||| BitVec.ofNat 8 b.toNat, wcnt := s.wcnt + 1 } := by simp [putBit, hc]
    rw [e] at hw ⊢
    refine ⟨_, rfl, hw, ?_⟩
    have hlt := s.wcnt.isLt
    have hv : (s.wcnt + 1).val = s.wcnt.val + 1 := by
      rw [Fin.val_add]; simp; omega
    simp only [State.outBits, hv, List.append_assoc]
    congr 1
    rw [toNat_shift_or, natBits_mod (by omega), natBits_snoc]

/-- Everything PutCode can do (spec R201). -/
theorem putCode_sat (v n : Nat) (s : State) : (putCode v n s).Sat (WritesOnly s) [.ioWrite] False := by
  induction n generalizing s with
  | zero => exact WritesOnly.refl s
  | succ n ih => exact Res.Sat.seq WritesOnly.trans (putBit_sat _ s) fun _ t _ => ih t

/-- PutCode appends the low bits of its value, most significant first, where the sink works (spec R201). -/
theorem putCode_ok {s : State} (v n : Nat) (h : s.outFail = false) :
    ∃ t, putCode v n s = .ok () t ∧ WritesOnly s t ∧ t.outBits = s.outBits ++ natBits v n := by
  induction n generalizing s with
  | zero => exact ⟨s, rfl, .refl s, by simp⟩
  | succ n ih =>
    obtain ⟨t, e, hw, hb⟩ := putBit_ok (v.testBit n) h
    obtain ⟨u, e', hw', hb'⟩ := ih (s := t) (by rw [hw.1]; exact h)
    refine ⟨u, by rw [putCode, e, Res.bind_ok, e'], WritesOnly.trans s t u hw hw', ?_⟩
    rw [hb', hb, natBits_succ, List.append_assoc, List.singleton_append]

/-- Everything Flush can do (spec R205). -/
theorem flush_sat (s : State) : (flush s).Sat (WritesOnly s) [.ioWrite] False := by
  unfold flush
  split
  · exact WritesOnly.refl s
  · refine (emit_sat _ _).mono (fun t ht => ?_) (fun _ h => h) id
    exact WritesOnly.trans s _ t ⟨rfl, [], by simp⟩ ht.writesOnly

theorem natBits_byte_shiftLeft (w : Byte) (n k : Nat) (h : n + k = 8) :
    byteBits (w <<< k) = natBits w.toNat n ++ List.replicate k false := by
  rw [byteBits, BitVec.toNat_shiftLeft, natBits_mod (Nat.le_refl 8), ← natBits_shiftLeft, h]

/-- Flush completes the last byte with zero bits and leaves the accumulator empty, where the sink works (spec R205). -/
theorem flush_ok {s : State} (h : s.outFail = false) :
    ∃ t, flush s = .ok () t ∧ WritesOnly s t ∧ t.wcnt = 0 ∧ (s.wcnt ≠ 0 → t.wbits = 0) ∧ (s.wcnt = 0 → t = s) ∧
      t.outBits = s.outBits ++ List.replicate ((8 - s.wcnt.val) % 8) false := by
  have hw := flush_sat s
  by_cases hc : s.wcnt.val = 0
  · have h0 : s.wcnt = 0 := Fin.ext hc
    refine ⟨s, by simp [flush, hc], .refl s, h0, fun hn => absurd h0 hn, fun _ => rfl, by simp [hc]⟩
  · have e : flush s = .ok () { s with
        wbits := 0, wcnt := 0, outq := s.outq ++ [s.wbits <<< (8 - s.wcnt.val)], outcnt := s.outcnt + 1 } := by
      simp only [flush, hc, if_false]
      rw [emit_ok _ (by exact h)]
    rw [e] at hw ⊢
    refine ⟨_, rfl, hw, rfl, fun _ => rfl, fun h0 => absurd (congrArg Fin.val h0) hc, ?_⟩
    have := s.wcnt.isLt
    simp only [State.outBits, bytesBits_append, bytesBits_cons, bytesBits_nil, List.append_nil, List.append_assoc]
    congr 1
    rw [natBits_byte_shiftLeft s.wbits s.wcnt.val (8 - s.wcnt.val) (by omega), Nat.mod_eq_of_lt (by omega)]
    simp

/-! ### The reader -/

theorem takeBit_eq (bits : Byte) (cnt : Nat) (s : State) :
    takeBit bits cnt s = .ok (bits.getLsbD (cnt - 1))
      { s with rcnt := Fin.ofNat 8 (cnt - 1), rbits := BitVec.ofNat 8 (bits.toNat % 2 ^ (cnt - 1)) } := rfl

/-- Everything GetBit can do (spec R202). -/
theorem getBit_sat (e : Err) (s : State) :
    (getBit e s).Sat (ReadsOnly s) [.ioRead, e] (s.inEnd = .opened) := by
  unfold getBit
  split
  · refine Res.Sat.bind (fetchByte_sat e s) (fun _ h => h) (fun _ h => h) id fun b t ht => ?_
    exact ReadsOnly.trans s t _ ht ⟨rfl, [], by simp⟩
  · exact ⟨rfl, [], by simp⟩

/-- No unread bit: the accumulator and the queue are empty. -/
theorem inBits_eq_nil {s : State} : s.inBits = [] ↔ s.rcnt.val = 0 ∧ s.inq = [] := by
  rw [← List.length_eq_zero_iff, ← List.length_eq_zero_iff (l := s.inq), State.inBits, List.length_append,
    length_natBits, length_bytesBits]
  omega

/-- GetBit with no bit left (spec R202, R93). -/
theorem getBit_nil {s : State} (e : Err) (h : s.inBits = []) :
    getBit e s =
      match s.inEnd with
      | .opened => .hold
      | .fail => .raise .ioRead s
      | .eos => .raise e s := by
  obtain ⟨hr, hq⟩ := inBits_eq_nil.1 h
  rw [getBit, if_pos hr, fetchByte_nil e hq]
  cases s.inEnd <;> rfl

/-- GetBit returns the next bit and leaves the others (spec R202). -/
theorem getBit_ok {s : State} (e : Err) {b : Bool} {rest : List Bool} (h : s.inBits = b :: rest) :
    ∃ t, getBit e s = .ok b t ∧ ReadsOnly s t ∧ t.inBits = rest ∧ t.rbits.toNat < 2 ^ t.rcnt.val := by
  have hw := getBit_sat e s
  have step : ∀ (bits : Byte) (k : Nat) (q : List Byte), k < 8 →
      natBits bits.toNat (k + 1) ++ bytesBits q = b :: rest →
      bits.getLsbD k = b ∧ natBits (BitVec.ofNat 8 (bits.toNat % 2 ^ k)).toNat k ++ bytesBits q = rest ∧
        (BitVec.ofNat 8 (bits.toNat % 2 ^ k)).toNat < 2 ^ k := by
    intro bits k q hk hb
    rw [natBits_succ, List.cons_append, List.cons.injEq] at hb
    have hlt : bits.toNat % 2 ^ k < 2 ^ k := Nat.mod_lt _ (Nat.two_pow_pos k)
    have h256 : 2 ^ k ≤ 2 ^ 8 := Nat.pow_le_pow_right (by omega) (by omega)
    have hn : (BitVec.ofNat 8 (bits.toNat % 2 ^ k)).toNat = bits.toNat % 2 ^ k := by
      rw [BitVec.toNat_ofNat, Nat.mod_eq_of_lt (by omega)]
    refine ⟨hb.1, ?_, by omega⟩
    rw [hn, natBits_mod (Nat.le_refl k)]
    exact hb.2
  by_cases hr : s.rcnt.val = 0
  · cases hq : s.inq with
    | nil => rw [inBits_eq_nil.2 ⟨hr, hq⟩] at h; cases h
    | cons c q =>
      have hb : natBits c.toNat (7 + 1) ++ bytesBits q = b :: rest := by
        rw [← h, State.inBits, hr, hq]; rfl
      obtain ⟨h1, h2, h3⟩ := step c 7 q (by omega) hb
      have e' : getBit e s = .ok b { s with
          inq := q, incnt := s.incnt + 1, rcnt := 7, rbits := BitVec.ofNat 8 (c.toNat % 2 ^ 7) } := by
        simp only [getBit, hr, if_true]
        rw [fetchByte_cons e hq, Res.bind_ok, takeBit_eq]
        simp only [Nat.add_one_sub_one, h1]
        rfl
      rw [e'] at hw ⊢
      exact ⟨_, rfl, hw, h2, h3⟩
  · obtain ⟨k, hk⟩ : ∃ k, s.rcnt.val = k + 1 := ⟨s.rcnt.val - 1, by omega⟩
    have hlt := s.rcnt.isLt
    have hb : natBits s.rbits.toNat (k + 1) ++ bytesBits s.inq = b :: rest := by rw [← h, State.inBits, hk]
    obtain ⟨h1, h2, h3⟩ := step s.rbits k s.inq (by omega) hb
    have e' : getBit e s = .ok b { s with
        rcnt := Fin.ofNat 8 k, rbits := BitVec.ofNat 8 (s.rbits.toNat % 2 ^ k) } := by
      simp [getBit, hk, takeBit_eq, h1]
    have hv : (Fin.ofNat 8 k).val = k := by simp [Fin.ofNat, Nat.mod_eq_of_lt (show k < 8 by omega)]
    rw [e'] at hw ⊢
    refine ⟨_, rfl, hw, ?_, ?_⟩
    · simp only [State.inBits, hv]; exact h2
    · simp only [hv]; exact h3

/-- Everything the loop of GET_BITS can do (spec R221). -/
theorem getBits_sat (e : Err) (n v : Nat) (s : State) :
    (getBits e n v s).Sat (ReadsOnly s) [.ioRead, e] (s.inEnd = .opened) := by
  induction n generalizing v s with
  | zero => exact ReadsOnly.refl s
  | succ n ih =>
    refine (getBit_sat e s).bind (fun _ h => h) (fun _ h => h) id fun b t ht => ?_
    exact (ih _ t).mono (fun u hu => ReadsOnly.trans s t u ht hu) (fun _ h => h) (by rw [ht.inEnd]; exact id)

/-- The loop of GET_BITS returns the next bits as a number and leaves the others (spec R221). -/
theorem getBits_ok {s : State} (e : Err) (bs rest : List Bool) (v : Nat) (h : s.inBits = bs ++ rest) :
    ∃ t, getBits e bs.length v s = .ok (bs.foldl (fun v b => 2 * v + b.toNat) v) t ∧ ReadsOnly s t ∧
      t.inBits = rest := by
  induction bs generalizing v s with
  | nil => exact ⟨s, rfl, .refl s, h⟩
  | cons b bs ih =>
    obtain ⟨t, e1, hr, hb, _⟩ := getBit_ok e (s := s) (b := b) (rest := bs ++ rest) h
    obtain ⟨u, e2, hr', hb'⟩ := ih (s := t) (2 * v + b.toNat) hb
    exact ⟨u, by rw [List.length_cons, getBits, e1, Res.bind_ok, e2]; rfl, ReadsOnly.trans s t u hr hr', hb'⟩

/-- Everything DecodeSym's loop can do (spec R203). -/
theorem decodeFrom_sat (e : Err) (n l p : Nat) (s : State) :
    (decodeFrom e n l p s).Sat (ReadsOnly s) [.ioRead, e, .badCode] (s.inEnd = .opened) := by
  induction n generalizing l p s with
  | zero => exact ⟨by simp, .refl s⟩
  | succ n ih =>
    refine (getBit_sat e s).bind (fun _ h => h) (by simp) id fun b t ht => ?_
    split
    · exact ht
    · exact (ih _ _ t).mono (fun u hu => ReadsOnly.trans s t u ht hu) (fun _ h => h) (by rw [ht.inEnd]; exact id)

/-- Everything DecodeSym can do (spec R203). -/
theorem decodeSym_sat (e : Err) (s : State) :
    (decodeSym e s).Sat (ReadsOnly s) [.ioRead, e, .badCode] (s.inEnd = .opened) := by
  unfold decodeSym
  split
  · exact ⟨by simp, .refl s⟩
  · exact decodeFrom_sat ..

/-- Align either finds a 1 among the unread bits and changes nothing, or empties the accumulator (spec R204). -/
theorem align_eq (s : State) :
    align s = if s.rbits ≠ 0 then .raise .badPad s else .ok () { s with rbits := 0, rcnt := 0 } := rfl

end Sys2Proof.Machine
end

