-- ==== Sys2Proof/Laws/Codes.lean ====
section
/-! SUPPORT. The code-length table generator: sorted entries, canonical codes as points of the code space, Kraft sums,
prefix-freeness, and symbol decoding (spec R171 to R177, R203). -/

namespace Sys2Proof.Machine

/-! ### Sorted entries (spec R171, steps (a) and (c)) -/

theorem Entry.le_total (a b : Entry) : a.le b ∨ b.le a := by unfold Entry.le; omega

theorem Entry.le_trans {a b c : Entry} (h : a.le b) (h' : b.le c) : a.le c := by unfold Entry.le at *; omega

theorem Entry.ext_nat {a b : Entry} (hl : a.len.toNat = b.len.toNat) (hs : a.sym.toNat = b.sym.toNat) : a = b := by
  cases a; cases b
  rw [Entry.mk.injEq]
  exact ⟨byte_ext hs, byte_ext hl⟩

theorem Entry.lt_of_le_of_ne {a b : Entry} (h : a.le b) (hn : a ≠ b) : a.lt b := by
  rcases h with h | ⟨h, h'⟩
  · exact .inl h
  · refine .inr ⟨h, Nat.lt_of_le_of_ne h' fun hs => hn (Entry.ext_nat h hs)⟩

theorem Entry.lt.le {a b : Entry} (h : a.lt b) : a.le b := by unfold Entry.le Entry.lt at *; omega

theorem Entry.lt_irrefl (a : Entry) : ¬ a.lt a := by unfold Entry.lt; omega

theorem Entry.lt_asymm {a b : Entry} (h : a.lt b) : ¬ b.lt a := by unfold Entry.lt at *; omega

theorem mem_sortedEntries (len : Table Byte) (e : Entry) :
    e ∈ sortedEntries len ↔ e.len ≠ 0 ∧ tget len e.sym = e.len := by
  rw [sortedEntries, (List.perm_insertionSort Entry.le _).mem_iff, tpairs_eq]
  simp only [List.mem_map, List.mem_filter, mem_allBytes, true_and, bne_iff_ne, ne_eq]
  constructor
  · rintro ⟨p, ⟨⟨x, rfl⟩, hp⟩, rfl⟩
    exact ⟨hp, rfl⟩
  · rintro ⟨hne, heq⟩
    exact ⟨(e.sym, e.len), ⟨⟨e.sym, by rw [heq]⟩, hne⟩, rfl⟩

theorem nodup_sortedEntries (len : Table Byte) : ((sortedEntries len).map fun e => e.sym).Nodup := by
  rw [sortedEntries, ((List.perm_insertionSort Entry.le _).map _).nodup_iff, tpairs_eq, List.map_map]
  have : ((fun e : Entry => e.sym) ∘ fun p : Byte × Byte => (⟨p.1, p.2⟩ : Entry)) = Prod.fst := rfl
  rw [this]
  refine List.Nodup.sublist (List.filter_sublist.map _) ?_
  rw [List.map_map]
  simpa [Function.comp_def] using allBytes_nodup

theorem sorted_sortedEntries (len : Table Byte) : (sortedEntries len).Pairwise Entry.lt := by
  have total : Std.Total Entry.le := ⟨Entry.le_total⟩
  have trans : IsTrans Entry Entry.le := ⟨fun _ _ _ => Entry.le_trans⟩
  have hle : (sortedEntries len).Pairwise Entry.le := List.pairwise_insertionSort Entry.le _
  have hne : (sortedEntries len).Pairwise (· ≠ ·) := List.Nodup.of_map _ (nodup_sortedEntries len)
  exact (hle.and hne).imp fun h => Entry.lt_of_le_of_ne h.1 h.2

/-- A strictly sorted list of entries is determined by its members. -/
theorem sorted_unique {as bs : List Entry} (ha : as.Pairwise Entry.lt) (hb : bs.Pairwise Entry.lt)
    (h : ∀ e, e ∈ as ↔ e ∈ bs) : as = bs := by
  induction as generalizing bs with
  | nil =>
    cases bs with
    | nil => rfl
    | cons b bs => exact absurd ((h b).2 (by simp)) (by simp)
  | cons a as ih =>
    cases bs with
    | nil => exact absurd ((h a).1 (by simp)) (by simp)
    | cons b bs =>
      rw [List.pairwise_cons] at ha hb
      have hab : a = b := by
        rcases List.mem_cons.1 ((h a).1 (by simp)) with e | e
        · exact e
        · rcases List.mem_cons.1 ((h b).2 (by simp)) with e' | e'
          · exact e'.symm
          · exact absurd (hb.1 a e) (Entry.lt_asymm (ha.1 b e'))
      subst hab
      rw [ih ha.2 hb.2]
      intro e
      constructor
      · intro he
        rcases List.mem_cons.1 ((h e).1 (List.mem_cons_of_mem _ he)) with rfl | h'
        · exact absurd (ha.1 e he) (Entry.lt_irrefl e)
        · exact h'
      · intro he
        rcases List.mem_cons.1 ((h e).2 (List.mem_cons_of_mem _ he)) with rfl | h'
        · exact absurd (hb.1 e he) (Entry.lt_irrefl e)
        · exact h'

/-! ### Codes as points of the code space

A code of length l with value c stands for the points from c * 2^(255 - l) on, 2^(255 - l) of them, of a space of
2^255 points. Step (d) lays the codes of the sorted entries one after the other. -/

/-- The number of points a code of an entry's length takes. -/
def Entry.room (e : Entry) : Nat := 2 ^ (255 - e.len.toNat)

/-- The number of points the codes of a list of entries take. -/
def roomOf (es : List Entry) : Nat := (es.map Entry.room).sum

@[simp] theorem roomOf_nil : roomOf [] = 0 := rfl

@[simp] theorem roomOf_cons (e : Entry) (es : List Entry) : roomOf (e :: es) = e.room + roomOf es := rfl

@[simp] theorem roomOf_append (as bs : List Entry) : roomOf (as ++ bs) = roomOf as + roomOf bs := by
  simp [roomOf]

theorem Entry.room_pos (e : Entry) : 0 < e.room := Nat.two_pow_pos _

/-- The table that lays codes one after the other from the point `pos` on. -/
def layCodes : List Entry → (pos : Nat) → Table CodeWord → Table CodeWord
  | [], _, t => t
  | e :: es, pos, t => layCodes es (pos + e.room) (tset t e.sym (BitVec.ofNat 255 (pos / e.room)))

theorem Entry.len_le (e : Entry) : e.len.toNat ≤ 255 := by have := e.len.isLt; omega

theorem room_mul (e : Entry) : 2 ^ e.len.toNat * e.room = 2 ^ 255 := by
  rw [Entry.room, ← Nat.pow_add, Nat.add_sub_cancel' e.len_le]

/-- Step (d) as laying codes: it fails exactly when they do not fit (spec R174). -/
theorem assignCodes_eq (es : List Entry) (code prev : Nat) (t : Table CodeWord)
    (hs : es.Pairwise fun a b => a.len.toNat ≤ b.len.toNat) (hp : ∀ e ∈ es, prev ≤ e.len.toNat) (hprev : prev ≤ 255) :
    assignCodes es code prev t =
      if es = [] ∨ code * 2 ^ (255 - prev) + roomOf es ≤ 2 ^ 255 then
        some (layCodes es (code * 2 ^ (255 - prev)) t)
      else none := by
  induction es generalizing code prev t with
  | nil => simp [assignCodes, layCodes]
  | cons e es ih =>
    rw [List.pairwise_cons] at hs
    have hl := e.len_le
    have hpe := hp e (by simp)
    have hroom := room_mul e
    have hstart : (code <<< (e.len.toNat - prev)) * e.room = code * 2 ^ (255 - prev) := by
      rw [Nat.shiftLeft_eq, Entry.room, Nat.mul_assoc, ← Nat.pow_add]
      congr 2
      omega
    have hnext : (code <<< (e.len.toNat - prev) + 1) * 2 ^ (255 - e.len.toNat) =
        code * 2 ^ (255 - prev) + e.room := by
      rw [← hstart]; unfold Entry.room; rw [Nat.add_mul, Nat.one_mul]
    have hdiv : code * 2 ^ (255 - prev) / e.room = code <<< (e.len.toNat - prev) := by
      rw [← hstart, Nat.mul_div_cancel _ e.room_pos]
    rw [assignCodes]
    by_cases hc : 2 ^ e.len.toNat ≤ code <<< (e.len.toNat - prev)
    · have : 2 ^ 255 ≤ code * 2 ^ (255 - prev) := by
        rw [← hstart, ← hroom]; exact Nat.mul_le_mul_right _ hc
      have hpos := e.room_pos
      rw [if_pos hc, if_neg]
      simp only [roomOf_cons, reduceCtorEq, false_or]
      omega
    · rw [if_neg hc, ih _ _ _ hs.2 hs.1 hl, hnext, layCodes, hdiv]
      have hfit : code * 2 ^ (255 - prev) + e.room ≤ 2 ^ 255 := by
        rw [← hstart, ← hroom, ← Nat.succ_mul]; exact Nat.mul_le_mul_right _ (by omega)
      simp only [roomOf_cons, reduceCtorEq, false_or, ← Nat.add_assoc]
      by_cases hes : es = []
      · subst hes; rw [if_pos (.inl rfl), if_pos (by simpa using hfit)]
      · simp [hes]

theorem layCodes_other (es : List Entry) (pos : Nat) (t : Table CodeWord) (x : Byte)
    (hx : ∀ e ∈ es, e.sym ≠ x) : tget (layCodes es pos t) x = tget t x := by
  induction es generalizing pos t with
  | nil => rfl
  | cons e es ih =>
    rw [layCodes, ih _ _ fun e' he' => hx e' (List.mem_cons_of_mem _ he'), tget_tset_ne _ _ (hx e (by simp)).symm]

/-- The code of an entry is where laying the entries before it ended (spec R173). -/
theorem layCodes_get (as bs : List Entry) (e : Entry) (pos : Nat) (t : Table CodeWord)
    (hd : ((as ++ e :: bs).map fun e => e.sym).Nodup) :
    tget (layCodes (as ++ e :: bs) pos t) e.sym = BitVec.ofNat 255 ((pos + roomOf as) / e.room) := by
  induction as generalizing pos t with
  | nil =>
    rw [List.nil_append, layCodes, layCodes_other]
    · simp
    · intro e' he' h
      simp only [List.nil_append, List.map_cons, List.nodup_cons] at hd
      exact hd.1 (List.mem_map.2 ⟨e', he', h⟩)
  | cons a as ih =>
    rw [List.cons_append, List.map_cons, List.nodup_cons] at hd
    rw [List.cons_append, layCodes, ih _ _ hd.2, roomOf_cons, Nat.add_assoc]

theorem room_dvd_roomOf {as : List Entry} {e : Entry} (h : ∀ a ∈ as, a.len.toNat ≤ e.len.toNat) :
    e.room ∣ roomOf as := by
  induction as with
  | nil => exact ⟨0, rfl⟩
  | cons a as ih =>
    refine Nat.dvd_add ?_ (ih fun b hb => h b (List.mem_cons_of_mem _ hb))
    exact Nat.pow_dvd_pow 2 (by have := h a (by simp); omega)

theorem roomOf_sortedEntries (len : Table Byte) : roomOf (sortedEntries len) = kraftSum len := by
  have hp := (List.perm_insertionSort Entry.le
    (((tpairs len).filter fun p => p.2 != 0).map fun p => (⟨p.1, p.2⟩ : Entry)))
  rw [roomOf, sortedEntries, (hp.map _).sum_eq, tpairs_eq, kraftSum, List.map_map]
  induction allBytes with
  | nil => rfl
  | cons x xs ih =>
    by_cases hx : tget len x = 0
    · rw [List.map_cons, List.filter_cons_of_neg (by simp [hx]), ih, List.map_cons, List.sum_cons, if_pos hx,
        Nat.zero_add]
    · rw [List.map_cons, List.filter_cons_of_pos (by simpa using hx), List.map_cons, List.sum_cons, ih, List.map_cons,
        List.sum_cons, if_neg hx]
      rfl

/-! ### BuildCodes -/

theorem entries_len_sorted {es : List Entry} (h : es.Pairwise Entry.lt) :
    es.Pairwise fun a b => a.len.toNat ≤ b.len.toNat :=
  h.imp fun h => by unfold Entry.lt at h; omega

/-- BuildCodes' codes, in terms of the code space (spec R171, R174, R175). -/
theorem codesOf_eq {a b : Entry} {es : List Entry} (h : (a :: b :: es).Pairwise Entry.lt) :
    codesOf (a :: b :: es) =
      if roomOf (a :: b :: es) ≤ 2 ^ 255 then .ok (layCodes (a :: b :: es) 0 (tfill 0)) else .error .oversub := by
  simp only [codesOf]
  rw [assignCodes_eq _ 0 0 _ (entries_len_sorted h) (by simp) (by omega)]
  simp only [reduceCtorEq, false_or, Nat.zero_mul, Nat.zero_add]
  by_cases hf : roomOf (a :: b :: es) ≤ 2 ^ 255
  · rw [if_pos hf, if_pos hf]
  · rw [if_neg hf, if_neg hf]

/-- The point where the code of an entry begins is the room of the entries before it; the code is that point counted in
steps of the entry's own room. -/
theorem code_of_split {es as bs : List Entry} {e : Entry} {t : Table CodeWord} (h : es.Pairwise Entry.lt)
    (hd : (es.map fun e => e.sym).Nodup) (ht : codesOf es = .ok t) (h2 : 2 ≤ es.length) (he : es = as ++ e :: bs) :
    (tget t e.sym).toNat * e.room = roomOf as ∧ roomOf as + e.room + roomOf bs ≤ 2 ^ 255 := by
  match es, h2 with
  | a :: b :: es', _ =>
    rw [codesOf_eq h] at ht
    split at ht
    case isFalse => cases ht
    case isTrue hfit =>
      rw [Except.ok.injEq] at ht
      rw [he] at ht hfit hd h
      rw [← ht, layCodes_get as bs e 0 _ hd, Nat.zero_add]
      simp only [roomOf_append, roomOf_cons] at hfit
      have hdvd : e.room ∣ roomOf as := room_dvd_roomOf fun a ha => by
        have := (List.pairwise_append.1 h).2.2 a ha e (by simp)
        unfold Entry.lt at this; omega
      obtain ⟨k, hk⟩ := hdvd
      have hroom := room_mul e
      have hpos := e.room_pos
      have hle : 2 ^ e.len.toNat ≤ 2 ^ 255 := Nat.pow_le_pow_right (by omega) e.len_le
      have hklt : k < 2 ^ e.len.toNat := by
        refine Nat.lt_of_mul_lt_mul_left (a := e.room) ?_
        rw [← hk, Nat.mul_comm, hroom]; omega
      refine ⟨?_, by omega⟩
      rw [hk, Nat.mul_div_cancel_left _ hpos, BitVec.toNat_ofNat, Nat.mod_eq_of_lt (by omega), Nat.mul_comm]

theorem code_single {e : Entry} {t : Table CodeWord} (ht : codesOf [e] = .ok t) :
    e.len = 1 ∧ t = tset (tfill 0) e.sym 1 := by
  simp only [codesOf] at ht
  split at ht
  · cases ht
  · rw [Except.ok.injEq] at ht
    exact ⟨Decidable.not_not.1 ‹_›, ht.symm⟩

/-- Symbols without an entry have code 0 (spec R47, R53). -/
theorem codesOf_other {es : List Entry} {t : Table CodeWord} {x : Byte} (h : es.Pairwise Entry.lt)
    (ht : codesOf es = .ok t) (hx : ∀ e ∈ es, e.sym ≠ x) : tget t x = 0 := by
  match es with
  | [] => simp only [codesOf, Except.ok.injEq] at ht; rw [← ht]; simp
  | [e] => rw [(code_single ht).2, tget_tset_ne _ _ (hx e (by simp)).symm]; simp
  | a :: b :: es' =>
    rw [codesOf_eq h] at ht
    split at ht
    · rw [Except.ok.injEq] at ht
      rw [← ht, layCodes_other _ _ _ _ hx]; simp
    · cases ht

/-- BuildCodes succeeds exactly on lengths whose Kraft sum is at most 1 and that are not a single one other than 1
(spec R174, R175). -/
theorem codesOf_isOk (len : Table Byte) :
    (∃ t, codesOf (sortedEntries len) = .ok t) ↔
      kraftSum len ≤ 2 ^ 255 ∧ ∀ e, sortedEntries len = [e] → e.len = 1 := by
  have hs := sorted_sortedEntries len
  rw [← roomOf_sortedEntries]
  match sortedEntries len, hs with
  | [], _ => simp [codesOf]
  | [e], _ =>
    have hle : e.room ≤ 2 ^ 255 := Nat.pow_le_pow_right (by omega) (by omega)
    by_cases h1 : e.len = 1
    · simp only [codesOf, h1]
      exact ⟨fun _ => ⟨by simpa using hle, fun e' he' => by rw [← (List.cons.inj he').1]; exact h1⟩, fun _ => ⟨_, rfl⟩⟩
    · simp only [codesOf, if_pos h1]
      exact ⟨fun ⟨_, h⟩ => (by cases h), fun h => absurd (h.2 e rfl) h1⟩
  | a :: b :: es, hs =>
    rw [codesOf_eq hs]
    by_cases hf : roomOf (a :: b :: es) ≤ 2 ^ 255
    · rw [if_pos hf]
      exact ⟨fun _ => ⟨hf, fun e he => by cases he⟩, fun _ => ⟨_, rfl⟩⟩
    · rw [if_neg hf]
      exact ⟨fun ⟨_, h⟩ => (by cases h), fun h => absurd h.1 hf⟩

/-! ### The code table -/

theorem maxLength_foldl (l : List Nat) (m : Nat) (hm : m ≤ 255) (hl : ∀ n ∈ l, n ≤ 255) :
    l.foldl max m ≤ 255 ∧ m ≤ l.foldl max m ∧ (∀ n ∈ l, n ≤ l.foldl max m) ∧
      (l.foldl max m = m ∨ l.foldl max m ∈ l) := by
  induction l generalizing m with
  | nil => simp [hm]
  | cons a l ih =>
    have ha := hl a (by simp)
    obtain ⟨h1, h2, h3, h4⟩ := ih (max m a) (by omega) fun n hn => hl n (List.mem_cons_of_mem _ hn)
    refine ⟨h1, by simp only [List.foldl_cons]; omega, ?_, ?_⟩
    · intro n hn
      rcases List.mem_cons.1 hn with rfl | hn
      · simp only [List.foldl_cons]; omega
      · exact h3 n hn
    · simp only [List.foldl_cons]
      rcases h4 with h | h
      · rcases Nat.le_total m a with hle | hle
        · right; rw [h, Nat.max_eq_right hle]; simp
        · left; rw [h, Nat.max_eq_left hle]
      · right; exact List.mem_cons_of_mem _ h

theorem maxLength_toNat (es : List Entry) :
    (maxLength es).toNat = (es.map fun e => e.len.toNat).foldl max 0 := by
  have := (maxLength_foldl (es.map fun e => e.len.toNat) 0 (by omega) (by simp; intro e _; exact e.len_le)).1
  rw [maxLength, BitVec.toNat_ofNat, Nat.mod_eq_of_lt (by omega)]

theorem length_sortedEntries (len : Table Byte) : (sortedEntries len).length ≤ 256 := by
  rw [sortedEntries, (List.perm_insertionSort Entry.le _).length_eq, List.length_map]
  refine Nat.le_trans (List.length_filter_le _ _) ?_
  rw [tpairs_eq, List.length_map, length_allBytes]

/-- The state BuildCodes reaches when it succeeds. -/
def State.withTable (s : State) (t : Table CodeWord) : State :=
  { s with
    nsym := BitVec.ofNat 9 (sortedEntries s.len).length, maxlen := maxLength (sortedEntries s.len)
    entry := sortedEntries s.len, code := t, codesValid := true }

/-- BuildCodes ends in one of two ways (spec R171). -/
theorem buildCodes_eq (s : State) :
    buildCodes s =
      match codesOf (sortedEntries s.len) with
      | .error e => .raise e { s.clearCodes with codesValid := false }
      | .ok t => .ok () (s.withTable t) := rfl

/-- A successful BuildCodes leaves a code table that matches LEN (spec R53, item 3). -/
theorem withTable_tableOk {s : State} {t : Table CodeWord} (h : codesOf (sortedEntries s.len) = .ok t) :
    (s.withTable t).TableOk where
  count := by
    have := length_sortedEntries s.len
    simp only [State.withTable, BitVec.toNat_ofNat]
    rw [Nat.mod_eq_of_lt (by omega)]
  sorted := sorted_sortedEntries s.len
  listed := mem_sortedEntries s.len
  bound := by
    intro x
    simp only [State.withTable, State.lenAt, maxLength_toNat]
    by_cases hx : tget s.len x = 0
    · simp [hx]
    · refine (maxLength_foldl _ 0 (by omega) (by simp; intro e _; exact e.len_le)).2.2.1 _ ?_
      exact List.mem_map.2 ⟨⟨x, tget s.len x⟩, (mem_sortedEntries _ _).2 ⟨hx, rfl⟩, rfl⟩
  attained := by
    simp only [State.withTable, State.lenAt, maxLength_toNat]
    rcases (maxLength_foldl ((sortedEntries s.len).map fun e => e.len.toNat) 0 (by omega)
      (by simp; intro e _; exact e.len_le)).2.2.2 with h0 | hm
    · rw [h0]
      by_contra hno
      have hall : ∀ x, tget s.len x ≠ 0 := fun x hx => hno ⟨x, by simp [hx]⟩
      have hmem : (⟨0, tget s.len 0⟩ : Entry) ∈ sortedEntries s.len := (mem_sortedEntries _ _).2 ⟨hall 0, rfl⟩
      have := (maxLength_foldl ((sortedEntries s.len).map fun e => e.len.toNat) 0 (by omega)
        (by simp; intro e _; exact e.len_le)).2.2.1 _ (List.mem_map.2 ⟨_, hmem, rfl⟩)
      rw [h0] at this
      exact hall 0 (byte_ext (by simpa using this))
    · obtain ⟨e, he, heq⟩ := List.mem_map.1 hm
      exact ⟨e.sym, by rw [← heq, ((mem_sortedEntries _ _).1 he).2]⟩
  codes := h
  noCode := by
    intro x hx
    simp only [State.withTable, State.lenAt, State.codeAt] at hx ⊢
    rw [codesOf_other (sorted_sortedEntries s.len) h]
    · rfl
    · intro e he hs
      have := (mem_sortedEntries _ _).1 he
      rw [hs] at this
      exact this.1 (byte_ext (by rw [← this.2]; simpa using hx))

theorem State.TableOk.entry_eq {s : State} (h : s.TableOk) : s.entry = sortedEntries s.len :=
  sorted_unique h.sorted (sorted_sortedEntries s.len) fun e => by rw [h.listed, mem_sortedEntries]

theorem State.TableOk.mem {s : State} (h : s.TableOk) {x : Byte} (hx : s.lenAt x ≠ 0) :
    (⟨x, tget s.len x⟩ : Entry) ∈ s.entry :=
  (h.listed _).2 ⟨fun h0 => hx (by rw [State.lenAt]; exact congrArg BitVec.toNat h0), rfl⟩

/-- A code is a number of its length (spec R47). -/
theorem State.TableOk.code_lt {s : State} (h : s.TableOk) (x : Byte) : s.codeAt x < 2 ^ s.lenAt x := by
  by_cases hx : s.lenAt x = 0
  · rw [h.noCode x hx, hx]; exact Nat.one_pos
  · have hc := h.codes
    have hd : (s.entry.map fun e => e.sym).Nodup := by rw [h.entry_eq]; exact nodup_sortedEntries _
    have hm := h.mem hx
    match hes : s.entry, hm with
    | [e], hm =>
      rw [hes] at hc
      obtain ⟨h1, h2⟩ := code_single hc
      have he : (⟨x, tget s.len x⟩ : Entry) = e := by simpa using hm
      have hlen : s.lenAt x = 1 := by
        have : tget s.len x = 1 := by rw [← h1, ← he]
        simp [State.lenAt, this]
      have hs : e.sym = x := by rw [← he]
      rw [State.codeAt, h2, hs, hlen]; simp
    | a :: b :: es, hm =>
      obtain ⟨as, bs, hsp⟩ := List.append_of_mem hm
      rw [hes] at hc hd
      have hsorted := h.sorted
      rw [hes] at hsorted
      have := code_of_split hsorted hd hc (by simp) hsp
      have hroom := room_mul (⟨x, tget s.len x⟩ : Entry)
      have hpos := (⟨x, tget s.len x⟩ : Entry).room_pos
      refine Nat.lt_of_mul_lt_mul_right (a := (⟨x, tget s.len x⟩ : Entry).room) ?_
      rw [State.codeAt, this.1, State.lenAt, hroom]
      omega

/-- Of two entries in sorted order, the points of the codes do not overlap (spec R177). -/
theorem State.TableOk.separate {s : State} (h : s.TableOk) {a b : Entry} (ha : a ∈ s.entry) (hb : b ∈ s.entry)
    (hab : a.lt b) : (s.codeAt a.sym + 1) * a.room ≤ s.codeAt b.sym * b.room := by
  have hd : (s.entry.map fun e => e.sym).Nodup := by rw [h.entry_eq]; exact nodup_sortedEntries _
  obtain ⟨as, bs, hsp⟩ := List.append_of_mem hb
  have hsorted := h.sorted
  have haa : a ∈ as := by
    rw [hsp] at ha hsorted
    rcases List.mem_append.1 ha with h1 | h1
    · exact h1
    · exfalso
      rcases List.mem_cons.1 h1 with rfl | h1
      · exact Entry.lt_irrefl _ hab
      · have := (List.pairwise_cons.1 (List.pairwise_append.1 hsorted).2.1).1 a h1
        exact Entry.lt_asymm hab this
  obtain ⟨cs, ds, hsp'⟩ := List.append_of_mem haa
  have h2 : 2 ≤ s.entry.length := by rw [hsp, hsp']; simp; omega
  have eb := code_of_split hsorted hd h.codes h2 hsp
  have ea := code_of_split (as := cs) (bs := ds ++ b :: bs) (e := a) hsorted hd h.codes h2 (by rw [hsp, hsp']; simp)
  rw [Nat.add_mul, Nat.one_mul, State.codeAt, State.codeAt, ea.1, eb.1, hsp', roomOf_append, roomOf_cons]
  omega

/-- The codes are prefix-free (spec R53 item 4, R177). -/
theorem State.TableOk.prefix_free {s : State} (h : s.TableOk) {x y : Byte} (hx : s.lenAt x ≠ 0) (hy : s.lenAt y ≠ 0)
    (hp : s.symBits x <+: s.symBits y) : x = y := by
  by_contra hne
  obtain ⟨rest, hr⟩ := hp
  have hlen : s.lenAt x + rest.length = s.lenAt y := by
    have := congrArg List.length hr
    simpa [State.symBits] using this
  have hdrop : s.codeAt y >>> rest.length = s.codeAt x := by
    have e : natBits (s.codeAt y) (s.lenAt x + rest.length) = s.symBits x ++ rest := by rw [hlen]; exact hr.symm
    rw [natBits_drop] at e
    have := List.append_inj_left e (by simp [State.symBits])
    refine natBits_inj (n := s.lenAt x) ?_ (h.code_lt x) this
    rw [Nat.shiftRight_eq_div_pow, Nat.div_lt_iff_lt_mul (Nat.two_pow_pos _), ← Nat.pow_add, hlen]
    exact h.code_lt y
  have hmx := h.mem hx
  have hmy := h.mem hy
  have hroom : (⟨x, tget s.len x⟩ : Entry).room = 2 ^ rest.length * (⟨y, tget s.len y⟩ : Entry).room := by
    have h1 := (⟨y, tget s.len y⟩ : Entry).len_le
    simp only [Entry.room, ← Nat.pow_add]
    congr 1
    simp only [State.lenAt] at hlen
    simp only at h1
    omega
  have hlo : s.codeAt x * 2 ^ rest.length ≤ s.codeAt y := by
    rw [← hdrop, Nat.shiftRight_eq_div_pow]; exact Nat.div_mul_le_self _ _
  have hhi : s.codeAt y < (s.codeAt x + 1) * 2 ^ rest.length := by
    rw [← hdrop, Nat.shiftRight_eq_div_pow, Nat.add_mul, Nat.one_mul]
    exact Nat.lt_div_mul_add (Nat.two_pow_pos _)
  have hpos := (⟨y, tget s.len y⟩ : Entry).room_pos
  rcases Entry.le_total ⟨x, tget s.len x⟩ ⟨y, tget s.len y⟩ with hle | hle
  · have hlt := Entry.lt_of_le_of_ne hle fun e => hne (by injection e)
    have := h.separate hmx hmy hlt
    rw [hroom, ← Nat.mul_assoc] at this
    have := Nat.le_of_mul_le_mul_right this hpos
    dsimp only at this
    omega
  · have hlt := Entry.lt_of_le_of_ne hle fun e => hne (by injection e with e1; exact e1.symm)
    have h0 : rest.length = 0 := by
      unfold Entry.lt at hlt
      simp only [State.lenAt] at hlen
      simp only at hlt
      omega
    have := h.separate hmy hmx hlt
    rw [hroom, h0, Nat.pow_zero, Nat.one_mul] at this
    have := Nat.le_of_mul_le_mul_right this hpos
    dsimp only at this
    rw [h0, Nat.pow_zero, Nat.mul_one] at hlo
    omega

/-! ### Symbol decoding (spec R203) -/

theorem zip_tables {α β : Type} (t : Table α) (u : Table β) :
    allBytes.zip (t.toList.zip u.toList) = allBytes.map fun x => (x, tget t x, tget u x) := by
  apply List.ext_getElem
  · simp [length_allBytes]
  · intro i h1 h2
    have hi : i < 256 := by simpa [length_allBytes] using h2
    simp [allBytes, tget, Nat.mod_eq_of_lt hi]

/-- A symbol found for a length and a prefix has that length and that code (spec R203). -/
theorem matchCode_some {s : State} {l p : Nat} {x : Byte} (h : s.matchCode l p = some x) :
    s.lenAt x = l ∧ s.codeAt x = p := by
  rw [State.matchCode, zip_tables, Option.map_eq_some_iff] at h
  obtain ⟨q, hq, rfl⟩ := h
  have hp := List.find?_some hq
  obtain ⟨x, _, rfl⟩ := List.mem_map.1 (List.mem_of_find?_eq_some hq)
  simpa [State.lenAt, State.codeAt] using hp

/-- A symbol is found where one has that length and that code (spec R203). -/
theorem matchCode_isSome {s : State} {l p : Nat} {x : Byte} (hl : s.lenAt x = l) (hc : s.codeAt x = p) :
    ∃ y, s.matchCode l p = some y := by
  rw [← Option.isSome_iff_exists, State.matchCode, zip_tables, Option.isSome_map, List.find?_isSome]
  exact ⟨_, List.mem_map.2 ⟨x, mem_allBytes x, rfl⟩, by simpa [State.lenAt, State.codeAt] using ⟨hl, hc⟩⟩

/-- The search depends only on the tables. -/
theorem matchCode_congr {s t : State} (hl : s.len = t.len) (hc : s.code = t.code) (l p : Nat) :
    s.matchCode l p = t.matchCode l p := by rw [State.matchCode, State.matchCode, hl, hc]

/-- DecodeSym's loop, where the bits read so far and those to come begin with the code of a symbol (spec R203). -/
theorem decodeFrom_ok {s : State} (hT : s.TableOk) (e : Err) {x : Byte} (hx : s.lenAt x ≠ 0) (bs : List Bool)
    {t : State} (hlen : t.len = s.len) (hcode : t.code = s.code) {l : Nat} {p n : Nat} {rest : List Bool}
    (hp : natBits p l ++ bs = s.symBits x) (hpl : p < 2 ^ l) (hbs : bs ≠ []) (hn : bs.length ≤ n)
    (hin : t.inBits = bs ++ rest) :
    ∃ u, decodeFrom e n (l + 1) p t = .ok x u ∧ ReadsOnly t u ∧ u.inBits = rest := by
  induction bs generalizing t l p n with
  | nil => exact absurd rfl hbs
  | cons b bs ih =>
    obtain ⟨n, rfl⟩ : ∃ m, n = m + 1 := ⟨n - 1, by simp at hn; omega⟩
    obtain ⟨u, hu, hr, hb, _⟩ := getBit_ok e hin
    have hp' : natBits (2 * p + b.toNat) (l + 1) ++ bs = s.symBits x := by
      rw [natBits_snoc, List.append_assoc, List.singleton_append, hp]
    have hpl' : 2 * p + b.toNat < 2 ^ (l + 1) := by
      rw [Nat.pow_succ]; cases b <;> simp <;> omega
    have hul : u.len = s.len := by rw [hr.1]; exact hlen
    have huc : u.code = s.code := by rw [hr.1]; exact hcode
    rw [decodeFrom, hu, Res.bind_ok, matchCode_congr hul huc]
    cases hm : s.matchCode (l + 1) (2 * p + b.toNat) with
    | some y =>
      obtain ⟨h1, h2⟩ := matchCode_some hm
      have : y = x := by
        refine hT.prefix_free (by omega) hx ⟨bs, ?_⟩
        rw [State.symBits, h1, h2, hp']
      subst this
      have h0 : bs.length = 0 := by
        have := congrArg List.length hp'
        simp only [State.symBits, List.length_append, length_natBits] at this
        omega
      rw [List.eq_nil_of_length_eq_zero h0] at hb
      exact ⟨u, rfl, hr, hb⟩
    | none =>
      have hne : bs ≠ [] := by
        rintro rfl
        have hl : s.lenAt x = l + 1 := by
          have := congrArg List.length hp'
          simpa [State.symBits] using this.symm
        have hc : s.codeAt x = 2 * p + b.toNat := by
          refine (natBits_inj hpl' (hl ▸ hT.code_lt x) ?_).symm
          rw [List.append_nil, State.symBits, hl] at hp'
          exact hp'
        obtain ⟨y, hy⟩ := matchCode_isSome hl hc
        rw [hm] at hy; cases hy
      obtain ⟨v, hv, hr', hb'⟩ := ih hul huc hp' hpl' hne (by simp at hn; omega) hb
      exact ⟨v, hv, ReadsOnly.trans t u v hr hr', hb'⟩

/-- DecodeSym returns the symbol whose code the unread bits begin with, and reads exactly that code (spec R203, R207). -/
theorem decodeSym_ok {s : State} (hT : s.TableOk) (e : Err) {x : Byte} (hx : s.lenAt x ≠ 0) {rest : List Bool}
    (hin : s.inBits = s.symBits x ++ rest) :
    ∃ u, decodeSym e s = .ok x u ∧ ReadsOnly s u ∧ u.inBits = rest := by
  have hn : s.nsym ≠ 0 := by
    intro h0
    have hc := hT.count
    rw [h0] at hc
    have hm := hT.mem hx
    have he : s.entry = [] := List.eq_nil_of_length_eq_zero (by simpa using hc.symm)
    rw [he] at hm
    cases hm
  rw [decodeSym, if_neg hn]
  refine decodeFrom_ok hT e hx (s.symBits x) rfl rfl (l := 0) (p := 0) ?_ ?_ ?_ ?_ hin
  · simp
  · simp
  · intro h0
    have := congrArg List.length h0
    exact hx (by simpa [State.symBits] using this)
  · simpa [State.symBits] using hT.bound x

/-! ### BuildTree -/

theorem mem_symbols (s : State) (x : Byte) : x ∈ s.symbols ↔ s.freqAt x ≠ 0 := by
  rw [State.symbols, tpairs_eq]
  simp only [List.mem_map, List.mem_filter, mem_allBytes, true_and, bne_iff_ne, ne_eq, State.freqAt]
  constructor
  · rintro ⟨p, ⟨⟨y, rfl⟩, hp⟩, rfl⟩
    exact fun h0 => hp (BitVec.eq_of_toNat_eq (by simpa using h0))
  · intro h
    exact ⟨(x, tget s.freq x), ⟨⟨x, rfl⟩, fun h0 => h (by simp only at h0; rw [h0]; rfl)⟩, rfl⟩

theorem symbols_eq_nil (s : State) : s.symbols = [] ↔ ∀ x, s.freqAt x = 0 := by
  simp [List.eq_nil_iff_forall_not_mem, mem_symbols]

theorem freqSum_eq (s : State) : s.freqSum = (allBytes.map s.freqAt).sum := by
  rw [State.freqSum, toList_eq_map, List.map_map]
  rfl

/-- The state BuildTree reaches when it succeeds (spec R161). -/
def State.withTree (s : State) : State :=
  { ({ s with len := s.treeLengths, total := BitVec.ofNat 64 s.freqSum } : State).clearCodes with
    codesValid := false }

/-- BuildTree ends in one of three ways (spec R161). -/
theorem buildTree_eq (s : State) :
    buildTree s =
      if s.symbols = [] then .raise .emptyFreq s
      else if 2 ^ 64 ≤ s.freqSum then .raise .freqSum s
      else .ok () s.withTree := rfl

end Sys2Proof.Machine
end

