-- ==== Sys2Proof/Laws/Container.lean ====
section
/-! SUPPORT. What the header framer and the header parser do (spec R250 to R257). -/

namespace Sys2Proof.Machine

/-! ### The relations of Safety.lean compose -/

theorem StreamsMove.refl (s : State) : StreamsMove s s := ⟨⟨[], by simp⟩, [], by simp⟩

theorem StreamsMove.trans {s t u : State} (h : StreamsMove s t) (h' : StreamsMove t u) : StreamsMove s u := by
  obtain ⟨⟨p, hp, hc⟩, e, he, hd⟩ := h
  obtain ⟨⟨q, hq, hc'⟩, f, hf, hd'⟩ := h'
  refine ⟨⟨p ++ q, ?_, ?_⟩, e ++ f, ?_, ?_⟩
  · rw [hp, hq, List.append_assoc]
  · rw [hc', hc, List.length_append, BitVec.ofNat_add, BitVec.add_assoc]
  · rw [hf, he, List.append_assoc]
  · rw [hd', hd, List.length_append, BitVec.ofNat_add, BitVec.add_assoc]

theorem ReadsOnly.moves {s t : State} (h : ReadsOnly s t) : StreamsMove s t := by
  obtain ⟨h1, p, hp, hc⟩ := h
  exact ⟨⟨p, hp, hc⟩, [], by rw [h1]; simp⟩

theorem WritesOnly.moves {s t : State} (h : WritesOnly s t) : StreamsMove s t := by
  obtain ⟨h1, e, he, hc⟩ := h
  exact ⟨⟨[], by rw [h1]; simp⟩, e, he, hc⟩

theorem HeaderReadsOnly.refl (s : State) : HeaderReadsOnly s s := ⟨rfl, .refl s⟩

theorem HeaderReadsOnly.trans (s t u : State) (h : HeaderReadsOnly s t) (h' : HeaderReadsOnly t u) :
    HeaderReadsOnly s u := ⟨by rw [h'.1, h.1], h.2.trans h'.2⟩

theorem EncodesOnly.refl (s : State) : EncodesOnly s s := ⟨rfl, .refl s⟩

theorem EncodesOnly.trans (s t u : State) (h : EncodesOnly s t) (h' : EncodesOnly t u) :
    EncodesOnly s u := ⟨by rw [h'.1, h.1], h.2.trans h'.2⟩

theorem DecodesOnly.refl (s : State) : DecodesOnly s s := ⟨rfl, .refl s⟩

theorem DecodesOnly.trans (s t u : State) (h : DecodesOnly s t) (h' : DecodesOnly t u) :
    DecodesOnly s u := ⟨by rw [h'.1, h.1], h.2.trans h'.2⟩

theorem ReadsOnly.decodes {s t : State} (h : ReadsOnly s t) : DecodesOnly s t := ⟨by rw [h.1], h.moves⟩

theorem WritesOnly.encodes {s t : State} (h : WritesOnly s t) : EncodesOnly s t := ⟨by rw [h.1], h.moves⟩

theorem HeaderReadsOnly.decodes {s t : State} (h : HeaderReadsOnly s t) : DecodesOnly s t := ⟨by rw [h.1], h.2⟩

/-- ReadsOnly whose accumulator stayed: the header parser moves whole bytes (spec R252). -/
def FetchesOnly (s t : State) : Prop := ReadsOnly s t ∧ t.rbits = s.rbits ∧ t.rcnt = s.rcnt

theorem FetchesOnly.refl (s : State) : FetchesOnly s s := ⟨.refl s, rfl, rfl⟩

theorem FetchesOnly.trans (s t u : State) (h : FetchesOnly s t) (h' : FetchesOnly t u) : FetchesOnly s u :=
  ⟨.trans s t u h.1 h'.1, h'.2.1.trans h.2.1, h'.2.2.trans h.2.2⟩

theorem FetchesOnly.header {s t : State} (h : FetchesOnly s t) : HeaderReadsOnly s t := by
  refine ⟨?_, h.1.moves⟩
  rw [h.1.1, h.2.1, h.2.2]

/-! ### Big-endian numbers (spec R83) -/

@[simp] theorem length_bigEndian (v n : Nat) : (bigEndian v n).length = n := by
  induction n with
  | zero => rfl
  | succ n ih => simp [bigEndian, ih]

theorem readBigEndian_ok (v n t : Nat) (rest : List Byte) {s : State} (h : s.inq = bigEndian v n ++ rest) :
    readBigEndian n t s = .ok (t * 256 ^ n + v % 256 ^ n)
      { s with inq := rest, incnt := s.incnt + BitVec.ofNat 64 n } := by
  induction n generalizing t s with
  | zero =>
    rw [bigEndian, List.nil_append] at h
    subst h
    simp [readBigEndian, Nat.mod_one]
  | succ n ih =>
    rw [bigEndian, List.cons_append] at h
    rw [readBigEndian, fetchByte_cons _ h, Res.bind_ok, ih _ rfl]
    have hv : v % 256 ^ (n + 1) = (v >>> (8 * n)) % 256 * 256 ^ n + v % 256 ^ n := by
      rw [Nat.pow_succ, Nat.mod_mul, Nat.shiftRight_eq_div_pow, Nat.pow_mul, Nat.mul_comm (256 ^ n), Nat.add_comm]
    congr 1
    · rw [hv, BitVec.toNat_ofNat, Nat.pow_succ]
      ring
    · congr 1
      rw [BitVec.add_assoc, Nat.add_comm n 1, BitVec.ofNat_add]
      rfl

/-- FetchByte leaves the accumulator alone (spec R93). -/
theorem fetchByte_fetches (e : Err) (s : State) :
    (fetchByte e s).Sat (FetchesOnly s) [.ioRead, e] (s.inEnd = .opened) := by
  cases hq : s.inq with
  | nil => cases hi : s.inEnd <;> simp [fetchByte_nil e hq, hi, Res.Sat, FetchesOnly.refl]
  | cons b rest =>
    rw [fetchByte_cons e hq]
    exact ⟨⟨rfl, [b], by simp [hq]⟩, rfl, rfl⟩

theorem FetchesOnly.inEnd {s t : State} (h : FetchesOnly s t) : t.inEnd = s.inEnd := h.1.inEnd

/-- Everything reading total_len's bytes can do (spec R252). -/
theorem readBigEndian_sat (n t : Nat) (s : State) :
    (readBigEndian n t s).Sat (FetchesOnly s) [.ioRead, .truncated] (s.inEnd = .opened) := by
  induction n generalizing t s with
  | zero => exact FetchesOnly.refl s
  | succ n ih =>
    refine (fetchByte_fetches _ s).bind (fun _ h => h) (fun _ h => h) id fun b u hu => ?_
    exact (ih _ u).mono (fun v hv => FetchesOnly.trans s u v hu hv) (fun _ h => h) (by rw [hu.inEnd]; exact id)

/-! ### The header framer -/

theorem flatMap_range_getD {α β : Type} (l : List α) (d : α) (f : α → List β) :
    ((List.range l.length).flatMap fun i => f (l.getD i d)) = l.flatMap f := by
  rw [List.flatMap_def, List.flatMap_def]
  congr 1
  apply List.ext_getElem
  · simp
  · intro i h1 h2
    have hi : i < l.length := by simpa using h2
    simp [List.getD_eq_getElem?_getD, List.getElem?_eq_getElem hi]

/-- The header of a table whose NSYM counts its entries (spec R130, R250). -/
theorem headerBytes_eq {s : State} (hc : s.nsym.toNat = s.entry.length) (hn : s.entry ≠ []) :
    s.headerBytes = headerOf s.fmt s.entry s.total.toNat := by
  have h0 : s.nsym.toNat ≠ 0 := by rw [hc]; simpa using hn
  rw [State.headerBytes, if_neg h0, headerOf, State.entryBytes, hc]
  congr 2
  exact flatMap_range_getD s.entry ⟨0, 0⟩ fun e => [e.sym, e.len]

theorem length_headerOf (fmt : Bool) (es : List Entry) (total : Nat) :
    (headerOf fmt es total).length = 2 + 2 * es.length + (if fmt then 8 else 0) := by
  have : (es.flatMap fun e => [e.sym, e.len]).length = 2 * es.length := by
    induction es with
    | nil => rfl
    | cons e es ih => rw [List.flatMap_cons, List.length_append, ih]; simp; omega
  cases fmt <;> simp [headerOf, this]; omega

/-- Everything HdrWrite can do (spec R250). -/
theorem hdrWrite_sat (s : State) :
    (hdrWrite s).Sat (EmitsOnly s) [.noCodes, .unaligned, .ioWrite] False := by
  unfold hdrWrite
  split
  · exact ⟨by simp, .refl s⟩
  · split
    · exact ⟨by simp, .refl s⟩
    · exact (emitAll_sat _ s).mono (fun _ h => h) (by simp) id

/-- HdrWrite emits the header, where the table is valid, the writer aligned and the sink works (spec R250). -/
theorem hdrWrite_ok {s : State} (hv : s.codesValid = true) (hw : s.wcnt = 0) (ho : s.outFail = false) :
    hdrWrite s = .ok () { s with
      outq := s.outq ++ s.headerBytes, outcnt := s.outcnt + BitVec.ofNat 64 s.headerBytes.length } := by
  rw [hdrWrite, if_neg (by simp [hv]), if_neg (by simp [hw]), emitAll_ok _ ho]

/-! ### The header parser -/

theorem entryError_none {prev : Option Entry} {staged : Table Byte} {e : Entry} (hl : e.len ≠ 0)
    (hs : tget staged e.sym = 0) (hp : ∀ p, prev = some p → p.lt e) : entryError prev staged e = none := by
  unfold entryError
  rw [if_neg hl, if_neg (by simpa using hs)]
  cases prev with
  | none => rfl
  | some p =>
    have := hp p rfl
    simp only
    rw [if_neg]
    unfold Entry.lt at this
    unfold Entry.le
    omega

/-- The errors of one entry are those of checks 5, 6 and 7 (spec R254). -/
theorem entryError_some {prev : Option Entry} {staged : Table Byte} {e : Entry} {x : Err}
    (h : entryError prev staged e = some x) : x ∈ [Err.badLen, .dupSym, .badOrder] := by
  unfold entryError at h
  split at h
  · cases h; simp
  · split at h
    · cases h; simp
    · split at h
      · split at h <;> cases h; simp
      · cases h

/-- The entry loop, on entries that pass every check (spec R252). -/
theorem readEntries_ok (es : List Entry) (rest : List Byte) {prev : Option Entry} {staged : Table Byte} {s : State}
    (hq : s.inq = (es.flatMap fun e => [e.sym, e.len]) ++ rest) (hl : ∀ e ∈ es, e.len ≠ 0)
    (hs : ∀ e ∈ es, tget staged e.sym = 0) (hd : (es.map fun e => e.sym).Nodup) (hp : es.Pairwise Entry.lt)
    (hprev : ∀ p, prev = some p → ∀ e ∈ es, p.lt e) :
    readEntries es.length prev staged s =
      .ok (es.foldl (fun t e => tset t e.sym e.len) staged)
        { s with inq := rest, incnt := s.incnt + BitVec.ofNat 64 (2 * es.length) } := by
  induction es generalizing prev staged s with
  | nil =>
    simp only [List.flatMap_nil, List.nil_append] at hq
    subst hq
    simp [readEntries]
  | cons e es ih =>
    rw [List.map_cons, List.nodup_cons] at hd
    rw [List.pairwise_cons] at hp
    rw [List.flatMap_cons, List.append_assoc, List.cons_append, List.cons_append, List.nil_append] at hq
    rw [List.length_cons, readEntries, fetchByte_cons _ hq, Res.bind_ok]
    rw [fetchByte_cons _ (rest := (es.flatMap fun e => [e.sym, e.len]) ++ rest) rfl, Res.bind_ok]
    rw [entryError_none (hl e (by simp)) (hs e (by simp)) fun p h => hprev p h e (by simp)]
    simp only
    rw [ih rfl (fun a ha => hl a (List.mem_cons_of_mem _ ha)) ?_ hd.2 hp.2 ?_]
    · rw [List.foldl_cons]
      congr 2
      simp only [BitVec.add_assoc]
      congr 1
      rw [show 2 * (es.length + 1) = 1 + (1 + 2 * es.length) by omega, BitVec.ofNat_add, BitVec.ofNat_add]
      rfl
    · intro a ha
      rw [tget_tset_ne _ _ fun h => hd.1 (List.mem_map.2 ⟨a, ha, h⟩)]
      exact hs a (List.mem_cons_of_mem _ ha)
    · intro p h a ha
      rw [← Option.some.inj h]
      exact hp.1 a ha

/-- Everything the entry loop can do (spec R252, R254). -/
theorem readEntries_sat (n : Nat) (prev : Option Entry) (staged : Table Byte) (s : State) :
    (readEntries n prev staged s).Sat (FetchesOnly s) [.ioRead, .truncated, .badLen, .dupSym, .badOrder]
      (s.inEnd = .opened) := by
  induction n generalizing prev staged s with
  | zero => exact FetchesOnly.refl s
  | succ n ih =>
    refine (fetchByte_fetches _ s).bind (fun _ h => h) (by simp) id fun x t ht => ?_
    refine (fetchByte_fetches _ t).bind (fun _ h => FetchesOnly.trans s t _ ht h) (by simp) (by rw [ht.inEnd]; exact id)
      fun l u hu => ?_
    have hsu := FetchesOnly.trans s t u ht hu
    split
    case h_1 e he =>
      refine ⟨?_, hsu⟩
      have := entryError_some he
      simp only [List.mem_cons, List.not_mem_nil, or_false] at this ⊢
      tauto
    case h_2 =>
      exact (ih _ _ u).mono (fun v hv => FetchesOnly.trans s u v hsu hv) (fun _ h => h) (by rw [hsu.inEnd]; exact id)

theorem tget_foldl_lengths (es : List Entry) (t : Table Byte) (x : Byte) (hd : (es.map fun e => e.sym).Nodup) :
    (∀ e ∈ es, e.sym = x → tget (es.foldl (fun t e => tset t e.sym e.len) t) x = e.len) ∧
      ((∀ e ∈ es, e.sym ≠ x) → tget (es.foldl (fun t e => tset t e.sym e.len) t) x = tget t x) := by
  induction es generalizing t with
  | nil => simp
  | cons a es ih =>
    rw [List.map_cons, List.nodup_cons] at hd
    rw [List.foldl_cons]
    obtain ⟨h1, h2⟩ := ih (tset t a.sym a.len) hd.2
    constructor
    · intro e he hx
      rcases List.mem_cons.1 he with rfl | he
      · rw [h2]
        · rw [← hx, tget_tset_self]
        · intro e' he' hx'
          exact hd.1 (List.mem_map.2 ⟨e', he', hx'.trans hx.symm⟩)
      · exact h1 e he hx
    · intro hx
      rw [h2 fun e he => hx e (List.mem_cons_of_mem _ he), tget_tset_ne _ _ (hx a (by simp)).symm]

/-- The lengths of entries that can stand in a header have exactly those entries (spec R176). -/
theorem EntriesOk.sortedEntries_lengthsOf {es : List Entry} (h : EntriesOk es) : sortedEntries (lengthsOf es) = es := by
  refine sorted_unique (sorted_sortedEntries _) h.sorted fun e => ?_
  obtain ⟨h1, h2⟩ := tget_foldl_lengths es (tfill 0) e.sym h.distinct
  rw [mem_sortedEntries]
  constructor
  · rintro ⟨hl, ht⟩
    by_contra hno
    by_cases hx : ∃ a ∈ es, a.sym = e.sym
    · obtain ⟨a, ha, hs⟩ := hx
      have := h1 a ha hs
      rw [lengthsOf] at ht
      rw [ht] at this
      refine hno ?_
      have : e = a := by cases e; cases a; simp_all
      rw [this]; exact ha
    · have := h2 fun a ha hs => hx ⟨a, ha, hs⟩
      rw [lengthsOf] at ht
      rw [ht] at this
      exact hl (by simpa using this)
  · intro he
    exact ⟨h.positive e he, h1 e he rfl⟩

theorem EntriesOk.length_le {es : List Entry} (h : EntriesOk es) : es.length ≤ 256 := by
  rw [← h.sortedEntries_lengthsOf]; exact length_sortedEntries _

/-- The code table of entries that can stand in a header (spec R174, R175). -/
theorem EntriesOk.codes {es : List Entry} (h : EntriesOk es) : ∃ t, codesOf es = .ok t := by
  have := (codesOf_isOk (lengthsOf es)).2
  rw [h.sortedEntries_lengthsOf] at this
  exact this ⟨h.kraft, h.single⟩

/-- The entries of a valid nonempty table can stand in a header (spec R257). -/
theorem State.TableOk.entriesOk {s : State} (h : s.TableOk) (hn : s.entry ≠ []) : EntriesOk s.entry := by
  have hd : (s.entry.map fun e => e.sym).Nodup := by rw [h.entry_eq]; exact nodup_sortedEntries _
  have hlen : lengthsOf s.entry = s.len := by
    apply table_ext
    intro x
    obtain ⟨h1, h2⟩ := tget_foldl_lengths s.entry (tfill 0) x hd
    by_cases hx : tget s.len x = 0
    · rw [lengthsOf, h2, hx, tget_tfill]
      intro e he hs
      have := (h.listed e).1 he
      rw [hs, hx] at this
      exact this.1 this.2.symm
    · rw [lengthsOf, h1 ⟨x, tget s.len x⟩ ((h.listed _).2 ⟨hx, rfl⟩) rfl]
  have hk := (codesOf_isOk s.len).1 ⟨s.code, by rw [← h.entry_eq]; exact h.codes⟩
  exact {
    nonempty := hn
    sorted := h.sorted
    distinct := hd
    positive := fun e he => ((h.listed e).1 he).1
    single := by rw [h.entry_eq]; exact hk.2
    kraft := by rw [hlen]; exact hk.1 }

theorem State.TableOk.lengthsOf_entry {s : State} (h : s.TableOk) : lengthsOf s.entry = s.len := by
  have hd : (s.entry.map fun e => e.sym).Nodup := by rw [h.entry_eq]; exact nodup_sortedEntries _
  apply table_ext
  intro x
  obtain ⟨h1, h2⟩ := tget_foldl_lengths s.entry (tfill 0) x hd
  by_cases hx : tget s.len x = 0
  · rw [lengthsOf, h2, hx, tget_tfill]
    intro e he hs
    have := (h.listed e).1 he
    rw [hs, hx] at this
    exact this.1 this.2.symm
  · rw [lengthsOf, h1 ⟨x, tget s.len x⟩ ((h.listed _).2 ⟨hx, rfl⟩) rfl]

theorem pow_256_8 : (256 : Nat) ^ 8 = 2 ^ 64 := by norm_num

/-- HdrRead on a well-formed header fetches exactly the header and installs its table (spec R252, R253). -/
theorem hdrRead_ok {s : State} {es : List Entry} {total : Nat} {rest : List Byte} {t : Table CodeWord}
    (hr : s.rcnt = 0) (h : EntriesOk es) (ht : s.fmt = true → 0 < total ∧ total < 2 ^ 64) (hc : codesOf es = .ok t)
    (hq : s.inq = headerOf s.fmt es total ++ rest) :
    hdrRead s = .ok () { s with
      inq := rest, incnt := s.incnt + BitVec.ofNat 64 (headerOf s.fmt es total).length, len := lengthsOf es
      total := if s.fmt then BitVec.ofNat 64 total else s.total, nsym := BitVec.ofNat 9 es.length
      maxlen := maxLength es, entry := es, code := t, codesValid := true } := by
  have hle := h.length_le
  have hpos : 0 < es.length := List.length_pos_iff.2 h.nonempty
  have hn : 256 * (BitVec.ofNat 8 (es.length >>> 8) : Byte).toNat + (BitVec.ofNat 8 es.length : Byte).toNat
      = es.length := by
    rw [BitVec.toNat_ofNat, BitVec.toNat_ofNat, Nat.shiftRight_eq_div_pow]; omega
  rw [headerOf, List.append_assoc, List.append_assoc] at hq
  simp only [bigEndian, List.cons_append, List.nil_append, Nat.mul_one, Nat.mul_zero, Nat.shiftRight_zero] at hq
  rw [hdrRead, hdrReadBody, if_neg (by simp [hr]), fetchByteOrEnd_cons hq, Res.bind_ok]
  simp only
  rw [fetchByte_cons .truncated rfl, Res.bind_ok, hn, hdrReadTable, if_neg (by omega),
    if_neg (by simp only [Config.nsymMax]; omega),
    readEntries_ok es ((if s.fmt then bigEndian total 8 else []) ++ rest) rfl h.positive (by simp) h.distinct h.sorted
      (by simp), Res.bind_ok, length_headerOf]
  have hbuild : ∀ u : State, u.len = lengthsOf es →
      buildCodes u = .ok () { u with
        nsym := BitVec.ofNat 9 es.length, maxlen := maxLength es, entry := es, code := t, codesValid := true } := by
    intro u hu
    rw [buildCodes_eq, hu, h.sortedEntries_lengthsOf, hc]
    simp only [State.withTable, hu, h.sortedEntries_lengthsOf]
  cases hf : s.fmt with
  | false =>
    simp only [readTotal, Bool.false_eq_true, if_false, List.nil_append, Res.bind_ok, installHeader]
    rw [hbuild _ rfl]
    simp only [Res.bind_ok, Res.onRaise_ok]
    congr 2
    · rw [BitVec.add_assoc, BitVec.add_assoc, show 2 + 2 * es.length + 0 = 1 + (1 + 2 * es.length) by omega,
        BitVec.ofNat_add, BitVec.ofNat_add]
      rfl
  | true =>
    obtain ⟨ht0, ht1⟩ := ht hf
    simp only [readTotal, if_true]
    rw [readBigEndian_ok total 8 0 rest rfl, Res.bind_ok]
    have htt : 0 * 256 ^ 8 + total % 256 ^ 8 = total := by
      rw [Nat.zero_mul, Nat.zero_add, pow_256_8, Nat.mod_eq_of_lt ht1]
    rw [htt, if_neg (by omega), Res.bind_ok, installHeader, hbuild _ rfl]
    simp only [Res.bind_ok, Res.onRaise_ok]
    congr 2
    · have h2 : BitVec.ofNat 64 2 = (1 : Word) + 1 := by decide
      rw [BitVec.ofNat_add, BitVec.ofNat_add, h2]
      generalize BitVec.ofNat 64 8 = c
      ac_rfl

/-- The code table of an empty container matches its lengths (spec R252). -/
theorem emptyTable_tableOk (s : State) : s.emptyTable.TableOk where
  count := rfl
  sorted := List.Pairwise.nil
  listed := fun e => by
    simp only [State.emptyTable_entry, State.emptyTable_len, tget_tfill, List.not_mem_nil, false_iff]
    exact fun h => h.1 h.2.symm
  bound := fun x => by simp [State.lenAt]
  attained := ⟨0, by simp [State.lenAt]⟩
  codes := rfl
  noCode := fun x _ => by simp [State.codeAt]

/-- The errors HdrRead can raise (spec R254). -/
def headerErrs : List Err :=
  [.unaligned, .ioRead, .truncated, .badCount, .badLen, .dupSym, .badOrder, .badTotal, .oversub]

theorem codesOf_error {es : List Entry} {e : Err} (h : codesOf es = .error e) : e = .badLen ∨ e = .oversub := by
  match es with
  | [] => cases h
  | [a] =>
    simp only [codesOf] at h
    split at h <;> cases h
    exact .inl rfl
  | a :: b :: es =>
    simp only [codesOf] at h
    split at h <;> cases h
    exact .inr rfl

theorem FetchesOnly.total {s t : State} (h : FetchesOnly s t) : t.total = s.total := by rw [h.1.1]

/-- FetchByteOrEnd leaves the accumulator alone (spec R94). -/
theorem fetchByteOrEnd_fetches (s : State) :
    (fetchByteOrEnd s).Sat (FetchesOnly s) [.ioRead] (s.inEnd = .opened) := by
  cases hq : s.inq with
  | nil => cases hi : s.inEnd <;> simp [fetchByteOrEnd_nil hq, hi, Res.Sat, FetchesOnly.refl]
  | cons b rest => rw [fetchByteOrEnd_cons hq]; exact ⟨⟨rfl, [b], by simp [hq]⟩, rfl, rfl⟩

/-- Everything reading total_len can do (spec R252). -/
theorem readTotal_sat (s : State) :
    (readTotal s).Sat (FetchesOnly s) [.ioRead, .truncated, .badTotal] (s.inEnd = .opened) := by
  unfold readTotal
  split
  · refine (readBigEndian_sat 8 0 s).bind (fun _ h => h) (by simp) id fun t u hu => ?_
    split
    · exact ⟨by simp, hu⟩
    · exact hu
  · exact FetchesOnly.refl s

/-- HdrRead succeeded: a valid code table that matches LEN (spec R252). -/
def HeaderOk (s t : State) : Prop := HeaderReadsOnly s t ∧ t.codesValid = true ∧ t.TableOk

/-- HdrRead raised an error: TOTAL is as before (spec R252). -/
def HeaderFailed (s : State) (e : Err) (t : State) : Prop :=
  e ∈ headerErrs ∧ HeaderReadsOnly s t ∧ t.total = s.total

theorem FetchesOnly.failed {s t : State} {e : Err} (h : FetchesOnly s t) (he : e ∈ headerErrs) : HeaderFailed s e t :=
  ⟨he, h.header, h.total⟩

theorem FetchesOnly.empty {s t : State} (h : FetchesOnly s t) : HeaderOk s t.emptyTable :=
  ⟨.trans s t _ h.header ⟨rfl, .refl t⟩, rfl, emptyTable_tableOk t⟩

/-- A fetch inside HdrRead, as a piece of its specification. -/
theorem Res.Sat.fetching {α : Type} {s t : State} {r : Res α} {es : List Err}
    (h : r.Sat (FetchesOnly t) es (t.inEnd = .opened)) (hs : FetchesOnly s t) (he : ∀ e ∈ es, e ∈ headerErrs) :
    r.Spec (fun _ => FetchesOnly s) (HeaderFailed s) (s.inEnd = .opened) :=
  h.spec (fun _ u hu => FetchesOnly.trans s t u hs hu) (fun e u hm hu => (FetchesOnly.trans s t u hs hu).failed (he e hm))
    (by rw [hs.inEnd]; exact id)

/-- Everything the body of HdrRead can do: on success it leaves a code table that matches LEN; on an error TOTAL is as
before (spec R252, R254). -/
theorem hdrReadBody_spec (s : State) :
    (hdrReadBody s).Spec (fun _ => HeaderOk s) (HeaderFailed s) (s.inEnd = .opened) := by
  unfold hdrReadBody
  split
  · exact (FetchesOnly.refl s).failed (by simp [headerErrs])
  refine ((fetchByteOrEnd_fetches s).fetching (.refl s) (by simp [headerErrs])).bind fun b0 t ht => ?_
  cases b0 with
  | none => exact ht.empty
  | some b0 =>
    refine ((fetchByte_fetches _ t).fetching ht (by simp [headerErrs])).bind fun b1 u hu => ?_
    unfold hdrReadTable
    split
    · exact hu.empty
    split
    · exact hu.failed (by simp [headerErrs])
    refine ((readEntries_sat _ _ _ u).fetching hu (by simp [headerErrs])).bind fun staged v hv => ?_
    refine ((readTotal_sat v).fetching hv (by simp [headerErrs])).bind fun total w hw => ?_
    rw [installHeader, buildCodes_eq]
    cases hc : codesOf (sortedEntries ({ w with len := staged } : State).len) with
    | error e =>
      refine ⟨?_, HeaderReadsOnly.trans s w _ hw.header ⟨rfl, .refl w⟩, hw.total⟩
      rcases codesOf_error hc with rfl | rfl <;> simp [headerErrs]
    | ok code =>
      have hT := withTable_tableOk hc
      cases total with
      | none => exact ⟨.trans s w _ hw.header ⟨rfl, .refl w⟩, rfl, hT⟩
      | some total =>
        exact ⟨.trans s w _ hw.header ⟨rfl, .refl w⟩, rfl,
          ⟨hT.count, hT.sorted, hT.listed, hT.bound, hT.attained, hT.codes, hT.noCode⟩⟩

/-- Everything HdrRead can do: as its body, and on an error no table is left (spec R252). -/
theorem hdrRead_spec (s : State) :
    (hdrRead s).Spec (fun _ => HeaderOk s) (fun e t => HeaderFailed s e t ∧ t = t.dropTable) (s.inEnd = .opened) := by
  have h := hdrReadBody_spec s
  unfold hdrRead
  cases hb : hdrReadBody s with
  | ok a t => rw [hb] at h; exact h
  | hold => rw [hb] at h; exact h
  | raise e t =>
    rw [hb] at h
    exact ⟨⟨h.1, .trans s t _ h.2.1 ⟨rfl, .refl t⟩, h.2.2⟩, rfl⟩

end Sys2Proof.Machine
end

