-- ==== Sys2Proof/Laws/Drivers.lean ====
section
/-! SUPPORT. What the drivers ENCODE and DECODE do, and what every command keeps (spec R281, R282, R53). -/

namespace Sys2Proof.Machine

variable {α β : Type}

/-! ### Properties every way to end keeps -/

/-- However a piece of pseudocode ends, the state it reaches has a property. -/
def Res.Keeps (I : State → Prop) (r : Res α) : Prop := r.Spec (fun _ => I) (fun _ => I) True

theorem Res.Keeps.bind {I : State → Prop} {r : Res α} {f : α → State → Res β} (hr : r.Keeps I)
    (hf : ∀ a t, I t → (f a t).Keeps I) : (r.bind f).Keeps I := Res.Spec.bind hr hf

theorem Res.Sat.keeps {I P : State → Prop} {r : Res α} {es : List Err} {h : Prop} (hr : r.Sat P es h)
    (hP : ∀ t, P t → I t) : r.Keeps I := hr.spec (fun _ t => hP t) (fun _ t _ => hP t) fun _ => trivial

/-- The writer's accumulator holds no bit above its count (spec R41). -/
def State.WaccOk (s : State) : Prop := s.wbits.toNat < 2 ^ s.wcnt.val

/-- The reader's accumulator holds no bit above its count (spec R42). -/
def State.RaccOk (s : State) : Prop := s.rbits.toNat < 2 ^ s.rcnt.val

theorem emit_keeps {b : Byte} {s : State} (h : s.WaccOk) : (emit b s).Keeps State.WaccOk :=
  (emit_sat b s).keeps fun t ht => by rw [State.WaccOk, ht.1]; exact h

theorem putBit_keeps {s : State} (b : Bool) (h : s.WaccOk) : (putBit b s).Keeps State.WaccOk := by
  unfold putBit
  split
  · exact emit_keeps (by simp [State.WaccOk])
  · rename_i hc
    simp only [Res.Keeps, Res.Spec, State.WaccOk] at *
    have hlt := s.wcnt.isLt
    have hv : (s.wcnt + 1).val = s.wcnt.val + 1 := by rw [Fin.val_add]; simp; omega
    rw [hv, toNat_shift_or, Nat.pow_succ]
    have hb : b.toNat ≤ 1 := by cases b <;> simp
    exact Nat.lt_of_le_of_lt (Nat.mod_le _ _) (by omega)

theorem putCode_keeps (v n : Nat) {s : State} (h : s.WaccOk) : (putCode v n s).Keeps State.WaccOk := by
  induction n generalizing s with
  | zero => exact h
  | succ n ih => exact (putBit_keeps _ h).bind fun _ t ht => ih ht

theorem flush_keeps {s : State} (h : s.WaccOk) : (flush s).Keeps State.WaccOk := by
  unfold flush
  split
  · exact h
  · exact emit_keeps (by simp [State.WaccOk])

theorem takeBit_keeps (bits : Byte) (cnt : Nat) (s : State) (hc : cnt ≤ 8) : (takeBit bits cnt s).Keeps State.RaccOk := by
  rw [takeBit_eq]
  simp only [Res.Keeps, Res.Spec, State.RaccOk]
  have h1 : (Fin.ofNat 8 (cnt - 1)).val = cnt - 1 := by simp [Fin.ofNat]; omega
  rw [h1, BitVec.toNat_ofNat]
  exact Nat.lt_of_le_of_lt (Nat.mod_le _ _) (Nat.mod_lt _ (Nat.two_pow_pos _))

theorem getBit_keeps (e : Err) {s : State} (h : s.RaccOk) : (getBit e s).Keeps State.RaccOk := by
  unfold getBit
  split
  · refine ((fetchByte_fetches e s).keeps fun t ht => ?_).bind fun b t _ => takeBit_keeps b 8 t (by omega)
    rw [State.RaccOk, ht.2.1, ht.2.2]; exact h
  · exact takeBit_keeps _ _ _ (by have := s.rcnt.isLt; omega)

theorem getBits_keeps (e : Err) (n v : Nat) {s : State} (h : s.RaccOk) : (getBits e n v s).Keeps State.RaccOk := by
  induction n generalizing v s with
  | zero => exact h
  | succ n ih => exact (getBit_keeps e h).bind fun _ t ht => ih _ ht

theorem decodeFrom_keeps (e : Err) (n l p : Nat) {s : State} (h : s.RaccOk) :
    (decodeFrom e n l p s).Keeps State.RaccOk := by
  induction n generalizing l p s with
  | zero => exact h
  | succ n ih =>
    refine (getBit_keeps e h).bind fun b t ht => ?_
    split
    · exact ht
    · exact ih _ _ ht

theorem decodeSym_keeps (e : Err) {s : State} (h : s.RaccOk) : (decodeSym e s).Keeps State.RaccOk := by
  unfold decodeSym
  split
  · exact h
  · exact decodeFrom_keeps e _ _ _ h

/-! ### ENCODE -/

/-- Everything coding one byte can do (spec R281). -/
theorem encodeByte_sat (b : Byte) (n : Nat) (s : State) :
    (encodeByte b n s).Sat (WritesOnly s) [.countMismatch, .noEntry, .ioWrite] False := by
  unfold encodeByte
  split
  · exact ⟨by simp, .refl s⟩
  · split
    · exact ⟨by simp, .refl s⟩
    · exact (putCode_sat _ _ s).mono (fun _ h => h) (by simp) id

/-- From `s` to `t` only the streams, INCNT, OUTCNT and the writer's accumulator changed: the data pass of ENCODE
(spec R281). -/
def DataPassOnly (s t : State) : Prop :=
  t = { s with inq := t.inq, incnt := t.incnt, outq := t.outq, outcnt := t.outcnt, wbits := t.wbits, wcnt := t.wcnt } ∧
    StreamsMove s t

theorem DataPassOnly.refl (s : State) : DataPassOnly s s := ⟨rfl, .refl s⟩

theorem DataPassOnly.trans (s t u : State) (h : DataPassOnly s t) (h' : DataPassOnly t u) : DataPassOnly s u :=
  ⟨by rw [h'.1, h.1], h.2.trans h'.2⟩

theorem FetchesOnly.dataPass {s t : State} (h : FetchesOnly s t) : DataPassOnly s t :=
  ⟨by rw [h.1.1, h.2.1, h.2.2], h.1.moves⟩

theorem WritesOnly.dataPass {s t : State} (h : WritesOnly s t) : DataPassOnly s t := ⟨by rw [h.1], h.moves⟩

theorem DataPassOnly.encodes {s t : State} (h : DataPassOnly s t) : EncodesOnly s t := ⟨by rw [h.1], h.2⟩

theorem DataPassOnly.inEnd {s t : State} (h : DataPassOnly s t) : t.inEnd = s.inEnd := by rw [h.1]

/-- Everything the loop of ENCODE can do (spec R281). -/
theorem encodeLoop_sat (fuel n : Nat) (s : State) :
    (encodeLoop fuel n s).Sat (DataPassOnly s) [.countMismatch, .noEntry, .ioWrite, .ioRead] (s.inEnd = .opened) := by
  induction fuel generalizing n s with
  | zero =>
    exact (fetchByteOrEnd_fetches s).bind (fun _ h => h.dataPass) (by simp) id fun _ t ht => ht.dataPass
  | succ fuel ih =>
    refine (fetchByteOrEnd_fetches s).bind (fun _ h => h.dataPass) (by simp) id fun b t ht => ?_
    cases b with
    | none => exact ht.dataPass
    | some b =>
      refine (encodeByte_sat b n t).bind (fun u hu => DataPassOnly.trans s t u ht.dataPass hu.dataPass) (by simp)
        False.elim fun _ u hu => ?_
      have hsu := DataPassOnly.trans s t u ht.dataPass hu.dataPass
      exact (ih _ u).mono (fun v hv => DataPassOnly.trans s u v hsu hv) (fun _ h => h) (by rw [hsu.inEnd]; exact id)

/-- Everything the data pass of ENCODE can do (spec R281). -/
theorem encodeData_sat (s : State) :
    (encodeData s).Sat (DataPassOnly s) [.countMismatch, .noEntry, .ioWrite, .ioRead] (s.inEnd = .opened) := by
  refine (encodeLoop_sat _ 0 s).bind (fun _ h => h) (fun _ h => h) id fun n t ht => ?_
  split
  · exact ⟨by simp, ht⟩
  · exact (flush_sat t).mono (fun u hu => DataPassOnly.trans s t u ht hu.dataPass) (by simp) False.elim

theorem encodeLoop_keeps (fuel n : Nat) {s : State} (h : s.WaccOk) : (encodeLoop fuel n s).Keeps State.WaccOk := by
  induction fuel generalizing n s with
  | zero =>
    refine ((fetchByteOrEnd_fetches s).keeps fun t ht => ?_).bind fun _ t ht => ht
    rw [State.WaccOk, ht.1.1]; exact h
  | succ fuel ih =>
    refine ((fetchByteOrEnd_fetches s).keeps fun t ht => ?_).bind fun b t ht => ?_
    · rw [State.WaccOk, ht.1.1]; exact h
    · cases b with
      | none => exact ht
      | some b =>
        refine Res.Keeps.bind (I := State.WaccOk) ?_ fun _ u hu => ih _ hu
        unfold encodeByte
        split
        · exact ht
        · split
          · exact ht
          · exact putCode_keeps _ _ ht

theorem encodeData_keeps {s : State} (h : s.WaccOk) : (encodeData s).Keeps State.WaccOk := by
  refine (encodeLoop_keeps _ _ h).bind fun n t ht => ?_
  split
  · exact ht
  · exact flush_keeps ht

/-- The loop of ENCODE codes every byte of an input that has ended, where each has a code (spec R281). -/
theorem encodeLoop_ok (data : List Byte) (n : Nat) {s : State} (hq : s.inq = data) (he : s.inEnd = .eos)
    (ho : s.outFail = false) (hc : ∀ b ∈ data, s.lenAt b ≠ 0) (hn : n + data.length ≤ s.total.toNat) :
    ∃ t, encodeLoop data.length n s = .ok (n + data.length) t ∧ DataPassOnly s t ∧ t.inq = [] ∧
      t.outBits = s.outBits ++ data.flatMap s.symBits := by
  induction data generalizing n s with
  | nil =>
    refine ⟨s, ?_, .refl s, hq, by simp⟩
    rw [List.length_nil, encodeLoop, fetchByteOrEnd_nil hq, he]
    rfl
  | cons b data ih =>
    rw [List.length_cons] at hn
    let s1 : State := { s with inq := data, incnt := s.incnt + 1 }
    obtain ⟨t, ht, hw, hb⟩ := putCode_ok (s := s1) (s.codeAt b) (s.lenAt b) ho
    have h1 : DataPassOnly s s1 := ⟨rfl, ⟨[b], by simp [s1, hq]⟩, [], by simp [s1]⟩
    have hst := DataPassOnly.trans s s1 t h1 hw.dataPass
    have hlen : t.len = s.len := by rw [hst.1]
    have hcode : t.code = s.code := by rw [hst.1]
    have htot : t.total = s.total := by rw [hst.1]
    have hsym : t.symBits = s.symBits := by
      funext x; simp only [State.symBits, State.codeAt, State.lenAt, hlen, hcode]
    obtain ⟨u, hu, hd, hi, hbu⟩ := ih (n + 1) (s := t) (by rw [hw.1]) (by rw [hst.1]; exact he) (by rw [hst.1]; exact ho)
      (fun x hx => by rw [State.lenAt, hlen]; exact hc x (List.mem_cons_of_mem _ hx))
      (by rw [htot]; omega)
    refine ⟨u, ?_, DataPassOnly.trans s t u hst hd, hi, ?_⟩
    · rw [List.length_cons, encodeLoop, fetchByteOrEnd_cons hq, Res.bind_ok]
      have hne : n ≠ s.total.toNat := by omega
      have e : encodeByte b n s1 = .ok () t := by
        rw [encodeByte, if_neg hne, if_neg (show ¬ s1.lenAt b = 0 from hc b (by simp))]; exact ht
      simp only
      rw [e, Res.bind_ok, hu]
      congr 1
      omega
    · rw [hbu, hb, hsym, List.flatMap_cons, List.append_assoc]
      rfl

/-- Everything BuildTree can do (spec R161, R335). -/
theorem buildTree_spec (s : State) :
    (buildTree s).Spec (fun _ t => t = s.withTree) (fun e t => e ∈ [Err.emptyFreq, .freqSum] ∧ t = s) False := by
  rw [buildTree_eq]
  split
  · exact ⟨by simp, rfl⟩
  · split
    · exact ⟨by simp, rfl⟩
    · exact rfl

/-- Everything BuildCodes can do (spec R171, R172). -/
theorem buildCodes_spec (s : State) :
    (buildCodes s).Spec (fun _ t => t.TableOk ∧ ∃ c, t = s.withTable c)
      (fun e t => e ∈ [Err.badLen, .oversub] ∧ t = { s.clearCodes with codesValid := false }) False := by
  rw [buildCodes_eq]
  cases h : codesOf (sortedEntries s.len) with
  | error e => exact ⟨by rcases codesOf_error h with rfl | rfl <;> simp, rfl⟩
  | ok t => exact ⟨withTable_tableOk h, t, rfl⟩

/-- The code table depends on these fields only. -/
theorem State.TableOk.congr {s t : State} (h : s.TableOk)
    (e : t = { t with len := s.len, nsym := s.nsym, maxlen := s.maxlen, entry := s.entry, code := s.code }) :
    t.TableOk := by
  rw [e]
  exact ⟨h.count, h.sorted, h.listed, h.bound, h.attained, h.codes, h.noCode⟩

/-- The errors ENCODE can raise; BAD_LEN and OVERSUB stand for its BuildCodes, which raises nothing on lengths BuildTree
wrote (spec R281, R167). -/
def encodeErrs : List Err :=
  [.unaligned, .emptyFreq, .freqSum, .badLen, .oversub, .noCodes, .ioWrite, .countMismatch, .noEntry, .ioRead]

/-- Everything ENCODE can do, but for what BuildTree's lengths rule out (spec R281). -/
theorem encodeAll_spec (s : State) :
    (encodeAll s).Spec (fun _ t => EncodesOnly s t ∧ (t.codesValid = true → t.TableOk))
      (fun e t => e ∈ encodeErrs ∧ EncodesOnly s t ∧ (t = s ∨ (t.codesValid = true → t.TableOk)))
      (s.inEnd = .opened) := by
  unfold encodeAll
  split
  · exact ⟨by simp [encodeErrs], .refl s, .inl rfl⟩
  split
  · exact ⟨⟨rfl, .refl s⟩, fun _ => emptyTable_tableOk s⟩
  refine Res.Spec.bind (P := fun _ t => t = s.withTree) ?_ fun _ t ht => ?_
  · have := buildTree_spec s
    cases h : buildTree s with
    | ok a t => rw [h] at this; exact this
    | hold => rw [h] at this; exact this.elim
    | raise e t =>
      rw [h] at this
      obtain ⟨he, rfl⟩ := this
      refine ⟨?_, .refl t, .inl rfl⟩
      simp only [List.mem_cons, List.not_mem_nil, or_false] at he
      rcases he with rfl | rfl <;> simp [encodeErrs]
  have h1 : EncodesOnly s s.withTree := ⟨rfl, .refl s⟩
  refine Res.Spec.bind (P := fun _ u => EncodesOnly s u ∧ u.TableOk ∧ u.inEnd = s.inEnd) ?_ fun _ u hu => ?_
  · have := buildCodes_spec t
    subst ht
    cases h : buildCodes s.withTree with
    | ok a u =>
      rw [h] at this
      obtain ⟨hT, c, rfl⟩ := this
      exact ⟨.trans s _ _ h1 ⟨rfl, .refl _⟩, hT, rfl⟩
    | hold => rw [h] at this; exact this.elim
    | raise e u =>
      rw [h] at this
      obtain ⟨he, rfl⟩ := this
      refine ⟨?_, .trans s _ _ h1 ⟨rfl, .refl _⟩, .inr (by simp)⟩
      simp only [List.mem_cons, List.not_mem_nil, or_false] at he
      rcases he with rfl | rfl <;> simp [encodeErrs]
  obtain ⟨hu, hT, hi⟩ := hu
  refine Res.Spec.bind (P := fun _ v => EncodesOnly s v ∧ v.TableOk ∧ v.inEnd = s.inEnd) ?_ fun _ v hv => ?_
  · refine (hdrWrite_sat u).spec (fun _ v hv => ?_) (fun e v he hv => ?_) False.elim
    · exact ⟨.trans s u v hu hv.writesOnly.encodes, hT.congr (by rw [hv.1]), by rw [hv.1]; exact hi⟩
    · refine ⟨?_, .trans s u v hu hv.writesOnly.encodes, .inr fun _ => hT.congr (by rw [hv.1])⟩
      simp only [List.mem_cons, List.not_mem_nil, or_false] at he
      rcases he with rfl | rfl | rfl <;> simp [encodeErrs]
  obtain ⟨hv, hT, hi⟩ := hv
  refine (encodeData_sat v).spec (fun _ w hw => ?_) (fun e w he hw => ?_) (by rw [hi]; exact id)
  · exact ⟨.trans s v w hv hw.encodes, fun _ => hT.congr (by rw [hw.1])⟩
  · refine ⟨?_, .trans s v w hv hw.encodes, .inr fun _ => hT.congr (by rw [hw.1])⟩
    simp only [List.mem_cons, List.not_mem_nil, or_false] at he
    rcases he with rfl | rfl | rfl | rfl <;> simp [encodeErrs]

theorem encodeAll_keeps {s : State} (h : s.WaccOk) : (encodeAll s).Keeps State.WaccOk := by
  unfold encodeAll
  split
  · exact h
  split
  · exact h
  refine Res.Keeps.bind (I := State.WaccOk) ?_ fun _ t ht => ?_
  · rw [buildTree_eq]; split
    · exact h
    · split <;> exact h
  refine Res.Keeps.bind (I := State.WaccOk) ?_ fun _ u hu => ?_
  · rw [buildCodes_eq]; split <;> exact ht
  refine Res.Keeps.bind (I := State.WaccOk) ?_ fun _ v hv => encodeData_keeps hv
  exact (hdrWrite_sat u).keeps fun v hv => by rw [State.WaccOk, hv.1]; exact hu

/-- No code is held while the code table is not valid (spec R47). -/
def State.CodeOk (s : State) : Prop := s.codesValid = false → ∀ x, s.codeAt x = 0

theorem State.CodeOk.congr {s t : State} (h : s.CodeOk)
    (e : t = { t with code := s.code, codesValid := s.codesValid }) : t.CodeOk := by
  rw [e]; exact h

theorem State.CodeOk.of_code {s : State} (h : s.code = tfill 0) : s.CodeOk := fun _ x => by simp [State.codeAt, h]

theorem State.CodeOk.of_valid {s : State} (h : s.codesValid = true) : s.CodeOk := fun hf => by simp [h] at hf

theorem buildTree_codeOk {s : State} (h : s.CodeOk) : (buildTree s).Keeps State.CodeOk := by
  rw [buildTree_eq]
  split
  · exact h
  · split
    · exact h
    · exact .of_code rfl

theorem buildCodes_codeOk (s : State) : (buildCodes s).Keeps State.CodeOk := by
  rw [buildCodes_eq]
  split
  · exact .of_code rfl
  · exact .of_valid rfl

theorem hdrRead_codeOk (s : State) : (hdrRead s).Keeps State.CodeOk := by
  have h := hdrRead_spec s
  cases hr : hdrRead s with
  | ok a t => rw [hr] at h; exact .of_valid h.2.1
  | hold => exact trivial
  | raise e t =>
    rw [hr] at h
    show t.CodeOk
    rw [h.2]
    exact .of_code rfl

theorem encodeAll_codeOk {s : State} (h : s.CodeOk) : (encodeAll s).Keeps State.CodeOk := by
  unfold encodeAll
  split
  · exact h
  split
  · exact .of_valid rfl
  refine (buildTree_codeOk h).bind fun _ t _ => ?_
  refine (buildCodes_codeOk t).bind fun _ u hu => ?_
  refine Res.Keeps.bind ((hdrWrite_sat u).keeps (I := State.CodeOk) fun v hv => hu.congr (by rw [hv.1])) fun _ v hv => ?_
  exact (encodeData_sat v).keeps fun w hw => hv.congr (by rw [hw.1])

/-! ### DECODE -/

/-- From `s` to `t` only the streams, INCNT, OUTCNT, the reader's accumulator and REMAIN changed: the payload pass of
DECODE (spec R282). -/
def PayloadOnly (s t : State) : Prop :=
  t = { s with inq := t.inq, incnt := t.incnt, outq := t.outq, outcnt := t.outcnt, rbits := t.rbits, rcnt := t.rcnt
               remain := t.remain } ∧
    StreamsMove s t

theorem PayloadOnly.refl (s : State) : PayloadOnly s s := ⟨rfl, .refl s⟩

theorem PayloadOnly.trans (s t u : State) (h : PayloadOnly s t) (h' : PayloadOnly t u) : PayloadOnly s u :=
  ⟨by rw [h'.1, h.1], h.2.trans h'.2⟩

theorem ReadsOnly.payload {s t : State} (h : ReadsOnly s t) : PayloadOnly s t := ⟨by rw [h.1], h.moves⟩

theorem EmitsOnly.payload {s t : State} (h : EmitsOnly s t) : PayloadOnly s t :=
  ⟨by rw [h.1], h.writesOnly.moves⟩

theorem PayloadOnly.decodes {s t : State} (h : PayloadOnly s t) : DecodesOnly s t := ⟨by rw [h.1], h.2⟩

theorem PayloadOnly.inEnd {s t : State} (h : PayloadOnly s t) : t.inEnd = s.inEnd := by rw [h.1]

/-- Everything the loop of DECODE can do (spec R282). -/
theorem decodeLoop_sat (n : Nat) (s : State) :
    (decodeLoop n s).Sat (PayloadOnly s) [.ioRead, .truncated, .badCode, .ioWrite] (s.inEnd = .opened) := by
  induction n generalizing s with
  | zero => exact PayloadOnly.refl s
  | succ n ih =>
    refine (decodeSym_sat _ s).bind (fun _ h => h.payload) (by simp) id fun x t ht => ?_
    refine (emit_sat x t).bind (fun u hu => PayloadOnly.trans s t u ht.payload hu.payload) (by simp) False.elim
      fun _ u hu => ?_
    have hsu := PayloadOnly.trans s t u ht.payload hu.payload
    have h2 : PayloadOnly u { u with remain := u.remain - 1 } := ⟨rfl, .refl u⟩
    have hsv := PayloadOnly.trans s u _ hsu h2
    exact (ih _).mono (fun v hv => PayloadOnly.trans s _ v hsv hv) (fun _ h => h) (by rw [hsv.inEnd]; exact id)

/-- Everything the payload pass of DECODE can do (spec R282). -/
theorem decodeData_sat (s : State) :
    (decodeData s).Sat (PayloadOnly s) [.ioRead, .truncated, .badCode, .ioWrite, .badPad] (s.inEnd = .opened) := by
  have h0 : PayloadOnly s { s with remain := s.total } := ⟨rfl, .refl s⟩
  refine (decodeLoop_sat _ _).bind (fun t ht => PayloadOnly.trans s _ t h0 ht) (by simp) id fun _ t ht => ?_
  have hst := PayloadOnly.trans s _ t h0 ht
  rw [align_eq]
  split
  · exact ⟨by simp, hst⟩
  · exact PayloadOnly.trans s t _ hst ⟨rfl, .refl t⟩

theorem decodeLoop_keeps (n : Nat) {s : State} (h : s.RaccOk) : (decodeLoop n s).Keeps State.RaccOk := by
  induction n generalizing s with
  | zero => exact h
  | succ n ih =>
    refine (decodeSym_keeps _ h).bind fun x t ht => ?_
    refine Res.Keeps.bind (I := State.RaccOk) ((emit_sat x t).keeps fun u hu => ?_) fun _ u hu => ih hu
    rw [State.RaccOk, hu.1]; exact ht

theorem decodeData_keeps {s : State} (h : s.RaccOk) : (decodeData s).Keeps State.RaccOk := by
  refine Res.Keeps.bind (decodeLoop_keeps _ (by exact h)) fun _ t ht => ?_
  rw [align_eq]
  split
  · exact ht
  · simp [Res.Keeps, Res.Spec, State.RaccOk]

/-- The loop of DECODE emits the symbols whose codes come, where they all have one (spec R282). -/
theorem decodeLoop_ok {s0 : State} (data : List Byte) (rest : List Bool) {s : State}
    (hlen : s.len = s0.len) (hcode : s.code = s0.code) (hsame : s.TableOk) (ho : s.outFail = false)
    (hc : ∀ b ∈ data, s0.lenAt b ≠ 0) (hin : s.inBits = data.flatMap s0.symBits ++ rest) :
    ∃ t, decodeLoop data.length s = .ok () t ∧ PayloadOnly s t ∧ t.outq = s.outq ++ data ∧ t.inBits = rest ∧
      t.remain = s.remain - BitVec.ofNat 64 data.length := by
  induction data generalizing s with
  | nil => exact ⟨s, rfl, .refl s, by simp, hin, by simp⟩
  | cons b data ih =>
    have hsym : s.symBits = s0.symBits := by
      funext x; simp only [State.symBits, State.codeAt, State.lenAt, hlen, hcode]
    rw [List.flatMap_cons, List.append_assoc, ← hsym] at hin
    obtain ⟨t, ht, hr, hb⟩ := decodeSym_ok hsame .truncated (x := b)
      (by rw [State.lenAt, hlen]; exact hc b (by simp)) hin
    let u : State := { t with outq := t.outq ++ [b], outcnt := t.outcnt + 1, remain := t.remain - 1 }
    have hto : t.outFail = false := by rw [hr.1]; exact ho
    have htu : PayloadOnly t u := ⟨rfl, ⟨[], by simp [u]⟩, [b], rfl, rfl⟩
    have hsu := PayloadOnly.trans s t u hr.payload htu
    obtain ⟨v, hv, hp, hq, hbv, hrem⟩ := ih (s := u) (by rw [hsu.1]; exact hlen) (by rw [hsu.1]; exact hcode)
      (hsame.congr (by rw [hsu.1])) hto (fun x hx => hc x (List.mem_cons_of_mem _ hx)) (by rw [← hsym]; exact hb)
    refine ⟨v, ?_, PayloadOnly.trans s u v hsu hp, ?_, hbv, ?_⟩
    · rw [List.length_cons, decodeLoop, ht, Res.bind_ok, emit_ok _ hto, Res.bind_ok]
      exact hv
    · rw [hq, show u.outq = t.outq ++ [b] from rfl, show t.outq = s.outq by rw [hr.1], List.append_assoc]
      rfl
    · rw [hrem, show u.remain = t.remain - 1 from rfl, show t.remain = s.remain by rw [hr.1], List.length_cons,
        BitVec.ofNat_add, BitVec.sub_sub, BitVec.add_comm]
      rfl

/-- Everything DECODE can do (spec R282). -/
theorem decodeAll_spec (s : State) :
    (decodeAll s).Spec (fun _ t => DecodesOnly s t ∧ (t.codesValid = true → t.TableOk))
      (fun e t => e ∈ raisedBy .decode ∧ DecodesOnly s t ∧ (t.codesValid = true → t.TableOk))
      (s.inEnd = .opened) := by
  unfold decodeAll
  refine Res.Spec.bind (P := fun _ => HeaderOk s) ?_ fun _ t ht => ?_
  · have h := hdrRead_spec s
    cases hr : hdrRead s with
    | ok a t => rw [hr] at h; exact h
    | hold => rw [hr] at h; exact h
    | raise e t =>
      rw [hr] at h
      obtain ⟨⟨he, hh, _⟩, hd⟩ := h
      refine ⟨?_, hh.decodes, by rw [hd]; simp⟩
      simp only [headerErrs, List.mem_cons, List.not_mem_nil, or_false] at he
      rcases he with rfl | rfl | rfl | rfl | rfl | rfl | rfl | rfl | rfl <;> simp [raisedBy]
  obtain ⟨hh, _, hT⟩ := ht
  have hi : t.inEnd = s.inEnd := by rw [hh.1]
  refine (decodeData_sat t).spec (fun _ u hu => ?_) (fun e u he hu => ?_) (by rw [hi]; exact id)
  · exact ⟨.trans s t u hh.decodes hu.decodes, fun _ => hT.congr (by rw [hu.1])⟩
  · refine ⟨?_, .trans s t u hh.decodes hu.decodes, fun _ => hT.congr (by rw [hu.1])⟩
    simp only [List.mem_cons, List.not_mem_nil, or_false] at he
    rcases he with rfl | rfl | rfl | rfl | rfl <;> simp [raisedBy]

theorem decodeAll_keeps {s : State} (h : s.RaccOk) : (decodeAll s).Keeps State.RaccOk := by
  unfold decodeAll
  refine Res.Keeps.bind (I := State.RaccOk) ?_ fun _ t ht => decodeData_keeps ht
  have hs := hdrRead_spec s
  have key : ∀ t, HeaderReadsOnly s t → t.RaccOk := fun t ht => by rw [State.RaccOk, ht.1]; exact h
  cases hr : hdrRead s with
  | ok a t => rw [hr] at hs; exact key t hs.1
  | hold => exact trivial
  | raise e t => rw [hr] at hs; exact key t hs.1.2.1

theorem decodeAll_codeOk (s : State) : (decodeAll s).Keeps State.CodeOk := by
  unfold decodeAll
  refine (hdrRead_codeOk s).bind fun _ t ht => ?_
  exact (decodeData_sat t).keeps fun u hu => ht.congr (by rw [hu.1])

end Sys2Proof.Machine
end

