-- ==== Sys2Proof/Laws/HostPort.lean ====
section
/-! SUPPORT. What the host's moves can do (spec R85 to R89, R100, R104). -/

namespace Sys2Proof.Machine

/-- A CMD write does one of three things (spec R100). -/
theorem issue_cases (s : State) (w : Word) :
    (s.busy = true ∧ s.issue w = { s with ovr := true }) ∨
      (s.busy = false ∧ ((s.fatal = true ∧ w ≠ 1) ∨ (s.err = true ∧ ¬ (w = 0 ∨ w = 1 ∨ w = 2))) ∧ s.issue w = s) ∨
      (s.busy = false ∧ (s.fatal = true → w = 1) ∧ (s.err = true → w = 0 ∨ w = 1 ∨ w = 2) ∧
        s.issue w = { s with pending := some w }) := by
  have hm : w ∉ ([0, 1, 2] : List Word) ↔ ¬ (w = 0 ∨ w = 1 ∨ w = 2) := by simp
  unfold State.issue
  by_cases hb : s.busy = true
  · rw [if_pos hb]; exact .inl ⟨hb, rfl⟩
  · rw [if_neg hb]
    have hb' : s.busy = false := by simpa using hb
    by_cases hf : s.fatal = true ∧ w ≠ 1
    · rw [if_pos hf]; exact .inr (.inl ⟨hb', .inl hf, rfl⟩)
    · rw [if_neg hf]
      have hf' : s.fatal = true → w = 1 := fun h => Decidable.not_not.1 fun hw => hf ⟨h, hw⟩
      by_cases he : s.err = true ∧ w ∉ ([0, 1, 2] : List Word)
      · rw [if_pos he]; exact .inr (.inl ⟨hb', .inr ⟨he.1, hm.1 he.2⟩, rfl⟩)
      · rw [if_neg he]
        refine .inr (.inr ⟨hb', hf', fun h => ?_, rfl⟩)
        exact Decidable.not_not.1 fun hw => he ⟨h, hm.2 hw⟩

/-- A register write does nothing, sets OVR, or has the effect of the register's row (spec R85 to R89). -/
theorem memWrite_cases (s : State) (addr width : Nat) (v : Word) :
    ((width ≠ 8 ∨ regAt addr = none) ∧ s.memWrite addr width v = s) ∨
      (width = 8 ∧ ∃ r, regAt addr = some r ∧
        s.memWrite addr width v = if s.busy then { s with ovr := true } else s.writeReg r v) := by
  unfold State.memWrite
  by_cases hw : width = 8
  · subst hw
    rw [if_neg (by simp [Config.accessWidth])]
    cases hr : regAt addr with
    | none => exact .inl ⟨.inr rfl, rfl⟩
    | some r => exact .inr ⟨rfl, r, rfl, rfl⟩
  · rw [if_pos (by simpa [Config.accessWidth] using hw)]
    exact .inl ⟨.inl hw, rfl⟩

/-- A register read (spec R85, R88). -/
theorem memRead_cases (s : State) (addr width : Nat) :
    s.memRead addr width = if width = 8 then ((regAt addr).map s.readReg).getD 0 else 0 := by
  unfold State.memRead
  by_cases hw : width = 8
  · subst hw
    rw [if_neg (by simp [Config.accessWidth]), if_pos rfl]
    cases regAt addr <;> rfl
  · rw [if_pos (by simpa [Config.accessWidth] using hw), if_neg hw]

/-- Every register lies at its address (spec R31 to R47). -/
theorem regAt_addr (r : Reg) : regAt r.addr = some r := by
  cases r with
  | freq s => revert s; decide +kernel
  | len s => revert s; decide +kernel
  | entry s => revert s; decide +kernel
  | code s => revert s; decide +kernel
  | _ => decide +kernel

/-- A slot holds the register whose address it has, or it is one of the reserved ones. -/
def slotOk (k : Nat) : Bool :=
  match regAt (8 * k) with
  | some r =>
    if r = .reserved then (0x0E ≤ k ∧ k ≤ 0xFF) ∨ (0x500 ≤ k ∧ k ≤ 0x7FF) else r.addr = 8 * k
  | none => false

/-- What lies at each of the 2048 slots (spec R81, R86). -/
theorem regAt_slot : ∀ k : Fin 2048,
    (∃ r, regAt (8 * k.val) = some r ∧ r ≠ .reserved ∧ r.addr = 8 * k.val) ∨
      (regAt (8 * k.val) = some .reserved ∧ ((0x0E ≤ k.val ∧ k.val ≤ 0xFF) ∨ (0x500 ≤ k.val ∧ k.val ≤ 0x7FF))) := by
  have h : ∀ k : Fin 2048, slotOk k.val = true := by decide +kernel
  intro k
  have hk := h k
  unfold slotOk at hk
  cases hr : regAt (8 * k.val) with
  | none => rw [hr] at hk; cases hk
  | some r =>
    rw [hr] at hk
    by_cases h0 : r = .reserved
    · subst h0; exact .inr ⟨rfl, by simpa using hk⟩
    · exact .inl ⟨r, rfl, h0, by simpa [h0] using hk⟩

/-- The register at a valid address is at its own address or is reserved (spec R81, R85, R86). -/
theorem regAt_valid {a : Nat} (h : a % 8 = 0) (h' : a < 0x4000) :
    (∃ r, regAt a = some r ∧ r ≠ .reserved ∧ r.addr = a) ∨
      (regAt a = some .reserved ∧ ((0x0070 ≤ a ∧ a ≤ 0x07F8) ∨ (0x2800 ≤ a ∧ a ≤ 0x3FF8))) := by
  have hk := regAt_slot ⟨a / 8, by omega⟩
  have ha : 8 * (a / 8) = a := by omega
  simp only [ha] at hk
  rcases hk with hk | ⟨hk, hr⟩
  · exact .inl hk
  · exact .inr ⟨hk, by omega⟩

theorem regAt_invalid {a : Nat} (h : a % 8 ≠ 0 ∨ 0x4000 ≤ a) : regAt a = none := by
  unfold regAt
  exact if_pos h

/-- No register lies at an address exactly where it is misaligned or out of range (spec R85). -/
theorem regAt_none_iff (a : Nat) : regAt a = none ↔ a % 8 ≠ 0 ∨ 0x4000 ≤ a := by
  refine ⟨fun hn => ?_, regAt_invalid⟩
  by_contra h
  rcases regAt_valid (a := a) (by omega) (by omega) with ⟨r, hr, _⟩ | ⟨hr, _⟩ <;> rw [hr] at hn <;> cases hn

/-- No host move gives a fault, and only a move that is not enabled is refused (spec R104). -/
theorem hostMove_answers {m : HostMove} {s : State} :
    (∃ t, hostMove m s = .next t) ∨ hostMove m s = .refused (.hostMoveNotEnabled m) := by
  cases m <;> simp only [hostMove]
  case pop => cases s.outq <;> simp
  all_goals first | exact .inl ⟨_, rfl⟩ | (split <;> simp)

end Sys2Proof.Machine
end

