-- ==== Sys2Proof/Laws/PerInstr.lean ====
section
/-! SUPPORT. The word of each command: OP in bits [7:0], ARG in bits [15:8], the rest 0, and the command is well formed
exactly when ArgOK takes its ARG (spec R120, R125, R126). -/

namespace Sys2Proof.Laws.CommandWord

/-- The fields of a command's word, and when the command is well formed. -/
def Statement (i : Instr) : Prop :=
  (encode i).toNat = 256 * i.arg.toNat + i.op.code.toNat ∧ i.wf = i.op.argOk i.arg

theorem commandWord_toNat (op arg : Byte) : (commandWord op arg).toNat = 256 * arg.toNat + op.toNat := by
  have h1 := op.isLt
  have h2 := arg.isLt
  rw [commandWord, BitVec.toNat_or, BitVec.toNat_shiftLeft, BitVec.toNat_setWidth, BitVec.toNat_setWidth,
    Nat.mod_eq_of_lt (by omega : arg.toNat < 2 ^ 64), Nat.mod_eq_of_lt (by omega : op.toNat < 2 ^ 64),
    Nat.mod_eq_of_lt (by rw [Nat.shiftLeft_eq]; omega), ← Nat.shiftLeft_add_eq_or_of_lt h1, Nat.shiftLeft_eq]
  omega

theorem fields (i : Instr) : (encode i).toNat = 256 * i.arg.toNat + i.op.code.toNat := commandWord_toNat _ _

theorem nop : Statement .nop := ⟨fields _, rfl⟩
theorem reset : Statement .reset := ⟨fields _, rfl⟩
theorem errClear : Statement .errClear := ⟨fields _, rfl⟩
theorem buildTree : Statement .buildTree := ⟨fields _, rfl⟩
theorem buildCodes : Statement .buildCodes := ⟨fields _, rfl⟩

theorem putBit (arg : Byte) : Statement (.putBit arg) := ⟨fields _, by revert arg; decide +kernel⟩

theorem putBits (arg : Byte) : Statement (.putBits arg) := ⟨fields _, rfl⟩
theorem flush : Statement .flush := ⟨fields _, rfl⟩
theorem encSym (arg : Byte) : Statement (.encSym arg) := ⟨fields _, rfl⟩
theorem getBit : Statement .getBit := ⟨fields _, rfl⟩
theorem getBits (arg : Byte) : Statement (.getBits arg) := ⟨fields _, rfl⟩
theorem align : Statement .align := ⟨fields _, rfl⟩
theorem decSym : Statement .decSym := ⟨fields _, rfl⟩
theorem hdrWrite : Statement .hdrWrite := ⟨fields _, rfl⟩
theorem hdrRead : Statement .hdrRead := ⟨fields _, rfl⟩
theorem encode : Statement .encode := ⟨fields _, rfl⟩
theorem decode : Statement .decode := ⟨fields _, rfl⟩

end Sys2Proof.Laws.CommandWord
end

