-- ==== Sys2Proof/Laws/Step.lean ====
section
/-! SUPPORT. What a core step and a turn can do (spec R98, R101, R124). -/

namespace Sys2Proof.Machine

/-! ### The commands as pseudocode -/

/-- The pseudocode of each command: what `exec` runs and then ends with `finish` (spec R124, R101). -/
def Instr.pseudo (i : Instr) (s : State) : Res Unit :=
  match i with
  | .nop => .ok () s
  | .reset => .ok () s.resetBlock
  | .errClear => .ok () s.clearError
  | .buildTree => buildTree s
  | .buildCodes => buildCodes s
  | .putBit arg => if Op.argOk .putBit arg then putBit (arg.getLsbD 0) s else .raise .badArg s
  | .putBits arg => if Op.argOk .putBits arg then putCode s.data.toNat arg.toNat s else .raise .badArg s
  | .flush => flush s
  | .encSym arg => encSym arg s
  | .getBit => (getBit .ioEnd s).bind fun b s => .ok () { s with data := BitVec.ofNat 64 b.toNat }
  | .getBits arg =>
    if Op.argOk .getBits arg then
      (getBits .ioEnd arg.toNat 0 s).bind fun v s => .ok () { s with data := BitVec.ofNat 64 v }
    else .raise .badArg s
  | .align => align s
  | .decSym => decSym s
  | .hdrWrite => hdrWrite s
  | .hdrRead => hdrRead s
  | .encode => encodeAll s
  | .decode => decodeAll s

/-- `exec` runs the command's pseudocode and ends the core step. -/
theorem exec_eq (i : Instr) (s : State) : exec i s = finish i.op s (Instr.pseudo i s) := by cases i <;> rfl

/-- Every command answers a next state (spec R339). -/
theorem exec_answers (i : Instr) (s : State) : ∃ t, exec i s = .next t := by
  rw [exec_eq]; exact finish_answers ..

/-! ### A core step and a turn -/

theorem coreStep_none {s : State} (h : s.pending = none) : coreStep s = .next s := by simp [coreStep, h]

theorem coreStep_ok {s : State} {w : Word} {i : Instr} (h : s.pending = some w) (hd : decode w = .ok i) :
    coreStep s = exec i s := by simp [coreStep, h, hd]

theorem coreStep_error {s : State} {w : Word} {e : DecodeError} (h : s.pending = some w) (hd : decode w = .error e) :
    coreStep s = .next (rejectWord w e s) := by simp [coreStep, h, hd]

/-- A core step always answers a next state (spec R101). -/
theorem coreStep_answers (s : State) : ∃ t, coreStep s = .next t := by
  unfold coreStep
  split
  · exact ⟨_, rfl⟩
  · split
    · exact exec_answers _ _
    · exact ⟨_, rfl⟩

/-- What a turn can be (spec R98). -/
theorem step_cases {s t : State} (h : step s = .next t) :
    (s.script = [] ∧ coreStep s = .next t) ∨
      (∃ rest, s.script = .core :: rest ∧ coreStep { s with script := rest } = .next t) ∨
      (∃ m rest, s.script = .host m :: rest ∧ hostMove m { s with script := rest } = .next t) ∨
      (∃ rest, s.script = .wait :: rest ∧ t = pollStatus { s with script := rest }) := by
  unfold step takeTurn at h
  cases hs : s.script with
  | nil => rw [hs] at h; exact .inl ⟨rfl, h⟩
  | cons a rest =>
    rw [hs] at h
    cases a with
    | core => exact .inr (.inl ⟨rest, rfl, h⟩)
    | host m => exact .inr (.inr (.inl ⟨m, rest, rfl, h⟩))
    | wait =>
      refine .inr (.inr (.inr ⟨rest, rfl, ?_⟩))
      have : Host.Outcome.next (pollStatus { s with script := rest }) =
          (Host.Outcome.next t : Host.Outcome State Fault Refusal) := h
      injection this with this
      exact this.symm

theorem step_core {s : State} (h : s.script = []) : step s = coreStep s := by simp [step, takeTurn, h]

theorem step_core_cons {s : State} {rest : List Turn} (h : s.script = .core :: rest) :
    step s = coreStep { s with script := rest } := by simp [step, takeTurn, h]

theorem step_host {s : State} {m : HostMove} {rest : List Turn} (h : s.script = .host m :: rest) :
    step s = hostMove m { s with script := rest } := by simp [step, takeTurn, h]

end Sys2Proof.Machine
end

