-- ==== Sys2Proof/Tests/Slice0.lean ====
section
/-! SUPPORT. The model's own tests: well-formedness, words written out from the spec's encoding, one step of each command
against the spec's examples, and for each statement with hypotheses a state that meets them. -/

namespace Sys2Proof.Tests

open Sys2Proof Sys2Proof.Machine

set_option Elab.async false

/-! ### Well-formedness (spec R126) -/

theorem test_wf_refuses_put_bit_2 : (Instr.putBit 2).wf = false := by decide
theorem test_wf_refuses_put_bits_65 : (Instr.putBits 65).wf = false := by decide
theorem test_wf_refuses_get_bits_255 : (Instr.getBits 255).wf = false := by decide
theorem test_wf_takes_the_bounds : (Instr.putBit 1).wf = true ∧ (Instr.putBits 64).wf = true ∧
    (Instr.getBits 64).wf = true ∧ (Instr.encSym 255).wf = true := by decide

/-! ### Words from the format of R120 and the opcode map of R125 -/

theorem test_word_nop : decode 0x0000000000000000#64 = .ok .nop := by decide
theorem test_word_reset : decode 0x0000000000000001#64 = .ok .reset := by decide
theorem test_word_err_clear : decode 0x0000000000000002#64 = .ok .errClear := by decide
theorem test_word_build_tree : decode 0x0000000000000010#64 = .ok .buildTree := by decide
theorem test_word_build_codes : decode 0x0000000000000011#64 = .ok .buildCodes := by decide
theorem test_word_put_bit : decode 0x0000000000000120#64 = .ok (.putBit 1) := by decide
theorem test_word_put_bits : decode 0x0000000000000521#64 = .ok (.putBits 5) := by decide
theorem test_word_flush : decode 0x0000000000000022#64 = .ok .flush := by decide
theorem test_word_enc_sym : decode 0x0000000000006223#64 = .ok (.encSym 0x62) := by decide
theorem test_word_get_bit : decode 0x0000000000000028#64 = .ok .getBit := by decide
theorem test_word_get_bits : decode 0x0000000000000C29#64 = .ok (.getBits 12) := by decide
theorem test_word_align : decode 0x000000000000002A#64 = .ok .align := by decide
theorem test_word_dec_sym : decode 0x000000000000002B#64 = .ok .decSym := by decide
theorem test_word_hdr_write : decode 0x0000000000000030#64 = .ok .hdrWrite := by decide
theorem test_word_hdr_read : decode 0x0000000000000031#64 = .ok .hdrRead := by decide
theorem test_word_encode : decode 0x0000000000000040#64 = .ok .encode := by decide
theorem test_word_decode : decode 0x0000000000000041#64 = .ok .decode := by decide

/-- The three checks in their order (spec R124, R127). -/
theorem test_words_refused : decode 0x03#64 = .error .illegalOp ∧ decode 0x10003#64 = .error .illegalOp ∧
    decode 0x10000#64 = .error .reservedBits ∧ decode 0x8000000000000220#64 = .error .reservedBits ∧
    decode 0x0100#64 = .error .badArg ∧ decode 0x0220#64 = .error .badArg ∧ decode 0x4121#64 = .error .badArg := by
  decide

/-- A table word of more bits than a register is no command (log entry 5). -/
theorem test_table_words : decodeTableWord 64 0x6223 = some (.encSym 0x62) ∧ decodeTableWord 8 0x6228 = some .getBit ∧
    decodeTableWord 128 (2 ^ 64) = none := by decide

/-! ### One step of each command -/

/-- The state after the core performed the command word `w` from `s`. -/
def run1 (w : Nat) (s : State) : Option State :=
  match step (s.withFetchWord 64 w) with
  | .next t => some t
  | _ => none

/-- The lengths of the spec's example: a 1, b 2, c 2 (spec R172). -/
def abcLen : Table Byte := tset (tset (tset (tfill 0) 0x61 1) 0x62 2) 0x63 2

/-- Its codes: a `0`, b `10`, c `11` (spec R172). -/
def abcCode : Table CodeWord := tset (tset (tfill 0) 0x62 0b10) 0x63 0b11

/-- The histogram of "aaaabc" (spec R160). -/
def abcFreq : Table Word := tset (tset (tset (tfill 0) 0x61 4) 0x62 1) 0x63 1

/-- The reset state with the code table of the example. -/
def abc : State := ({ State.reset with len := abcLen, total := 6 } : State).withTable abcCode

/-- The container of "aaaabc" with FMT = 1 (spec R296). -/
def abcContainer : List Byte :=
  [0x00, 0x03, 0x61, 0x01, 0x62, 0x02, 0x63, 0x02, 0, 0, 0, 0, 0, 0, 0, 0x06, 0x0B]

/-- The header of the example with FMT = 1 (spec R251). -/
def abcHeader : List Byte := [0x00, 0x03, 0x61, 0x01, 0x62, 0x02, 0x63, 0x02, 0, 0, 0, 0, 0, 0, 0, 0x06]

def aaaabc : List Byte := [0x61, 0x61, 0x61, 0x61, 0x62, 0x63]

/-- R310: NOP only ends. -/
theorem test_nop : run1 0x00 { abc with err := true } = some { abc with err := true } := rfl

/-- R311's example. -/
theorem test_reset : run1 0x01 { abc with err := true, fatal := true, errcode := 0x400203 } = some State.reset := rfl

/-- R312's example. -/
theorem test_err_clear :
    run1 0x02 { State.reset with err := true, ovr := true, errcode := 0x2B0301, rcnt := 3, rbits := 5 } =
      some { State.reset with rcnt := 3, rbits := 5 } := rfl

/-- R89 and R47: a write to LEN['a'] leaves no code, and the entries as they were (log entry 8). -/
theorem test_len_write : (abc.memWrite 0x1308 8 0x1FF).codesValid = false ∧
    (abc.memWrite 0x1308 8 0x1FF).memRead 0x1308 8 = 0xFF ∧ (abc.memWrite 0x1308 8 0x1FF).memRead 0x2318 8 = 0 ∧
    (abc.memWrite 0x1308 8 0x1FF).entry = abc.entry := by decide +kernel

/-- R160's example. -/
theorem test_build_tree : (run1 0x10 { State.reset with freq := abcFreq }).map
    (fun t => (t.len.toList, t.total, t.codesValid, t.err)) = some (abcLen.toList, 6, false, false) := by decide +kernel

/-- R160: two entries of 2^63 raise FREQ_SUM. -/
theorem test_build_tree_sum : (run1 0x10 { State.reset with
    freq := tset (tset (tfill 0) 1 0x8000000000000000) 2 0x8000000000000000 }).map
    (fun t => (t.errcode, t.fatal, t.total)) = some (0x100204, true, 0) := by decide +kernel

/-- R172's example. -/
theorem test_build_codes : (run1 0x11 { State.reset with len := abcLen }).map
    (fun t => (t.code.toList, t.nsym, t.maxlen, t.codesValid)) = some (abcCode.toList, 3, 2, true) := by decide +kernel

/-- R172: three symbols of length 1 raise OVERSUB. -/
theorem test_build_codes_oversub : (run1 0x11 { abc with len := tset (tset (tset (tfill 0) 1 1) 2 1) 3 1 }).map
    (fun t => (t.errcode, t.nsym, t.entry, t.codesValid)) = some (0x110307, 0, [], false) := by decide +kernel

/-- R210's example. -/
theorem test_put_bit : (run1 0x0120 { State.reset with wbits := 0b1011001, wcnt := 7 }).map
    (fun t => (t.outq, t.wcnt, t.wbits, t.outcnt)) = some ([0xB3], 0, 0, 1) := by decide +kernel

/-- R210: with a failing sink the byte is lost. -/
theorem test_put_bit_fails : (run1 0x0120 { State.reset with wbits := 0b1011001, wcnt := 7, outFail := true }).map
    (fun t => (t.outq, t.wcnt, t.errcode)) = some ([], 0, 0x200102) := by decide +kernel

/-- R211's example. -/
theorem test_put_bits : (run1 0x0321 { State.reset with data := 5 }).map
    (fun t => (t.outq, t.wcnt, t.wbits)) = some ([], 3, 0b101) := by decide +kernel

/-- R211: N = 64 emits the bytes of DATA, the most significant first. -/
theorem test_put_bits_64 : (run1 0x4021 { State.reset with data := 0x0123456789ABCDEF }).map
    (fun t => (t.outq, t.wcnt)) = some ([0x01, 0x23, 0x45, 0x67, 0x89, 0xAB, 0xCD, 0xEF], 0) := by decide +kernel

/-- R212's example. -/
theorem test_flush : (run1 0x22 { State.reset with wbits := 0b101, wcnt := 3 }).map
    (fun t => (t.outq, t.wcnt, t.wbits)) = some ([0xA0], 0, 0) := by decide +kernel

/-- R213's example. -/
theorem test_enc_sym : (run1 0x6223 abc).map (fun t => (t.wbits, t.wcnt)) = some (0b10, 2) := by decide +kernel

/-- R213: a symbol without a code is fatal. -/
theorem test_enc_sym_no_entry : (run1 0x6423 abc).map (fun t => (t.errcode, t.fatal, t.wcnt)) =
    some (0x230202, true, 0) := by decide +kernel

/-- R220's example. -/
theorem test_get_bit : (run1 0x28 { State.reset with inq := [0x80] }).map
    (fun t => (t.data, t.rbits, t.rcnt, t.inq, t.incnt)) = some (1, 0, 7, [], 1) := by decide +kernel

/-- R220: an open, empty input holds the command. -/
theorem test_get_bit_holds : (run1 0x28 State.reset).map (fun t => t.pending) = some (some 0x28) := by decide +kernel

/-- R221's example. -/
theorem test_get_bits : (run1 0x0C29 { State.reset with inq := [0x12, 0x34] }).map
    (fun t => (t.data, t.rbits, t.rcnt)) = some (0x123, 0x4, 4) := by decide +kernel

/-- R221: the end of the input; DATA stays. -/
theorem test_get_bits_end : (run1 0x0C29 { State.reset with inq := [0x12], inEnd := .eos, data := 9 }).map
    (fun t => (t.data, t.errcode, t.incnt)) = some (9, 0x290103, 1) := by decide +kernel

/-- R222's example. -/
theorem test_align : (run1 0x2A { State.reset with rcnt := 3 }).map (fun t => t.rcnt) = some 0 ∧
    (run1 0x2A { State.reset with rcnt := 3, rbits := 0b010 }).map (fun t => (t.rcnt, t.errcode)) =
      some (3, 0x2A0309) := by decide +kernel

/-- R223: the last two symbols of the example byte 0x0B. -/
theorem test_dec_sym : (run1 0x2B { abc with rcnt := 4, rbits := 0b1011 }).map (fun t => (t.data, t.rcnt, t.rbits)) =
    some (0x62, 2, 0b11) := by decide +kernel

/-- R223: with the single-symbol table the bit 0 is no code. -/
theorem test_dec_sym_bad_code :
    (run1 0x2B { ({ State.reset with len := tset (tfill 0) 0x61 1 } : State).withTable (tset (tfill 0) 0x61 1) with
      inq := [0x7F] }).map (fun t => (t.errcode, t.rcnt)) = some (0x2B0308, 7) := by decide +kernel

/-- R251's example. -/
theorem test_hdr_write : (run1 0x30 abc).map (fun t => (t.outq, t.outcnt)) = some (abcHeader, 16) ∧
    (run1 0x30 { abc with fmt := false }).map (fun t => t.outq) = some (abcHeader.take 8) := by decide +kernel

/-- R253's example. -/
theorem test_hdr_read : (run1 0x31 { State.reset with inq := abcContainer }).map
    (fun t => ((t.len.toList, t.code.toList), t.nsym, t.maxlen, t.total, t.inq)) =
      some ((abcLen.toList, abcCode.toList), 3, 2, 6, [0x0B]) := by decide +kernel

/-- R255: the OVERSUB vector. -/
theorem test_hdr_read_oversub : (run1 0x31 { abc with
    inq := [0x00, 0x03, 0x61, 0x01, 0x62, 0x01, 0x63, 0x01, 0, 0, 0, 0, 0, 0, 0, 0x03] }).map
    (fun t => (t.errcode, t.codesValid, t.len.toList, t.total, t.incnt)) =
      some (0x310307, false, List.replicate 256 0, 6, 16) := by decide +kernel

/-- R281's example. -/
theorem test_encode : (run1 0x40 { State.reset with freq := abcFreq, inq := aaaabc, inEnd := .eos }).map
    (fun t => (t.outq, t.incnt, t.total, t.wcnt)) = some (abcContainer, 6, 6, 0) := by decide +kernel

/-- R281: a failing sink stops ENCODE at the first byte of the header, with the table built. -/
theorem test_encode_fails : (run1 0x40 { State.reset with freq := abcFreq, inq := aaaabc, inEnd := .eos, outFail := true }).map
    (fun t => (t.errcode, t.total, t.codesValid, t.outq)) = some (0x400102, 6, true, []) := by decide +kernel

/-- R282's example, with a byte after the container. -/
theorem test_decode : (run1 0x41 { State.reset with inq := abcContainer ++ [0xFF] }).map
    (fun t => (t.outq, t.inq, t.total, t.remain, t.rcnt, t.err)) =
      some (aaaabc, [0xFF], 6, 0, 0, false) := by decide +kernel

/-- R140 to R144: a program in the assembler syntax and its turns. -/
theorem test_assembler : assembleText ["cmd PUT_BITS, 5 ; five bits", "push 1, 0x02", "feed"] =
    some [.host (.memWrite 0x20 8 0x0521), .host (.push 1), .host (.push 2), .host .closeEos] := by decide +kernel

/-- R140, R142: a `cmd` line whose word would pass 64 bits is no line, as the `wr` line it stands for. -/
theorem test_assembler_range : assembleText ["cmd NOP, 0x0100000000000000"] = none ∧
    assembleText ["wr CMD, 0x10000000000000000"] = none ∧
    assembleText ["cmd NOP, 0xFFFFFFFFFFFFFF"] = some [.host (.memWrite 0x20 8 0xFFFFFFFFFFFFFF00)] := by decide +kernel

/-! ### States that meet the hypotheses of the statements -/

theorem codesOf_of_toList {es : List Entry} {t : Table CodeWord}
    (h : (codesOf es).toOption.map Vector.toList = some t.toList) : codesOf es = .ok t := by
  cases hc : codesOf es with
  | error e => simp [hc, Except.toOption] at h
  | ok u =>
    simp only [hc, Except.toOption, Option.map_some, Option.some.injEq] at h
    rw [Vector.toList_inj.1 h]

theorem kraftSum_toList (t : Table Byte) :
    kraftSum t = (t.toList.map fun l => if l = 0 then 0 else 2 ^ (255 - l.toNat)).sum := by
  rw [toList_eq_map, List.map_map]; rfl

theorem totalFreq_toList (s : State) : s.totalFreq = (s.freq.toList.map fun f => f.toNat).sum := (freqSum_eq s).symm

theorem histogram_of_toList {s : State} {data : List Byte}
    (h : (s.freq.toList.map fun f => f.toNat) = allBytes.map fun x => data.count x) : s.HasHistogram data := by
  rw [toList_eq_map, List.map_map, List.map_inj_left] at h
  exact fun x => h x (mem_allBytes x)

theorem abc_codes : codesOf (sortedEntries abcLen) = .ok abcCode := codesOf_of_toList (by decide +kernel)

theorem abc_tableOk : abc.TableOk := withTable_tableOk abc_codes

theorem idle_inv (s : State) (hw : s.wbits.toNat < 2 ^ s.wcnt.val) (hr : s.rbits.toNat < 2 ^ s.rcnt.val)
    (hc : s.codesValid = false) (h0 : s.code = tfill 0) (hf : s.fatal = true → s.err = true) (he : s.err = false → s.errcode = 0)
    (hp : s.pending = none) : s.Inv :=
  ⟨hw, hr, by simp [hc], State.CodeOk.of_code h0, hf, he, by simp [hp]⟩

theorem valid_inv (s : State) (hv : s.codesValid = true) (hT : s.TableOk) (hw : s.wbits.toNat < 2 ^ s.wcnt.val)
    (hr : s.rbits.toNat < 2 ^ s.rcnt.val) (hf : s.fatal = false) (he : s.errcode = 0) (hp : s.pending = none) : s.Inv :=
  ⟨hw, hr, fun _ => hT, State.CodeOk.of_valid hv, by simp [hf], fun _ => he, by simp [hp]⟩

theorem abc_inv : abc.Inv := valid_inv abc rfl abc_tableOk (by decide) (by decide) rfl rfl rfl

/-- The entries of the example. -/
def abcEntries : List Entry := [⟨0x61, 1⟩, ⟨0x62, 2⟩, ⟨0x63, 2⟩]

theorem abcEntries_ok : EntriesOk abcEntries where
  nonempty := by decide
  sorted := by simp [abcEntries, Entry.lt]
  distinct := by decide
  positive := by decide
  single := by simp [abcEntries]
  kraft := by rw [kraftSum_toList]; decide +kernel

/-- The state that encodes "aaaabc". -/
def abcInput : State := { State.reset with freq := abcFreq, inq := aaaabc, inEnd := .eos }

theorem abcInput_histogram : abcInput.HasHistogram aaaabc := histogram_of_toList (by decide +kernel)

theorem abcInput_totalFreq : abcInput.totalFreq = 6 := by rw [totalFreq_toList]; decide +kernel

/-- A state whose FREQ sums to 2^64. -/
def heavy : State := { State.reset with freq := tset (tset (tfill 0) 1 0x8000000000000000) 2 0x8000000000000000 }

theorem heavy_totalFreq : heavy.totalFreq = 2 ^ 64 := by rw [totalFreq_toList]; decide +kernel

/-- A code table of one symbol, 0x61. -/
def single : State := ({ State.reset with len := tset (tfill 0) 0x61 1 } : State).withTable (tset (tfill 0) 0x61 1)

theorem single_tableOk : single.TableOk := withTable_tableOk (codesOf_of_toList (by decide +kernel))

/-- The state a command answers. -/
def ex (i : Instr) (s : State) : State :=
  match exec i s with
  | .next t => t
  | _ => s

theorem exec_ex (i : Instr) (s : State) : exec i s = .next (ex i s) := by
  obtain ⟨t, ht⟩ := exec_answers i s
  rw [ex, ht]

theorem witness_DecodeInvertsEncode : (Instr.putBits 64).wf = true ∧ (Instr.putBit 1).wf = true ∧
    (Instr.encSym 255).wf = true := by decide

theorem witness_DecodedWordIsEncoded : ∃ w i, decode w = .ok i := ⟨0x4029, .getBits 64, by decide⟩

theorem witness_IllegalWordsAreRecorded :
    (∃ s w, State.pending s = some w ∧ w.toNat % 256 ∉ opcodeValues) ∧
    (∃ s w, State.pending s = some w ∧ w.toNat % 256 ∈ opcodeValues ∧ 2 ^ 16 ≤ w.toNat) ∧
    (∃ s w, State.pending s = some w ∧ w.toNat % 256 ∈ opcodeValues ∧ w.toNat < 2 ^ 16 ∧
      ¬ ArgFits (w.toNat % 256) (w.toNat / 256)) ∧
    ∃ s w, State.pending s = some w ∧ w.toNat % 256 ∈ opcodeValues ∧ w.toNat < 2 ^ 16 ∧
      ArgFits (w.toNat % 256) (w.toNat / 256) :=
  ⟨⟨State.reset.withPending 0xFF, 0xFF, rfl, by decide⟩,
    ⟨State.reset.withPending 0x10000, 0x10000, rfl, by decide, by decide⟩,
    ⟨State.reset.withPending 0x4121, 0x4121, rfl, by decide, by decide, by simp [ArgFits]⟩,
    State.reset.withPending 0x4021, 0x4021, rfl, by decide, by decide, by simp [ArgFits]⟩

theorem witness_StepRunsDecodedCommand :
    (∃ s w i, State.pending s = some w ∧ decode w = .ok i ∧ s.script = []) ∧
    ∃ s w i rest, State.pending s = some w ∧ decode w = .ok i ∧ s.script = .core :: rest :=
  ⟨⟨State.reset.withPending 0x40, 0x40, .encode, rfl, by decide, rfl⟩,
    { State.reset.withPending 0x40 with script := [.core, .wait] }, 0x40, .encode, [.wait], rfl, by decide, rfl⟩

theorem witness_ErrorIsRecorded : (Err.ioRead, 0x0101) ∈ errorCodes ∧ (Err.freqSum, 0x0204) ∈ errorCodes := by decide

theorem witness_OnlyListedErrorsAreRaised : ∃ t, exec .buildTree State.reset = .next t ∧ t.err = true :=
  ⟨_, exec_ex _ _, by decide +kernel⟩

theorem witness_OnlyResetLeavesFatal :
    (∃ s t, State.fatal s = true ∧ step s = .next t ∧ t.fatal = true) ∧
    (∃ s t, State.fatal s = true ∧ step s = .next t ∧ s.pending = some 1) ∧
    ∃ s t rest, State.fatal s = true ∧ step s = .next t ∧ s.script = .host .hardReset :: rest :=
  ⟨⟨{ State.reset with fatal := true, err := true }, _, rfl, rfl, rfl⟩,
    ⟨{ State.reset.withPending 1 with fatal := true, err := true }, _, rfl, exec_ex .reset _, rfl⟩,
    { State.reset with fatal := true, err := true, script := [.host .hardReset] }, _, [], rfl, rfl, rfl⟩

theorem witness_ResetWritesEveryField : exec .reset abc = .next State.reset ∧
    hostMove .hardReset abc = .next State.reset := ⟨rfl, rfl⟩

theorem witness_OnlyHardResetDiscardsPending : ∃ s t m w, State.pending s = some w ∧ m ≠ .hardReset ∧
    hostMove m s = .next t :=
  ⟨State.reset.withPending 0x40, _, .memWrite 0x20 8 1, 0x40, rfl, by decide, rfl⟩

theorem witness_EveryStepKeepsInvariant : ∃ t, abc.Inv ∧ step abc = .next t := ⟨abc, abc_inv, rfl⟩

theorem witness_ValidCodesArePrefixFree : abc.Inv ∧ abc.codesValid = true := ⟨abc_inv, rfl⟩

theorem witness_ReadsAndIgnoredAccesses : regAt 0x27F8 = some (.code 255) ∧
    (7 ≠ 8 ∨ 0x28 % 8 ≠ 0 ∨ 0x4000 ≤ 0x28) ∧ (8 ≠ 8 ∨ 0x2C % 8 ≠ 0 ∨ 0x4000 ≤ 0x2C) ∧
    (8 ≠ 8 ∨ 0x4000 % 8 ≠ 0 ∨ 0x4000 ≤ 0x4000) ∧
    (State.reset.withPending 0x28).pending = some 0x28 ∧ 0x3FF8 % 8 = 0 ∧ 0x3FF8 < 0x4000 := by decide

theorem witness_WriteEffects : State.reset.pending = none ∧
    ∀ a ∈ [0x0000, 0x0010, 0x0018, 0x0070, 0x07F8, 0x1800, 0x27F8, 0x3FF8],
      a % 8 = 0 ∧ a < 0x4000 ∧ a ≠ 0x0008 ∧ a ≠ 0x0020 ∧ a ≠ 0x0028 ∧ a ≠ 0x0030 ∧ ¬ (0x0800 ≤ a ∧ a < 0x1800) :=
  ⟨rfl, by decide⟩

theorem witness_ModesAcceptTheirWords :
    (∃ s t w, State.Inv s ∧ s.pending = none ∧ hostMove (.memWrite 0x0020 8 w) s = .next t ∧ s.mode = .idle) ∧
    (∃ s t w, State.Inv s ∧ s.pending = none ∧ hostMove (.memWrite 0x0020 8 w) s = .next t ∧ s.mode = .error) ∧
    ∃ s t w, State.Inv s ∧ s.pending = none ∧ hostMove (.memWrite 0x0020 8 w) s = .next t ∧ s.mode = .fatal := by
  refine ⟨⟨abc, _, 0x40, abc_inv, rfl, rfl, rfl⟩, ⟨{ State.reset with err := true }, _, 3, ?_, rfl, rfl, rfl⟩,
    { State.reset with err := true, fatal := true }, _, 1, ?_, rfl, rfl, rfl⟩
  · exact idle_inv _ (by decide) (by decide) rfl rfl (by simp) (by simp) rfl
  · exact idle_inv _ (by decide) (by decide) rfl rfl (by simp) (by simp) rfl

theorem witness_RegisterReads : abc.entry[(2 : Byte).toNat]? = some ⟨0x63, 2⟩ ∧ abc.entry.length ≤ (3 : Byte).toNat ∧
    0x0070 ≤ 0x07F8 ∧ 0x2800 ≤ 0x3FF8 := by decide +kernel

theorem witness_StreamMoves : State.reset.inEnd = .opened ∧ State.reset.pending = none ∧
    ({ State.reset with outq := [7] } : State).outq = 7 :: [] := ⟨rfl, rfl, rfl⟩

theorem witness_OutputIsFifo :
    (∃ t, step { State.reset with outq := [7], script := [.host .pop] } = .next t ∧ t.taken = [7]) ∧
    (∃ t, step { State.reset with outcnt := 5, script := [.host .hardReset] } = .next t ∧ t.outcnt = 0) ∧
    ∃ t, step { State.reset.withPending 1 with outcnt := 5 } = .next t ∧ t.outcnt = 0 :=
  ⟨⟨_, rfl, rfl⟩, ⟨_, rfl, rfl⟩, _, rfl, rfl⟩

theorem witness_CommandsMoveStreamsInOrder :
    (∃ t, exec .flush { State.reset with wcnt := 3 } = .next t ∧ canHold .flush = false) ∧
    ∃ t, exec .getBit { State.reset with inq := [1] } = .next t ∧ Err.ioWrite ∉ raisedBy .getBit :=
  ⟨⟨_, exec_ex _ _, rfl⟩, _, exec_ex _ _, by decide⟩

theorem witness_OnlyOwnersWriteRegisters : ∃ t, exec .align State.reset = .next t := exec_answers _ _

theorem witness_WriterAndReaderAreSeparate :
    (∃ t, exec .getBit { State.reset with inq := [1] } = .next t) ∧ ∃ t, exec .flush State.reset = .next t :=
  ⟨exec_answers _ _, exec_answers _ _⟩

theorem witness_PutBitAppendsOneBit : (1 : Byte).toNat ≤ 1 ∧ ({ State.reset with wcnt := 6 } : State).wcnt.val < 7 ∧
    ({ State.reset with wcnt := 7 } : State).wcnt.val = 7 ∧ State.reset.outFail = false ∧
    ({ State.reset with wcnt := 7, outFail := true } : State).outFail = true := by decide

theorem witness_PutBitsAppendsLowBits : ((64 : Byte).toNat ≤ 64 ∧ State.reset.outFail = false) ∧
    (3 : Byte).toNat ≤ 64 ∧ ({ State.reset with wcnt := 4, outFail := true } : State).wcnt.val + (3 : Byte).toNat < 8 ∧
    State.reset.wbits.toNat < 2 ^ State.reset.wcnt.val := by decide

theorem witness_EncSymAppendsCode : abc.codesValid = true ∧ abc.lenAt 0x62 ≠ 0 ∧ abc.outFail = false ∧
    ({ abc with outFail := true, wcnt := 5 } : State).wcnt.val + abc.lenAt 0x62 < 8 := by decide +kernel

theorem witness_SymbolCommandsNeedCodes : State.reset.codesValid = false ∧
    (abc.codesValid = true ∧ abc.lenAt 0x64 = 0) ∧
    State.reset.emptyTable.codesValid = true ∧ State.reset.emptyTable.nsym = 0 := by decide +kernel

theorem witness_FlushPadsTheLastByte : State.reset.wcnt.val = 0 ∧
    (({ State.reset with wcnt := 7 } : State).wcnt.val ≠ 0 ∧ State.reset.outFail = false) ∧
    ({ State.reset with wcnt := 1, outFail := true } : State).wcnt.val ≠ 0 := by decide

theorem witness_FailedEmissionLosesBits :
    ({ abc with outFail := true, wcnt := 6 } : State).outFail = true ∧ (2 : Byte).toNat ≤ 64 ∧ 8 ≤ 6 + (2 : Byte).toNat ∧
    abc.codesValid = true ∧ abc.lenAt 0x62 ≠ 0 ∧ 8 ≤ 6 + abc.lenAt 0x62 := by decide +kernel

theorem witness_GetBitReadsNextBit : ({ State.reset with inq := [0x80] } : State).inBits =
    true :: List.replicate 7 false := by decide

theorem witness_GetBitsReadsBits : (64 : Byte).toNat ≤ 64 ∧
    ({ State.reset with inq := List.replicate 9 0xFF } : State).inBits = List.replicate 64 true ++ List.replicate 8 true ∧
    (List.replicate 64 true).length = (64 : Byte).toNat := by decide +kernel

theorem witness_RawReadPastTheEnd : State.reset.inBits = [] ∧ State.reset.inEnd = .opened ∧
    ({ State.reset with inEnd := .eos } : State).inBits = [] ∧ ({ State.reset with inEnd := .fail } : State).inBits = [] ∧
    (64 : Byte).toNat ≤ 64 ∧ ({ State.reset with inq := [1] } : State).inBits.length < (9 : Byte).toNat := by decide

theorem witness_AlignDropsZeroBits : ({ State.reset with rcnt := 7 } : State).rbits = 0 ∧
    ({ State.reset with rcnt := 7, rbits := 1 } : State).rbits ≠ 0 := by decide

/-- The state that has the last four bits of the example byte unread. -/
def abcReading : State := { abc with rcnt := 4, rbits := 0b1011 }

theorem witness_DecSymReadsOneCode : abcReading.Inv ∧ abcReading.codesValid = true ∧ abcReading.lenAt 0x62 ≠ 0 ∧
    abcReading.inBits = abcReading.symBits 0x62 ++ [true, true] :=
  ⟨valid_inv _ rfl (abc_tableOk.congr rfl) (by decide) (by decide) rfl rfl rfl, rfl, by decide +kernel, by decide +kernel⟩

/-- The single-symbol table with an input. -/
def singleReading (q : List Byte) (e : InEnd) : State := { single with inq := q, inEnd := e }

theorem singleReading_inv (q : List Byte) (e : InEnd) : (singleReading q e).Inv :=
  valid_inv _ rfl (single_tableOk.congr rfl) (show (0 : Byte).toNat < 2 ^ 0 by decide) (show (0 : Byte).toNat < 2 ^ 0 by decide)
    rfl rfl rfl

/-- An entry of a table with one nonzero entry. -/
theorem tset_tfill_ne {n : Nat} (a : Byte) (v : BitVec n) (hv : v ≠ 0) (x : Byte) :
    (tget (tset (tfill 0) a v) x).toNat ≠ 0 ↔ x = a := by
  rw [tget_tset]
  split
  · simp_all [BitVec.toNat_eq]
  · simp_all

/-- The unread bits begin with no code of the single-symbol table: enough bits, then too few. -/
theorem witness_DecSymFindsNoCode : ∀ s ∈ [singleReading [0x00] .opened, singleReading [] .opened,
      singleReading [] .eos, singleReading [] .fail],
    s.Inv ∧ s.codesValid = true ∧ s.nsym ≠ 0 ∧ ∀ x, s.lenAt x ≠ 0 → ¬ s.symBits x <+: s.inBits := by
  intro s hs
  simp only [List.mem_cons, List.not_mem_nil, or_false] at hs
  rcases hs with rfl | rfl | rfl | rfl <;>
    refine ⟨singleReading_inv _ _, by decide +kernel, by decide +kernel, fun x hx => ?_⟩ <;>
    obtain rfl := (tset_tfill_ne 0x61 (1 : Byte) (by decide) x).1 hx <;>
    decide +kernel

theorem witness_BuildTreeWritesLeafDepths :
    (∀ x, State.reset.freqAt x = 0) ∧
    2 ^ 64 ≤ heavy.totalFreq ∧
    ((∃ x, abcInput.freqAt x ≠ 0) ∧ abcInput.totalFreq < 2 ^ 64 ∧ (0x61 : Byte) ≠ 0x62 ∧ abcInput.freqAt 0x61 ≠ 0 ∧
      abcInput.freqAt 0x62 ≠ 0) ∧
    ∀ y, ({ State.reset with freq := tset (tfill 0) 5 0xFFFFFFFFFFFFFFFF } : State).freqAt y ≠ 0 ↔ y = 5 := by
  refine ⟨fun x => by simp [State.freqAt, State.reset, tget], heavy_totalFreq.ge,
    ⟨⟨0x61, by decide +kernel⟩, by rw [abcInput_totalFreq]; decide, by decide, by decide +kernel, by decide +kernel⟩,
    fun y => tset_tfill_ne 5 _ (by decide) y⟩

theorem witness_TreeLengthsMeetKraftEquality : abcInput.totalFreq < 2 ^ 64 ∧ (∃ x, abcInput.freqAt x ≠ 0) ∧
    (∃ t, exec .buildTree abcInput = .next t) ∧ ∃ x y, x ≠ y ∧ abcInput.freqAt x ≠ 0 ∧ abcInput.freqAt y ≠ 0 :=
  ⟨by rw [abcInput_totalFreq]; decide, ⟨0x61, by decide +kernel⟩, exec_answers _ _, 0x61, 0x62, by decide,
    by decide +kernel, by decide +kernel⟩

theorem witness_BuildCodesAcceptsKraftSets : kraftSum abcLen = 2 ^ 255 ∧
    ∀ x, (∀ y, abc.lenAt y ≠ 0 ↔ y = x) → abc.lenAt x = 1 := by
  refine ⟨by rw [kraftSum_toList]; decide +kernel, fun x h => ?_⟩
  have h1 := (h 0x61).1 (by decide +kernel)
  have h2 := (h 0x62).1 (by decide +kernel)
  rw [← h1] at h2
  exact absurd h2 (by decide)

theorem witness_BuildCodesRefusesOthers :
    2 ^ 255 < kraftSum (tset (tset (tset (tfill 0) 1 1) 2 1) 3 1) ∧
    (∀ y, ({ State.reset with len := tset (tfill 0) 7 2 } : State).lenAt y ≠ 0 ↔ y = 7) ∧
    ({ State.reset with len := tset (tfill 0) 7 2 } : State).lenAt 7 ≠ 1 :=
  ⟨by rw [kraftSum_toList]; decide +kernel, fun y => tset_tfill_ne 7 _ (by decide) y, by decide +kernel⟩

theorem witness_CodesAreCanonical : (single.TableOk ∧ single.entry = [⟨0x61, 1⟩]) ∧
    abc.TableOk ∧ 2 ≤ abc.entry.length ∧ abc.entry[0]? = some ⟨0x61, 1⟩ ∧ abc.entry[1]? = some ⟨0x62, 2⟩ :=
  ⟨⟨single_tableOk, by decide +kernel⟩, abc_tableOk, by decide +kernel, by decide +kernel, by decide +kernel⟩

theorem witness_HdrWriteEmitsHeader : State.reset.codesValid = false ∧
    (abc.codesValid = true ∧ ({ abc with wcnt := 1 } : State).wcnt.val ≠ 0) ∧
    (State.reset.emptyTable.codesValid = true ∧ State.reset.emptyTable.nsym = 0) ∧
    (abc.wcnt.val = 0 ∧ abc.nsym ≠ 0 ∧ abc.nsym.toNat = abc.entry.length ∧ abc.outFail = false) ∧
    ({ abc with outFail := true } : State).outFail = true := by decide +kernel

theorem witness_HdrReadInstallsHeader : ∃ s rest, State.rcnt s = 0 ∧ EntriesOk abcEntries ∧ s.fmt = true ∧ 0 < 6 ∧
    6 < 2 ^ 64 ∧ s.inq = headerOf s.fmt abcEntries 6 ++ rest :=
  ⟨{ State.reset with inq := abcContainer }, [0x0B], rfl, abcEntries_ok, rfl, by decide, by decide, by decide +kernel⟩

theorem witness_HdrReadEmptyContainer :
    (State.reset.rcnt.val = 0 ∧ ({ State.reset with inEnd := .eos } : State).inEnd = .eos) ∧
    ({ State.reset with inq := [0, 0] } : State).inq = 0x00#8 :: 0x00#8 :: [] := ⟨⟨rfl, rfl⟩, rfl⟩

theorem witness_FailedHdrReadLeavesNoTable : ∃ t, abc.err = false ∧
    exec .hdrRead { abc with inq := [0x01, 0x01] } = .next t ∧ t.err = true :=
  ⟨_, rfl, exec_ex _ _, by decide +kernel⟩

theorem witness_HdrReadOfPartOfHeader : ∀ n ∈ [InEnd.opened, .eos, .fail], ∀ k ∈ [0, 15], ∃ s missing,
    State.rcnt s = 0 ∧ EntriesOk abcEntries ∧ 0 < 6 ∧ 6 < 2 ^ 64 ∧ s.inq ++ missing = headerOf s.fmt abcEntries 6 ∧
    missing ≠ [] ∧ (k = 15 → s.inq ≠ []) ∧ s.inEnd = n := by
  intro n _ k hk
  refine ⟨{ State.reset with inq := abcHeader.take k, inEnd := n }, abcHeader.drop k, rfl, abcEntries_ok, by decide,
    by decide, ?_, ?_, ?_, rfl⟩
  · show abcHeader.take k ++ abcHeader.drop k = headerOf true abcEntries 6
    rw [List.take_append_drop]; decide +kernel
  all_goals
    simp only [List.mem_cons, List.not_mem_nil, or_false] at hk
    rcases hk with rfl | rfl <;> simp [abcHeader]

theorem witness_HdrReadChecksInOrder :
    ({ State.reset with rcnt := 1 } : State).rcnt.val ≠ 0 ∧
    (256 < 257 ∧ 257 < 65536 ∧ [0x01#8, 0x01#8] = bigEndian 257 2 ++ []) ∧
    (abcEntries.length < 4 ∧ 4 ≤ 256 ∧ abcEntries.Pairwise Entry.lt ∧ (abcEntries.map fun a => a.sym).Nodup ∧
      (∀ a ∈ abcEntries, a.len ≠ 0)) ∧
    (⟨0x64, 0⟩ : Entry).len = 0 ∧
    ((⟨0x63, 3⟩ : Entry).len ≠ 0 ∧ (0x63#8) ∈ abcEntries.map fun a => a.sym) ∧
    (0x00#8) ∉ (abcEntries.map fun a => a.sym) ∧ ∃ a ∈ abcEntries, ¬ a.lt ⟨0x00, 2⟩ := by
  refine ⟨by decide, by decide, ⟨by decide, by decide, abcEntries_ok.sorted, by decide, by decide⟩, by decide,
    by decide, by decide, ⟨0x63, 2⟩, by decide, by simp [Entry.lt]⟩

theorem witness_HdrReadChecksWholeHeader : abcEntries ≠ [] ∧ abcEntries.Pairwise Entry.lt ∧
    (abcEntries.map fun a => a.sym).Nodup ∧ (∀ a ∈ abcEntries, a.len ≠ 0) ∧ State.reset.fmt = true ∧
    (⟨0x61, 2⟩ : Entry).len ≠ 1 ∧
    2 ^ 255 < kraftSum (lengthsOf [⟨0x61, 1⟩, ⟨0x62, 1⟩, ⟨0x63, 1⟩]) ∧
    ([⟨0x61, 1⟩, ⟨0x62, 1⟩, ⟨0x63, 1⟩] : List Entry).Pairwise Entry.lt :=
  ⟨by decide, abcEntries_ok.sorted, by decide, by decide, rfl, by decide, by rw [kraftSum_toList]; decide +kernel,
    by simp [Entry.lt]⟩

theorem witness_HdrReadInvertsHdrWrite : ∃ t u header rest, abc.Inv ∧ abc.codesValid = true ∧ abc.nsym ≠ 0 ∧
    abc.wcnt.val = 0 ∧ abc.outFail = false ∧ abc.total ≠ 0 ∧ exec .hdrWrite abc = .next t ∧
    t.outq = abc.outq ++ header ∧ State.fmt u = abc.fmt ∧ u.rcnt.val = 0 ∧ u.inq = header ++ rest :=
  ⟨_, { State.reset with inq := abcContainer }, abcHeader, [0x0B], abc_inv, rfl, by decide +kernel, rfl, rfl,
    by decide, exec_ex _ _, by decide +kernel, rfl, rfl, by decide⟩

theorem witness_EmptyDataIsEmptyContainer : (State.reset.wcnt.val = 0 ∧ ∀ x, State.reset.freqAt x = 0) ∧
    State.reset.rcnt.val = 0 ∧ State.reset.rbits = 0 ∧ State.reset.inq = [] ∧
    ({ State.reset with inEnd := .eos } : State).inEnd = .eos ∧
    ({ State.reset with inq := [0, 0] } : State).inq = 0x00#8 :: 0x00#8 :: [] :=
  ⟨⟨rfl, fun x => by simp [State.freqAt, State.reset, tget]⟩, rfl, rfl, rfl, rfl, rfl⟩

theorem witness_EncodeEmitsContainer : aaaabc ≠ [] ∧ aaaabc.length < 2 ^ 64 ∧
    abcInput.totalFreq = aaaabc.length ∧ (∀ x ∈ aaaabc, abcInput.freqAt x ≠ 0) ∧ abcInput.wcnt.val = 0 ∧
    abcInput.outFail = false ∧ abcInput.inq = aaaabc ∧ abcInput.inEnd = .eos :=
  ⟨by decide, by decide, abcInput_totalFreq, by decide +kernel, rfl, rfl, rfl, rfl⟩

theorem witness_EncodeRefusesBadInput : ({ State.reset with wcnt := 1 } : State).wcnt.val ≠ 0 ∧
    2 ^ 64 ≤ heavy.totalFreq ∧
    (abcInput.totalFreq < 2 ^ 64 ∧ abcInput.totalFreq ≠ 0 ∧ ∀ y ∈ aaaabc, abcInput.freqAt y ≠ 0) ∧
    ({ abcInput with outFail := true } : State).outFail = true ∧
    ((aaaabc.take 5).length < abcInput.totalFreq ∧ abcInput.freqAt 0x64 = 0) ∧
    aaaabc.length = abcInput.totalFreq ∧ aaaabc.length ≤ abcInput.totalFreq ∧
    ({ abcInput with inEnd := .fail } : State).inEnd = .fail := by
  rw [abcInput_totalFreq, heavy_totalFreq]; decide +kernel

theorem witness_EncodeWaitsForTheEnd : ({ abcInput with inEnd := .opened } : State).inEnd = .opened ∧
    abcInput.totalFreq < 2 ^ 64 ∧ abcInput.totalFreq ≠ 0 ∧ (∀ y ∈ abcInput.inq, abcInput.freqAt y ≠ 0) ∧
    abcInput.inq.length ≤ abcInput.totalFreq := by
  rw [abcInput_totalFreq]; decide +kernel

theorem witness_EncodeIsDeterminedByItsInput : ∃ t t', abcInput.inEnd ≠ .opened ∧ abcInput.totalFreq < 2 ^ 64 ∧
    exec .encode abcInput = .next t ∧ exec .encode { abcInput with data := 9, outq := [1] } = .next t' := by
  obtain ⟨t, ht⟩ := exec_answers .encode abcInput
  obtain ⟨t', ht'⟩ := exec_answers .encode { abcInput with data := 9, outq := [1] }
  exact ⟨t, t', by decide, by rw [abcInput_totalFreq]; decide, ht, ht'⟩

theorem witness_DecodeEmitsTheData : ∃ s, State.rcnt s = 0 ∧ s.rbits = 0 ∧ s.outFail = false ∧ EntriesOk abcEntries ∧
    codesOf abcEntries = .ok abcCode ∧ (∀ x ∈ aaaabc, tget (lengthsOf abcEntries) x ≠ 0) ∧ aaaabc.length < 2 ^ 64 ∧
    aaaabc ≠ [] ∧ IsPacked (codeBits abcCode (lengthsOf abcEntries) aaaabc) [0x0B] ∧
    s.inq = headerOf s.fmt abcEntries aaaabc.length ++ [0x0B] ++ [0xFF] :=
  ⟨{ State.reset with inq := abcContainer ++ [0xFF] }, rfl, rfl, rfl, abcEntries_ok,
    codesOf_of_toList (by decide +kernel), by decide +kernel, by decide, by decide, ⟨0, by decide, by decide +kernel⟩, by decide +kernel⟩

/-- The entry of the single-symbol table. -/
def singleEntries : List Entry := [⟨0x61, 1⟩]

theorem singleEntries_ok : EntriesOk singleEntries where
  nonempty := by decide
  sorted := by simp [singleEntries]
  distinct := by decide
  positive := by decide
  single := by simp [singleEntries]
  kraft := by rw [kraftSum_toList]; decide +kernel

/-- The state that has a header and a payload to read. -/
def payloadState (es : List Entry) (total : Nat) (payload rest : List Byte) (e : InEnd) : State :=
  { State.reset with inq := headerOf true es total ++ payload ++ rest, inEnd := e }

/-- A failing sink; a pad bit 1; a bit that begins no code; a code that breaks off: each with what the clause asks of it;
and the two ways HDR_READ can end. -/
theorem witness_DecodeRefusesBadPayload :
    ({ State.reset with rcnt := 1 } : State).rcnt.val ≠ 0 ∧
    ({ payloadState singleEntries 2 [0x80] [7] .opened with outFail := true } : State).outFail = true ∧
    ((payloadState abcEntries 2 [0x41] [7] .opened).inq = headerOf true abcEntries 2 ++ [0x41] ++ [7] ∧
      codesOf abcEntries = .ok abcCode ∧ (∀ x ∈ [0x61#8, 0x62#8], tget (lengthsOf abcEntries) x ≠ 0) ∧
      bytesBits [0x41] = codeBits abcCode (lengthsOf abcEntries) [0x61, 0x62] ++ [false, false, false, false, true]) ∧
    ((payloadState singleEntries 2 [0x80] [7] .eos).inq = headerOf true singleEntries 2 ++ [0x80] ++ [7] ∧
      codesOf singleEntries = .ok (tset (tfill 0) 0x61 1) ∧ tget (lengthsOf singleEntries) 0x61 ≠ 0 ∧
      bytesBits [0x80] = codeBits (tset (tfill 0) 0x61 1) (lengthsOf singleEntries) [0x61] ++ List.replicate 7 false ∧
      ∀ e ∈ singleEntries, e.len.toNat ≤ 7 ∧
        ¬ natBits (tget (tset (tfill 0) 0x61 1 : Table CodeWord) e.sym).toNat e.len.toNat <+: List.replicate 7 false) ∧
    ((payloadState abcEntries 8 [0x01] [] .fail).inq = headerOf true abcEntries 8 ++ [0x01] ∧
      bytesBits [0x01] = codeBits abcCode (lengthsOf abcEntries) (List.replicate 7 0x61) ++ [true] ∧
      (∃ e ∈ abcEntries, [true].length < e.len.toNat) ∧
      ∀ e ∈ abcEntries, ¬ natBits (tget abcCode e.sym).toNat e.len.toNat <+: [true]) ∧
    (∃ t, exec .hdrRead { State.reset with inq := [0x01, 0x01] } = .next t ∧ t.err = true) ∧
    ∃ t, exec .hdrRead (State.reset.withPending 0x41) = .next t ∧ t.pending ≠ none :=
  ⟨by decide, rfl,
    ⟨rfl, codesOf_of_toList (by decide +kernel), by decide +kernel, by decide +kernel⟩,
    ⟨rfl, codesOf_of_toList (by decide +kernel), by decide +kernel, by decide +kernel, by decide +kernel⟩,
    ⟨List.append_nil _, by decide +kernel, by decide, by decide +kernel⟩,
    ⟨_, exec_ex _ _, by decide +kernel⟩, _, exec_ex _ _, by decide +kernel⟩

theorem witness_DecodeInvertsEncodeOfData : ∃ t container u, abcInput.HasHistogram aaaabc ∧
    exec .encode abcInput = .next t ∧ t.outq = abcInput.outq ++ container ∧ State.fmt u = abcInput.fmt ∧
    u.rcnt.val = 0 ∧ u.rbits = 0 ∧ u.outFail = false ∧ u.inq = container ++ [0xFF] ∧ aaaabc ≠ [] := by
  obtain ⟨t, ht⟩ := exec_answers .encode abcInput
  refine ⟨t, t.outq, { State.reset with inq := t.outq ++ [0xFF] }, abcInput_histogram, ht, rfl, rfl, rfl, rfl, rfl, rfl,
    by decide⟩

theorem witness_EncodeOfSingleSymbol : ∃ s, State.HasHistogram s (List.replicate 9 0xFF) ∧ s.wcnt.val = 0 ∧
    s.outFail = false ∧ s.inq = List.replicate 9 0xFF ∧ s.inEnd = .eos :=
  ⟨{ State.reset with freq := tset (tfill 0) 0xFF 9, inq := List.replicate 9 0xFF, inEnd := .eos },
    histogram_of_toList (by decide +kernel), rfl, rfl, rfl, rfl⟩

end Sys2Proof.Tests
end

section
/-! PROOFS of the family 00_scope.md. When a command can be held; the tree ENCODE builds and the lengths it
gives; ENCODE up to its data pass. -/

namespace Sys2Proof.Machine

variable {α β : Type}

/-! ### When a command can be held -/

theorem Res.Sat.of_hold {P : State → Prop} {es : List Err} {held : Prop} {r : Res α} (hr : r.Sat P es held)
    (h : r = .hold) : held := by
  rw [h] at hr; exact hr

theorem Res.Spec.of_hold {P : α → State → Prop} {Q : Err → State → Prop} {held : Prop} {r : Res α}
    (hr : r.Spec P Q held) (h : r = .hold) : held := by
  rw [h] at hr; exact hr

/-- What only writes its result down is held where the reading before it is. -/
theorem Res.hold_of_bind_ok {r : Res α} {f : α → State → State} {g : α → State → β}
    (h : (r.bind fun a s => .ok (g a s) (f a s)) = .hold) : r = .hold := by
  cases r with
  | hold => rfl
  | ok a s => cases h
  | raise e s => cases h

theorem encSym_sat (x : Byte) (s : State) :
    (encSym x s).Sat (WritesOnly s) [.noCodes, .noEntry, .ioWrite] False := by
  unfold encSym
  split
  · exact ⟨by simp, .refl s⟩
  · split
    · exact ⟨by simp, .refl s⟩
    · exact (putCode_sat _ _ s).mono (fun _ h => h) (by simp) id

theorem align_ne_hold (s : State) : align s ≠ .hold := by
  rw [align_eq]; split <;> simp

theorem decSym_hold {s : State} (h : decSym s = .hold) : s.inEnd = .opened := by
  unfold decSym at h
  split at h
  · cases h
  · exact (decodeSym_sat .truncated s).of_hold (Res.hold_of_bind_ok h)

/-- A command whose pseudocode reaches HOLD is one of the six that wait, and the input is open (spec R14, R381). -/
theorem pseudo_hold {i : Instr} {s : State} (h : Instr.pseudo i s = .hold) :
    canHold i = true ∧ s.inEnd = .opened := by
  cases i with
  | nop => cases h
  | reset => cases h
  | errClear => cases h
  | buildTree => exact ((buildTree_spec s).of_hold h).elim
  | buildCodes => exact ((buildCodes_spec s).of_hold h).elim
  | putBit arg =>
    simp only [Instr.pseudo] at h
    split at h
    · exact ((putBit_sat _ s).of_hold h).elim
    · cases h
  | putBits arg =>
    simp only [Instr.pseudo] at h
    split at h
    · exact ((putCode_sat _ _ s).of_hold h).elim
    · cases h
  | flush => exact ((flush_sat s).of_hold h).elim
  | encSym arg => exact ((encSym_sat arg s).of_hold h).elim
  | getBit => exact ⟨rfl, (getBit_sat .ioEnd s).of_hold (Res.hold_of_bind_ok h)⟩
  | getBits arg =>
    simp only [Instr.pseudo] at h
    split at h
    · exact ⟨rfl, (getBits_sat .ioEnd _ 0 s).of_hold (Res.hold_of_bind_ok h)⟩
    · cases h
  | align => exact (align_ne_hold s h).elim
  | decSym => exact ⟨rfl, decSym_hold h⟩
  | hdrWrite => exact ((hdrWrite_sat s).of_hold h).elim
  | hdrRead => exact ⟨rfl, (hdrRead_spec s).of_hold h⟩
  | encode => exact ⟨rfl, (encodeAll_spec s).of_hold h⟩
  | decode => exact ⟨rfl, (decodeAll_spec s).of_hold h⟩

/-- Settles O6: a core step ends with PENDING empty unless its pseudocode reaches HOLD, and then it changes nothing. -/
theorem commandsEndOrWaitUnchanged : Obligations.CommandsEndOrWaitUnchanged := by
  intro i s
  obtain ⟨t, ht⟩ := exec_answers i s
  refine ⟨t, ht, ?_⟩
  rw [exec_eq] at ht
  rcases finish_cases ht with ⟨u, -, rfl⟩ | ⟨e, u, -, rfl⟩ | ⟨hold, rfl⟩
  · exact .inl rfl
  · exact .inl rfl
  · exact .inr ⟨rfl, pseudo_hold hold⟩

/-! ### The tree that BuildTree's merges end in (spec R161, R162) -/

/-- The symbols of the leaves of a tree, left to right. -/
def Tree.syms : Tree → List Byte
  | .leaf s _ => [s]
  | .node l r _ _ => l.syms ++ r.syms

/-- The leaves of a tree whose root has depth `d`, left to right, each with its depth as its length. -/
def Tree.leafEntries : Tree → (d : Nat) → List Entry
  | .leaf s _, d => [⟨s, BitVec.ofNat 8 d⟩]
  | .node l r _ _, d => l.leafEntries (d + 1) ++ r.leafEntries (d + 1)

theorem Tree.syms_length_pos (t : Tree) : 0 < t.syms.length := by
  induction t with
  | leaf s w => simp [syms]
  | node l r w k ihl ihr => simp only [syms, List.length_append]; omega

theorem Tree.map_sym_leafEntries (t : Tree) (d : Nat) : (t.leafEntries d).map (fun e => e.sym) = t.syms := by
  induction t generalizing d with
  | leaf s w => rfl
  | node l r w k ihl ihr => rw [leafEntries, syms, List.map_append, ihl, ihr]

theorem writeDepths_eq (t : Tree) (d : Nat) (len : Table Byte) :
    writeDepths t d len = (t.leafEntries d).foldl (fun t e => tset t e.sym e.len) len := by
  induction t generalizing d len with
  | leaf s w => rfl
  | node l r w k ihl ihr => rw [writeDepths, Tree.leafEntries, List.foldl_append, ← ihl, ← ihr]

/-- No leaf lies above the root. The bound keeps every depth below 256, so that it fits a byte (spec R164). -/
theorem Tree.le_leafEntries_len {t : Tree} {d : Nat} (h : d + t.syms.length ≤ 256) :
    ∀ e ∈ t.leafEntries d, d ≤ e.len.toNat := by
  induction t generalizing d with
  | leaf s w =>
    simp only [syms, List.length_singleton] at h
    simp [leafEntries, Nat.mod_eq_of_lt (show d < 256 by omega)]
  | node l r w k ihl ihr =>
    simp only [syms, List.length_append] at h
    have hl := l.syms_length_pos
    have hr := r.syms_length_pos
    intro e he
    rcases List.mem_append.1 he with he | he
    · exact Nat.le_of_succ_le (ihl (by omega) e he)
    · exact Nat.le_of_succ_le (ihr (by omega) e he)

/-- The leaves of a tree with two or more have lengths that are not 0. -/
theorem Tree.leafEntries_len_ne_zero {t : Tree} (h2 : 2 ≤ t.syms.length) (h : t.syms.length ≤ 256) :
    ∀ e ∈ t.leafEntries 0, e.len ≠ 0 := by
  cases t with
  | leaf s w => simp [syms] at h2
  | node l r w k =>
    simp only [syms, List.length_append] at h
    have hl := l.syms_length_pos
    have hr := r.syms_length_pos
    intro e he h0
    have : 1 ≤ e.len.toNat := (List.mem_append.1 he).elim (Tree.le_leafEntries_len (by omega) e)
      (Tree.le_leafEntries_len (by omega) e)
    simp [h0] at this

theorem roomOf_singleton_le (e : Entry) : roomOf [e] ≤ 2 ^ 255 := by
  rw [roomOf_cons, roomOf_nil, Nat.add_zero]
  exact Nat.pow_le_pow_right (by omega) (Nat.sub_le _ _)

/-- The leaves under a node at depth `d` take together the room of one code of length `d`: Kraft's equality of a full
binary tree (spec R167). -/
theorem Tree.roomOf_leafEntries {t : Tree} {d : Nat} (h : d + t.syms.length ≤ 256) :
    roomOf (t.leafEntries d) = 2 ^ (255 - d) := by
  induction t generalizing d with
  | leaf s w =>
    simp only [syms, List.length_singleton] at h
    simp [leafEntries, Entry.room, Nat.mod_eq_of_lt (show d < 256 by omega)]
  | node l r w k ihl ihr =>
    simp only [syms, List.length_append] at h
    have hl := l.syms_length_pos
    have hr := r.syms_length_pos
    rw [leafEntries, roomOf_append, ihl (by omega), ihr (by omega), ← Nat.two_mul, ← Nat.pow_succ']
    congr 1
    omega

theorem takeLeast_perm (t : Tree) (ts : List Tree) : ((takeLeast t ts).1 :: (takeLeast t ts).2).Perm (t :: ts) := by
  induction ts generalizing t with
  | nil => exact .refl _
  | cons u us ih =>
    rw [takeLeast]
    split
    · exact .refl _
    · exact (List.Perm.swap ..).trans ((ih u).cons t)

/-- A merge of two or more live nodes replaces two of them by their parent (spec R161). -/
theorem mergeStep_some {k : Nat} {l : List Tree} (h : 2 ≤ l.length) :
    ∃ a b rest, l.Perm (a :: b :: rest) ∧
      mergeStep k l = some (.node a b (a.weight + b.weight) (256 + k) :: rest) := by
  match l, h with
  | t :: u :: us, _ =>
    have h1 := takeLeast_perm t (u :: us)
    cases hr : (takeLeast t (u :: us)).2 with
    | nil => rw [hr] at h1; simpa using h1.length_eq
    | cons v vs =>
      rw [hr] at h1
      refine ⟨_, _, _, h1.symm.trans ((takeLeast_perm v vs).symm.cons _), ?_⟩
      simp only [mergeStep, hr]

/-- The merges end in one node, with the leaves of all the nodes there were (spec R161). -/
theorem mergeAll_root {n k : Nat} {l : List Tree} (hl : l ≠ []) (hn : l.length ≤ n + 1) :
    ∃ root, mergeAll n k l = [root] ∧ root.syms.Perm (l.flatMap Tree.syms) := by
  induction n generalizing k l with
  | zero =>
    match l, hl, hn with
    | [t], _, _ => exact ⟨t, rfl, by simp⟩
  | succ n ih =>
    match l, hl with
    | [t], _ => exact ⟨t, rfl, by simp⟩
    | t :: u :: us, _ =>
      obtain ⟨a, b, rest, hp, hm⟩ := mergeStep_some (k := k) (l := t :: u :: us) (by simp)
      obtain ⟨root, hroot, hs⟩ := ih (k := k + 1) (l := .node a b (a.weight + b.weight) (256 + k) :: rest) (by simp)
        (by have := hp.length_eq; simp only [List.length_cons] at this hn ⊢; omega)
      refine ⟨root, by rw [mergeAll, hm]; exact hroot, hs.trans ?_⟩
      simpa [Tree.syms] using (hp.flatMap_right Tree.syms).symm

/-! ### The lengths BuildTree writes (spec R161, R165, R167) -/

theorem symbols_eq_filter (s : State) : s.symbols = allBytes.filter fun x => tget s.freq x != 0 := by
  rw [State.symbols, tpairs_eq, List.filter_map, List.map_map]
  exact List.map_id _

theorem nodup_symbols (s : State) : s.symbols.Nodup := by
  rw [symbols_eq_filter]; exact allBytes_nodup.filter _

theorem length_symbols_le (s : State) : s.symbols.length ≤ 256 := by
  rw [symbols_eq_filter, ← length_allBytes]; exact List.length_filter_le _ _

theorem flatMap_syms_leaves (s : State) : s.leaves.flatMap Tree.syms = s.symbols := by
  rw [State.leaves, List.flatMap_map]
  exact List.map_eq_flatMap.symm

theorem symbols_ne_nil {s : State} (h : s.totalFreq ≠ 0) : s.symbols ≠ [] := by
  intro h0
  rw [symbols_eq_nil] at h0
  exact h (List.sum_eq_zero (by simp [h0]))

theorem totalFreq_eq_freqSum (s : State) : s.totalFreq = s.freqSum := (freqSum_eq s).symm

/-- With two symbols or more, BuildTree writes the leaf depths of the root its merges end in (spec R161). -/
theorem treeLengths_of_root {s : State} (h : 2 ≤ s.symbols.length) :
    ∃ root, mergeAll s.leaves.length 0 s.leaves = [root] ∧ root.syms.Perm s.symbols ∧
      s.treeLengths = lengthsOf (root.leafEntries 0) := by
  have hne : s.leaves ≠ [] := by
    intro h0
    rw [← flatMap_syms_leaves, h0] at h
    simp at h
  obtain ⟨root, hroot, hp⟩ := mergeAll_root (n := s.leaves.length) (k := 0) hne (by omega)
  rw [flatMap_syms_leaves] at hp
  refine ⟨root, hroot, hp, ?_⟩
  rw [State.treeLengths, hroot, lengthsOf, ← writeDepths_eq]
  match s.symbols, h with
  | _ :: _ :: _, _ => rfl

/-- The lengths BuildTree writes are those of a list of entries, one for each symbol present, that BuildCodes accepts
(spec R165, R167). -/
theorem treeLengths_eq_lengthsOf {s : State} (h : s.symbols ≠ []) :
    ∃ es, s.treeLengths = lengthsOf es ∧ (es.map fun e => e.sym).Perm s.symbols ∧ (∀ e ∈ es, e.len ≠ 0) ∧
      roomOf es ≤ 2 ^ 255 ∧ ∀ e, es = [e] → e.len = 1 := by
  by_cases h2 : 2 ≤ s.symbols.length
  · obtain ⟨root, -, hp, hl⟩ := treeLengths_of_root h2
    have hlen := hp.length_eq
    have hle := length_symbols_le s
    refine ⟨root.leafEntries 0, hl, by rw [Tree.map_sym_leafEntries]; exact hp,
      Tree.leafEntries_len_ne_zero (by omega) (by omega),
      by rw [Tree.roomOf_leafEntries (by omega), Nat.sub_zero], fun e he => ?_⟩
    have := Tree.map_sym_leafEntries root 0
    rw [he] at this
    rw [← this, List.length_map, List.length_singleton] at hlen
    omega
  · match hs : s.symbols, h with
    | [x], _ =>
      have hl : s.treeLengths = lengthsOf [⟨x, 1⟩] := by rw [State.treeLengths, hs]; rfl
      refine ⟨[⟨x, 1⟩], hl, .refl _, by simp, roomOf_singleton_le _, by simp⟩
    | _ :: _ :: _, _ => simp [hs] at h2

/-- The sorted entries of the lengths that a list of entries gives are those entries (spec R171). -/
theorem sortedEntries_lengthsOf_perm {es : List Entry} (hd : (es.map fun e => e.sym).Nodup)
    (hl : ∀ e ∈ es, e.len ≠ 0) : (sortedEntries (lengthsOf es)).Perm es := by
  refine (List.perm_ext_iff_of_nodup (nodup_sortedEntries _).of_map hd.of_map).2 fun e => ?_
  obtain ⟨hin, hout⟩ := tget_foldl_lengths es (tfill 0) e.sym hd
  rw [mem_sortedEntries]
  constructor
  · rintro ⟨h0, he⟩
    by_cases hx : ∃ a ∈ es, a.sym = e.sym
    · obtain ⟨a, ha, hs⟩ := hx
      have hae : a = e := Entry.ext_nat (congrArg _ ((hin a ha hs).symm.trans he)) (congrArg _ hs)
      exact hae ▸ ha
    · refine absurd ((hout fun a ha hs => hx ⟨a, ha, hs⟩).symm.trans he) ?_
      simpa using h0.symm
  · exact fun he => ⟨hl e he, hin e he rfl⟩

theorem kraftSum_lengthsOf {es : List Entry} (hd : (es.map fun e => e.sym).Nodup) (hl : ∀ e ∈ es, e.len ≠ 0) :
    kraftSum (lengthsOf es) = roomOf es := by
  rw [← roomOf_sortedEntries]
  exact ((sortedEntries_lengthsOf_perm hd hl).map _).sum_eq

/-- BuildCodes accepts the lengths BuildTree writes (spec R167). -/
theorem codesOf_treeLengths {s : State} (h : s.symbols ≠ []) :
    ∃ c, codesOf (sortedEntries s.treeLengths) = .ok c := by
  obtain ⟨es, hes, hp, hl, hr, h1⟩ := treeLengths_eq_lengthsOf h
  have hd := hp.nodup_iff.2 (nodup_symbols s)
  rw [hes, codesOf_isOk, kraftSum_lengthsOf hd hl]
  refine ⟨hr, fun e he => h1 e (List.perm_singleton.1 ?_)⟩
  rw [← he]
  exact (sortedEntries_lengthsOf_perm hd hl).symm

/-- BuildTree gives a length to every symbol present (spec R161, R165). -/
theorem treeLengths_ne_zero {s : State} {x : Byte} (hx : s.freqAt x ≠ 0) : tget s.treeLengths x ≠ 0 := by
  have hm := (mem_symbols s x).2 hx
  obtain ⟨es, hes, hp, hl, -, -⟩ := treeLengths_eq_lengthsOf (List.ne_nil_of_mem hm)
  obtain ⟨e, he, rfl⟩ := List.mem_map.1 (hp.mem_iff.2 hm)
  rw [hes, lengthsOf, (tget_foldl_lengths es (tfill 0) e.sym (hp.nodup_iff.2 (nodup_symbols s))).1 e he rfl]
  exact hl e he

/-! ### ENCODE up to its data pass, and the part of the data pass that codes good bytes (spec R281) -/

/-- The state after HdrWrite emitted the header of the code table (spec R250). -/
def State.withHeader (s : State) : State :=
  { s with outq := s.outq ++ s.headerBytes, outcnt := s.outcnt + BitVec.ofNat 64 s.headerBytes.length }

/-- Where FREQ is usable, the writer aligned and the sink works, ENCODE builds the tables, emits the header and goes on
with its data pass (spec R281, steps (2) to (4)). -/
theorem encodeAll_eq_encodeData {s : State} (hw : s.wcnt.val = 0) (hlt : s.totalFreq < 2 ^ 64) (hne : s.totalFreq ≠ 0)
    (ho : s.outFail = false) :
    ∃ c, codesOf (sortedEntries s.treeLengths) = .ok c ∧
      encodeAll s = encodeData (s.withTree.withTable c).withHeader := by
  have hs := symbols_ne_nil hne
  obtain ⟨c, hc⟩ := codesOf_treeLengths hs
  have htree : buildTree s = .ok () s.withTree := by
    rw [buildTree_eq, if_neg hs, if_neg (by rw [← totalFreq_eq_freqSum]; omega)]
  have htable : buildCodes s.withTree = .ok () (s.withTree.withTable c) := by
    rw [buildCodes_eq, show s.withTree.len = s.treeLengths from rfl, hc]
  have hhdr : hdrWrite (s.withTree.withTable c) = .ok () (s.withTree.withTable c).withHeader :=
    hdrWrite_ok rfl (Fin.ext hw) ho
  refine ⟨c, hc, ?_⟩
  rw [encodeAll, if_neg (by simp [hw]), if_neg hs, htree, Res.bind_ok, htable, Res.bind_ok, hhdr, Res.bind_ok]

theorem withTree_total_toNat {s : State} (h : s.totalFreq < 2 ^ 64) : s.withTree.total.toNat = s.totalFreq := by
  rw [totalFreq_eq_freqSum] at h ⊢
  exact Nat.mod_eq_of_lt h

/-- The loop of ENCODE codes the good bytes at the front of the input and goes on from there, however the input goes on
(spec R281). -/
theorem encodeLoop_append (good rest : List Byte) (fuel n : Nat) {s : State} (hq : s.inq = good ++ rest)
    (ho : s.outFail = false) (hc : ∀ b ∈ good, s.lenAt b ≠ 0) (hn : n + good.length ≤ s.total.toNat) :
    ∃ t, encodeLoop (good.length + fuel) n s = encodeLoop fuel (n + good.length) t ∧ DataPassOnly s t ∧ t.inq = rest ∧
      t.outBits = s.outBits ++ good.flatMap s.symBits := by
  induction good generalizing n s with
  | nil => exact ⟨s, by simp, .refl s, hq, by simp⟩
  | cons b good ih =>
    rw [List.length_cons] at hn
    let s1 : State := { s with inq := good ++ rest, incnt := s.incnt + 1 }
    obtain ⟨t, ht, hw, hb⟩ := putCode_ok (s := s1) (s.codeAt b) (s.lenAt b) ho
    have hcoded : encodeByte b n s1 = .ok () t := by
      rw [encodeByte, if_neg (show n ≠ s.total.toNat by omega), if_neg (show ¬ s1.lenAt b = 0 from hc b (by simp))]
      exact ht
    have hst : DataPassOnly s t :=
      DataPassOnly.trans s s1 t ⟨rfl, ⟨[b], by simp [s1, hq]⟩, [], by simp [s1]⟩ hw.dataPass
    have hsym : t.symBits = s.symBits := by rw [hst.1]; rfl
    obtain ⟨u, hu, hd, hi, hbu⟩ := ih (n + 1) (s := t) (by rw [hw.1]) (by rw [hst.1]; exact ho)
      (fun x hx => by rw [hst.1]; exact hc x (List.mem_cons_of_mem _ hx))
      (by rw [hst.1]; show _ ≤ s.total.toNat; omega)
    refine ⟨u, ?_, DataPassOnly.trans s t u hst hd, hi, ?_⟩
    · rw [List.length_cons, Nat.add_right_comm, encodeLoop, fetchByteOrEnd_cons hq, Res.bind_ok]
      show (encodeByte b n s1).bind _ = _
      rw [hcoded, Res.bind_ok, hu, Nat.add_right_comm, Nat.add_assoc]
    · rw [hbu, hb, hsym, List.flatMap_cons, List.append_assoc]
      rfl

/-- The data pass of ENCODE is held at the end of an open input whose bytes are all good (spec R281). -/
theorem encodeData_hold {s : State} (he : s.inEnd = .opened) (ho : s.outFail = false)
    (hc : ∀ b ∈ s.inq, s.lenAt b ≠ 0) (hn : s.inq.length ≤ s.total.toNat) : encodeData s = .hold := by
  obtain ⟨t, ht, hd, hq, -⟩ := encodeLoop_append s.inq [] 0 0 (List.append_nil _).symm ho hc (by omega)
  rw [encodeData, ← Nat.add_zero s.inq.length, ht, encodeLoop, fetchByteOrEnd_nil hq, hd.inEnd, he]
  rfl

/-- Settles O55: BuildCodes accepts the tree's lengths, the header goes out, and the loop codes every byte there is and
then meets the end of an open input. -/
theorem encodeWaitsForTheEnd : Obligations.EncodeWaitsForTheEnd := by
  intro s hw hlt hne ho he hgood hlen
  obtain ⟨c, -, hrun⟩ := encodeAll_eq_encodeData hw hlt hne ho
  have hheld : encodeData (s.withTree.withTable c).withHeader = .hold := by
    refine encodeData_hold he ho (fun b hb h0 => ?_) ?_
    · exact treeLengths_ne_zero (hgood b hb) (BitVec.eq_of_toNat_eq h0)
    · exact hlen.trans (withTree_total_toNat hlt).ge
  rw [exec_eq, show Instr.pseudo .encode s = encodeAll s from rfl, hrun, hheld, finish_hold]

end Sys2Proof.Machine
end

section
/-! PROOFS of the family 10_state.md. What each command may write, in one frame lemma; what a core step, a host move
and a step can be; the invariant; what a reset alone takes back; the output; what the registers read. -/

namespace Sys2Proof.Machine

variable {α : Type}

/-! ### Properties that hold however a piece of pseudocode ends -/

theorem Res.Keeps.mono {I J : State → Prop} {r : Res α} (hr : r.Keeps I) (h : ∀ t, I t → J t) : r.Keeps J := by
  cases r with
  | ok a t => exact h t hr
  | raise e t => exact h t hr
  | hold => exact trivial

theorem Res.Keeps.and {I J : State → Prop} {r : Res α} (h : r.Keeps I) (h' : r.Keeps J) :
    r.Keeps fun t => I t ∧ J t := by
  cases r with
  | ok a t => exact ⟨h, h'⟩
  | raise e t => exact ⟨h, h'⟩
  | hold => exact trivial

theorem Res.Spec.keeps {I : State → Prop} {P : α → State → Prop} {Q : Err → State → Prop} {held : Prop} {r : Res α}
    (hr : r.Spec P Q held) (hP : ∀ a t, P a t → I t) (hQ : ∀ e t, Q e t → I t) : r.Keeps I := by
  cases r with
  | ok a t => exact hP a t hr
  | raise e t => exact hQ e t hr
  | hold => exact trivial

/-- A command whose pseudocode keeps a property has ended in a state that has it, without an error or with one
recorded, or it is held (spec R101). -/
theorem exec_cases {I : State → Prop} {i : Instr} {s t : State} (hI : (Instr.pseudo i s).Keeps I)
    (h : exec i s = .next t) :
    (∃ u, I u ∧ t = u.retire) ∨ (∃ e u, I u ∧ t = (u.takeError i.op.code e).retire) ∨ (canHold i = true ∧ t = s) := by
  rw [exec_eq] at h
  rcases finish_cases h with ⟨u, hu, rfl⟩ | ⟨e, u, hu, rfl⟩ | ⟨hu, rfl⟩
  · rw [hu] at hI; exact .inl ⟨u, hI, rfl⟩
  · rw [hu] at hI; exact .inr (.inl ⟨e, u, hI, rfl⟩)
  · exact .inr (.inr ⟨(pseudo_hold hu).1, rfl⟩)

/-! ### What each command may write (spec R31 to R51) -/

/-- The state `s` with the fields that a command may write taken from `t`; RESET and ERR_CLEAR leave nothing open.
PENDING and the record of an error are left to the end of the step. -/
def writtenBy (i : Instr) (s t : State) : State :=
  match i with
  | .nop => s
  | .reset => s.resetBlock
  | .errClear => s.clearError
  | .buildTree =>
    { s with
      len := t.len, total := t.total, nsym := t.nsym, maxlen := t.maxlen, entry := t.entry, code := t.code
      codesValid := t.codesValid }
  | .buildCodes =>
    { s with nsym := t.nsym, maxlen := t.maxlen, entry := t.entry, code := t.code, codesValid := t.codesValid }
  | .putBit _ | .putBits _ | .flush | .encSym _ =>
    { s with outq := t.outq, outcnt := t.outcnt, wbits := t.wbits, wcnt := t.wcnt }
  | .getBit | .getBits _ | .decSym =>
    { s with inq := t.inq, incnt := t.incnt, rbits := t.rbits, rcnt := t.rcnt, data := t.data }
  | .align => { s with rbits := t.rbits, rcnt := t.rcnt }
  | .hdrWrite => { s with outq := t.outq, outcnt := t.outcnt }
  | .hdrRead =>
    { s with
      inq := t.inq, incnt := t.incnt, len := t.len, total := t.total, nsym := t.nsym, maxlen := t.maxlen
      entry := t.entry, code := t.code, codesValid := t.codesValid }
  | .encode =>
    { s with
      inq := t.inq, incnt := t.incnt, outq := t.outq, outcnt := t.outcnt, wbits := t.wbits, wcnt := t.wcnt
      len := t.len, total := t.total, nsym := t.nsym, maxlen := t.maxlen, entry := t.entry, code := t.code
      codesValid := t.codesValid }
  | .decode =>
    { s with
      inq := t.inq, incnt := t.incnt, outq := t.outq, outcnt := t.outcnt, rbits := t.rbits, rcnt := t.rcnt
      len := t.len, total := t.total, remain := t.remain, nsym := t.nsym, maxlen := t.maxlen, entry := t.entry
      code := t.code, codesValid := t.codesValid }

/-- From `s` to `t` a command wrote only what it may, and but for RESET the streams only moved on. -/
def ChangesOnly (i : Instr) (s t : State) : Prop := t = writtenBy i s t ∧ (i ≠ .reset → StreamsMove s t)

/-- A command whose frame leaves every field it does not name as it was may also write nothing at all. -/
theorem ChangesOnly.refl {i : Instr} (s : State) (hr : i ≠ .reset) (hc : i ≠ .errClear) : ChangesOnly i s s := by
  refine ⟨?_, fun _ => .refl s⟩
  cases i with
  | reset => exact absurd rfl hr
  | errClear => exact absurd rfl hc
  | _ => rfl

theorem WritesOnly.changes {i : Instr} {s t : State} (h : WritesOnly s t)
    (hi : writtenBy i s t = { s with outq := t.outq, outcnt := t.outcnt, wbits := t.wbits, wcnt := t.wcnt }) :
    ChangesOnly i s t := ⟨h.1.trans hi.symm, fun _ => h.moves⟩

theorem HeaderReadsOnly.changes {s t : State} (h : HeaderReadsOnly s t) : ChangesOnly .hdrRead s t :=
  ⟨h.1, fun _ => h.2⟩

theorem EncodesOnly.changes {s t : State} (h : EncodesOnly s t) : ChangesOnly .encode s t := ⟨h.1, fun _ => h.2⟩

theorem DecodesOnly.changes {s t : State} (h : DecodesOnly s t) : ChangesOnly .decode s t := ⟨h.1, fun _ => h.2⟩

/-- What a command that reads bits into DATA changes, the value it writes apart (spec R220, R221, R223). -/
theorem ReadsOnly.changes {i : Instr} {s t : State} (h : ReadsOnly s t) (d : Word)
    (hi : ∀ u, writtenBy i s u =
      { s with inq := u.inq, incnt := u.incnt, rbits := u.rbits, rcnt := u.rcnt, data := u.data }) :
    ChangesOnly i s { t with data := d } := ⟨by rw [hi, h.1], fun _ => h.moves⟩

/-- Reading bits and writing the value down in DATA changes what the reader's commands may (spec R220, R221, R223). -/
theorem Res.Sat.changes_data {i : Instr} {s : State} {r : Res α} {es : List Err} {held : Prop} (g : α → Word)
    (hr : r.Sat (ReadsOnly s) es held)
    (hi : ∀ u, writtenBy i s u =
      { s with inq := u.inq, incnt := u.incnt, rbits := u.rbits, rcnt := u.rcnt, data := u.data }) :
    (r.bind fun a t => .ok () { t with data := g a }).Keeps (ChangesOnly i s) := by
  cases r with
  | ok a t => exact ReadsOnly.changes hr (g a) hi
  | raise e t => exact ReadsOnly.changes hr.2 t.data hi
  | hold => exact trivial

theorem decSym_changes (s : State) : (decSym s).Keeps (ChangesOnly .decSym s) := by
  unfold decSym
  split
  · exact .refl s (by simp) (by simp)
  · exact (decodeSym_sat .truncated s).changes_data (i := .decSym) (fun x => x.setWidth 64) fun _ => rfl

theorem buildTree_changes (s : State) : (buildTree s).Keeps (ChangesOnly .buildTree s) := by
  refine (buildTree_spec s).keeps (fun _ t ht => ?_) (fun e t ht => ?_)
  · subst ht; exact ⟨rfl, fun _ => .refl s⟩
  · rw [ht.2]; exact .refl s (by simp) (by simp)

theorem buildCodes_changes (s : State) : (buildCodes s).Keeps (ChangesOnly .buildCodes s) := by
  refine (buildCodes_spec s).keeps (fun _ t ht => ?_) (fun e t ht => ?_)
  · obtain ⟨-, c, rfl⟩ := ht; exact ⟨rfl, fun _ => .refl s⟩
  · rw [ht.2]; exact ⟨rfl, fun _ => .refl s⟩

theorem align_changes (s : State) : (align s).Keeps (ChangesOnly .align s) := by
  rw [align_eq]
  split <;> exact ⟨rfl, fun _ => .refl s⟩

/-- However its pseudocode ends, a command has written only what it may (spec R331, R335). -/
theorem pseudo_changes (i : Instr) (s : State) : (Instr.pseudo i s).Keeps (ChangesOnly i s) := by
  cases i with
  | nop => exact ⟨rfl, fun _ => .refl s⟩
  | reset => exact ⟨rfl, fun h => absurd rfl h⟩
  | errClear => exact ⟨rfl, fun _ => .refl s⟩
  | buildTree => exact buildTree_changes s
  | buildCodes => exact buildCodes_changes s
  | putBit arg =>
    simp only [Instr.pseudo]
    split
    · exact (putBit_sat _ s).keeps fun t ht => ht.changes rfl
    · exact .refl s (by simp) (by simp)
  | putBits arg =>
    simp only [Instr.pseudo]
    split
    · exact (putCode_sat _ _ s).keeps fun t ht => ht.changes rfl
    · exact .refl s (by simp) (by simp)
  | flush => exact (flush_sat s).keeps fun t ht => ht.changes rfl
  | encSym arg => exact (encSym_sat arg s).keeps fun t ht => ht.changes rfl
  | getBit => exact (getBit_sat .ioEnd s).changes_data _ fun _ => rfl
  | getBits arg =>
    simp only [Instr.pseudo]
    split
    · exact (getBits_sat .ioEnd _ 0 s).changes_data _ fun _ => rfl
    · exact .refl s (by simp) (by simp)
  | align => exact align_changes s
  | decSym => exact decSym_changes s
  | hdrWrite => exact (hdrWrite_sat s).keeps fun t ht => ⟨ht.1, fun _ => ht.writesOnly.moves⟩
  | hdrRead => exact (hdrRead_spec s).keeps (fun _ _ ⟨ht, _⟩ => ht.changes) fun _ _ ⟨⟨_, ht, _⟩, _⟩ => ht.changes
  | encode => exact (encodeAll_spec s).keeps (fun _ _ ⟨ht, _⟩ => ht.changes) fun _ _ ⟨_, ht, _⟩ => ht.changes
  | decode => exact (decodeAll_spec s).keeps (fun _ _ ⟨ht, _⟩ => ht.changes) fun _ _ ⟨_, ht, _⟩ => ht.changes

/-- The end of a core step adds the record of an error and the emptied PENDING to what the command wrote (spec R101,
R333). -/
theorem exec_changes {i : Instr} {s t : State} (h : exec i s = .next t) :
    t = { writtenBy i s t with err := t.err, fatal := t.fatal, errcode := t.errcode, pending := t.pending } ∧
      (i ≠ .reset → StreamsMove s t) := by
  obtain ⟨u, hu, ht⟩ : ∃ u, ChangesOnly i s u ∧
      t = { u with err := t.err, fatal := t.fatal, errcode := t.errcode, pending := t.pending } := by
    rcases exec_cases (pseudo_changes i s) h with ⟨u, hu, rfl⟩ | ⟨e, u, hu, rfl⟩ | ⟨hold, rfl⟩
    · exact ⟨u, hu, rfl⟩
    · exact ⟨u, hu, rfl⟩
    · exact ⟨t, .refl t (by rintro rfl; cases hold) (by rintro rfl; cases hold), rfl⟩
  refine ⟨?_, fun hi => by rw [ht]; exact hu.2 hi⟩
  rw [ht, hu.1]
  cases i <;> rfl

/-! ### A core step, from the pending word on -/

/-- What a core step can be (spec R101, R124). -/
theorem coreStep_cases {s t : State} (h : coreStep s = .next t) :
    t = s ∨ (∃ w e, s.pending = some w ∧ t = rejectWord w e s) ∨
      ∃ w i, s.pending = some w ∧ decode w = .ok i ∧ exec i s = .next t := by
  cases hp : s.pending with
  | none =>
    rw [coreStep_none hp, Host.Outcome.next.injEq] at h
    exact .inl h.symm
  | some w =>
    cases hd : decode w with
    | error e =>
      rw [coreStep_error hp hd, Host.Outcome.next.injEq] at h
      exact .inr (.inl ⟨w, e, rfl, h.symm⟩)
    | ok i => exact .inr (.inr ⟨w, i, rfl, hd, (coreStep_ok hp hd).symm.trans h⟩)

/-- What a step can be, with the script apart: a turn of the core, a move of the host, or a poll (spec R97, R98). -/
theorem step_turn {s t : State} (h : step s = .next t) :
    (∃ u, u = { s with script := u.script } ∧ coreStep u = .next t ∧
        (s.script = [] ∨ ∃ rest, s.script = .core :: rest)) ∨
      (∃ u m, u = { s with script := u.script } ∧ hostMove m u = .next t ∧ ∃ rest, s.script = .host m :: rest) ∨
      t = { s with reads := t.reads, script := t.script } := by
  rcases step_cases h with ⟨hs, hc⟩ | ⟨rest, hs, hc⟩ | ⟨m, rest, hs, hm⟩ | ⟨rest, hs, rfl⟩
  · exact .inl ⟨s, rfl, hc, .inl hs⟩
  · exact .inl ⟨_, rfl, hc, .inr ⟨rest, hs⟩⟩
  · exact .inr (.inl ⟨_, m, rfl, hm, rest, hs⟩)
  · exact .inr (.inr rfl)

/-! ### The word of RESET (spec R120, R124, R125) -/

/-- A word that decodes has the opcode of a row of the map, no reserved bit, and an ARG the row takes (spec R124). -/
theorem decode_eq_ok {w : Word} {i : Instr} (h : decode w = .ok i) :
    ∃ op : Op, opField w = op.code ∧ reservedField w = 0 ∧ op.argOk (argField w) = true ∧
      i = op.command (argField w) := by
  unfold decode at h
  cases hop : Op.ofCode (opField w) with
  | none => rw [hop] at h; cases h
  | some op =>
    rw [hop] at h
    have hcode : op.code = opField w := by simpa using List.find?_some hop
    simp only at h
    split at h
    · cases h
    · split at h
      · exact ⟨op, hcode.symm, Decidable.not_not.1 ‹_›, ‹_›, (Except.ok.inj h).symm⟩
      · cases h

/-- A word is its three fields (spec R120). -/
theorem word_toNat (w : Word) :
    w.toNat = (opField w).toNat + 2 ^ 8 * (argField w).toNat + 2 ^ 16 * (reservedField w).toNat := by
  have := w.isLt
  simp only [opField, argField, reservedField, BitVec.extractLsb'_toNat, Nat.shiftRight_eq_div_pow]
  omega

/-- Only the word 1 is RESET (spec R125, R126). -/
theorem decode_eq_reset {w : Word} (h : decode w = .ok .reset) : w = 1 := by
  obtain ⟨op, hop, hres, harg, hi⟩ := decode_eq_ok h
  cases op <;> cases hi
  have h0 : argField w = 0 := by simpa [Op.argOk] using harg
  refine BitVec.eq_of_toNat_eq ?_
  rw [word_toNat, hop, h0, hres]
  rfl

/-! ### What the host's moves change (spec R85 to R89, R104) -/

/-- A register write does one of three things: it leaves the tables and the pending word alone, it writes LEN and
makes the code table invalid, or it issues a word that the record of an error lets pass (spec R87, R89, R100). -/
theorem memWrite_changes {s t : State} {addr width : Nat} {v : Word} (ht : t = s.memWrite addr width v) :
    t = { s with fmt := t.fmt, ovr := t.ovr, data := t.data, total := t.total, freq := t.freq } ∨
      t = { s with len := t.len, code := tfill 0, codesValid := false } ∨
      ((s.fatal = true → v = 1) ∧ (s.err = true → v = 0 ∨ v = 1 ∨ v = 2) ∧ t = { s with pending := some v }) := by
  rcases memWrite_cases s addr width v with ⟨-, h⟩ | ⟨-, r, -, h⟩
  · rw [ht, h]; exact .inl rfl
  · rw [h] at ht
    split at ht
    · subst ht; exact .inl rfl
    · cases r with
      | len x => subst ht; exact .inr (.inl rfl)
      | cmd =>
        have hc : t = s.issue v := ht
        rcases issue_cases s v with ⟨-, hi⟩ | ⟨-, -, hi⟩ | ⟨-, hf, he, hi⟩ <;> rw [hi] at hc
        · subst hc; exact .inl rfl
        · subst hc; exact .inl rfl
        · exact .inr (.inr ⟨hf, he, hc⟩)
      | _ => subst ht; exact .inl rfl

/-- What a host move can change: a register write, HardReset, a Pop; the others touch only the input, the sink and the
host's record of its reads (spec R104). -/
theorem hostMove_changes {m : HostMove} {s t : State} (h : hostMove m s = .next t) :
    (∃ addr width v, t = s.memWrite addr width v) ∨ (m = .hardReset ∧ t = s.resetBlock) ∨
      (∃ b, s.outq = b :: t.outq ∧ t = { s with outq := t.outq, taken := s.taken ++ [b] }) ∨
      t = { s with reads := t.reads, inq := t.inq, inEnd := t.inEnd, outFail := t.outFail } := by
  cases m with
  | memWrite addr width v => cases h; exact .inl ⟨addr, width, v, rfl⟩
  | hardReset => cases h; exact .inr (.inl ⟨rfl, rfl⟩)
  | pop =>
    simp only [hostMove] at h
    cases hq : s.outq with
    | nil => rw [hq] at h; cases h
    | cons b rest => rw [hq] at h; cases h; exact .inr (.inr (.inl ⟨b, rfl, rfl⟩))
  | memRead addr width => cases h; exact .inr (.inr (.inr rfl))
  | setOutFail x => cases h; exact .inr (.inr (.inr rfl))
  | _ =>
    simp only [hostMove] at h
    split at h <;> cases h
    exact .inr (.inr (.inr rfl))

/-! ### The part of the invariant that a command's pseudocode keeps (spec R53, R47) -/

/-- A valid code table matches LEN, and an invalid one holds no code (spec R53 item 3, R47). -/
structure State.TablesOk (s : State) : Prop where
  valid : s.codesValid = true → s.TableOk
  invalid : s.CodeOk

theorem State.TablesOk.congr {s t : State} (h : s.TablesOk)
    (e : t = { t with
      len := s.len, nsym := s.nsym, maxlen := s.maxlen, entry := s.entry, code := s.code
      codesValid := s.codesValid }) : t.TablesOk := by
  refine ⟨fun hv => (h.valid ?_).congr ?_, h.invalid.congr ?_⟩
  · rw [e] at hv; exact hv
  · rw [e]
  · rw [e]

theorem State.TablesOk.of_valid {s : State} (hv : s.codesValid = true) (h : s.TableOk) : s.TablesOk :=
  ⟨fun _ => h, .of_valid hv⟩

theorem State.TablesOk.of_code {s : State} (hv : s.codesValid = false) (h : s.code = tfill 0) : s.TablesOk :=
  ⟨fun ht => by simp [hv] at ht, .of_code h⟩

theorem buildTree_tablesOk {s : State} (h : s.TablesOk) : (buildTree s).Keeps State.TablesOk := by
  refine (buildTree_spec s).keeps (fun _ t ht => ?_) fun e t ⟨_, ht⟩ => ?_
  · subst ht; exact .of_code rfl rfl
  · subst ht; exact h

theorem buildCodes_tablesOk (s : State) : (buildCodes s).Keeps State.TablesOk := by
  refine (buildCodes_spec s).keeps (fun _ t ⟨hT, c, ht⟩ => ?_) fun e t ⟨_, ht⟩ => ?_
  · subst ht; exact .of_valid rfl hT
  · subst ht; exact .of_code rfl rfl

theorem hdrRead_tablesOk (s : State) : (hdrRead s).Keeps State.TablesOk := by
  refine (hdrRead_spec s).keeps (fun _ t ⟨_, hv, hT⟩ => .of_valid hv hT) fun e t ⟨_, ht⟩ => ?_
  rw [ht]; exact .of_code rfl rfl

theorem encodeAll_tablesOk {s : State} (h : s.TablesOk) : (encodeAll s).Keeps State.TablesOk := by
  have hT : (encodeAll s).Keeps fun t => t.codesValid = true → t.TableOk :=
    (encodeAll_spec s).keeps (fun _ _ ⟨_, ht⟩ => ht) fun _ t ⟨_, _, ht⟩ => ht.elim (fun e => e ▸ h.valid) id
  exact (hT.and (encodeAll_codeOk h.invalid)).mono fun t ⟨hv, hi⟩ => ⟨hv, hi⟩

theorem decodeAll_tablesOk (s : State) : (decodeAll s).Keeps State.TablesOk := by
  have hT : (decodeAll s).Keeps fun t => t.codesValid = true → t.TableOk :=
    (decodeAll_spec s).keeps (fun _ _ ⟨_, ht⟩ => ht) fun _ _ ⟨_, _, ht⟩ => ht
  exact (hT.and (decodeAll_codeOk s)).mono fun t ⟨hv, hi⟩ => ⟨hv, hi⟩

/-- Every command leaves tables that match: those that write no table by their frame (spec R51, R53). -/
theorem pseudo_tablesOk (i : Instr) {s : State} (h : s.TablesOk) : (Instr.pseudo i s).Keeps State.TablesOk := by
  cases i with
  | reset => exact .of_code rfl rfl
  | buildTree => exact buildTree_tablesOk h
  | buildCodes => exact buildCodes_tablesOk s
  | hdrRead => exact hdrRead_tablesOk s
  | encode => exact encodeAll_tablesOk h
  | decode => exact decodeAll_tablesOk s
  | _ => exact (pseudo_changes _ s).mono fun t ht => h.congr (by rw [ht.1]; rfl)

theorem encSym_keeps (x : Byte) {s : State} (h : s.WaccOk) : (encSym x s).Keeps State.WaccOk := by
  unfold encSym
  split
  · exact h
  · split
    · exact h
    · exact putCode_keeps _ _ h

/-- Every command keeps the writer's accumulator below its count: those of the writer by their own rules (spec R206). -/
theorem pseudo_waccOk (i : Instr) {s : State} (h : s.WaccOk) : (Instr.pseudo i s).Keeps State.WaccOk := by
  cases i with
  | reset => exact Nat.one_pos
  | putBit arg =>
    simp only [Instr.pseudo]
    split
    · exact putBit_keeps _ h
    · exact h
  | putBits arg =>
    simp only [Instr.pseudo]
    split
    · exact putCode_keeps _ _ h
    · exact h
  | flush => exact flush_keeps h
  | encSym arg => exact encSym_keeps arg h
  | encode => exact encodeAll_keeps h
  | _ => exact (pseudo_changes _ s).mono fun t ht => by rw [ht.1]; exact h

theorem decSym_keeps {s : State} (h : s.RaccOk) : (decSym s).Keeps State.RaccOk := by
  unfold decSym
  split
  · exact h
  · exact (decodeSym_keeps _ h).bind fun _ t ht => ht

theorem align_keeps {s : State} (h : s.RaccOk) : (align s).Keeps State.RaccOk := by
  rw [align_eq]
  split
  · exact h
  · exact Nat.one_pos

/-- Every command keeps the reader's accumulator below its count: those of the reader by their own rules (spec R206). -/
theorem pseudo_raccOk (i : Instr) {s : State} (h : s.RaccOk) : (Instr.pseudo i s).Keeps State.RaccOk := by
  cases i with
  | reset => exact Nat.one_pos
  | getBit => exact (getBit_keeps _ h).bind fun _ t ht => ht
  | getBits arg =>
    simp only [Instr.pseudo]
    split
    · exact (getBits_keeps _ _ _ h).bind fun _ t ht => ht
    · exact h
  | align => exact align_keeps h
  | decSym => exact decSym_keeps h
  | decode => exact decodeAll_keeps h
  | _ => exact (pseudo_changes _ s).mono fun t ht => by rw [ht.1]; exact h

/-- The accumulators and the tables meet the invariant, whatever the record of errors and PENDING hold. -/
structure State.DataOk (s : State) : Prop where
  wacc : s.WaccOk
  racc : s.RaccOk
  tables : s.TablesOk

theorem State.Inv.dataOk {s : State} (h : s.Inv) : s.DataOk := ⟨h.wacc, h.racc, h.table, h.noTable⟩

/-- The accumulators and the tables do not depend on the record of errors or on PENDING. -/
theorem State.DataOk.inv {s t : State} (h : s.DataOk)
    (e : t = { s with err := t.err, fatal := t.fatal, errcode := t.errcode, pending := t.pending })
    (hf : t.fatal = true → t.err = true) (hc : t.err = false → t.errcode = 0) (hp : t.pending = none) : t.Inv := by
  refine ⟨?_, ?_, fun hv => (h.tables.valid ?_).congr ?_, ?_, hf, hc, by simp [hp]⟩
  · rw [e]; exact h.wacc
  · rw [e]; exact h.racc
  · rw [e] at hv; exact hv
  · rw [e]
  · rw [e]; exact h.tables.invalid

theorem pseudo_dataOk (i : Instr) {s : State} (h : s.DataOk) : (Instr.pseudo i s).Keeps State.DataOk :=
  (((pseudo_waccOk i h.wacc).and (pseudo_raccOk i h.racc)).and (pseudo_tablesOk i h.tables)).mono
    fun _ ⟨⟨hw, hr⟩, ht⟩ => ⟨hw, hr, ht⟩

/-! ### Every step keeps the invariant -/

/-- The invariant says nothing about the fields that `t` may have of its own here. -/
theorem State.Inv.congr {s t : State} (h : s.Inv)
    (e : t = { s with
      fmt := t.fmt, ovr := t.ovr, data := t.data, total := t.total, remain := t.remain, incnt := t.incnt
      outcnt := t.outcnt, freq := t.freq, inq := t.inq, inEnd := t.inEnd, outq := t.outq, outFail := t.outFail
      script := t.script, taken := t.taken, reads := t.reads }) : t.Inv := by
  rw [e]
  exact ⟨h.wacc, h.racc, fun hv => (h.table hv).congr rfl, h.noTable, h.fatalErr, h.noErr, h.filter⟩

/-- The commands other than RESET and ERR_CLEAR leave the record of errors to the end of the step. -/
theorem writtenBy_errors {i : Instr} (s t : State) (hr : i ≠ .reset) (hc : i ≠ .errClear) :
    (writtenBy i s t).err = s.err ∧ (writtenBy i s t).fatal = s.fatal ∧ (writtenBy i s t).errcode = s.errcode := by
  cases i with
  | reset => exact absurd rfl hr
  | errClear => exact absurd rfl hc
  | _ => exact ⟨rfl, rfl, rfl⟩

/-- Where a command ends without an error, no ERRCODE is left without ERR, and no FATAL where the command is one that
the filter lets pass (spec R34, R332, R342). -/
theorem ChangesOnly.errors {i : Instr} {s u : State} (h : ChangesOnly i s u) (hs : s.Inv)
    (hc : i = .errClear → s.fatal = false) :
    (u.fatal = true → u.err = true) ∧ (u.err = false → u.errcode = 0) := by
  by_cases hr : i = .reset
  · subst hr; rw [h.1]; exact ⟨fun hf => hf, fun _ => rfl⟩
  by_cases he : i = .errClear
  · rw [h.1, he]
    exact ⟨fun hf => absurd hf (by simp [writtenBy, hc he]), fun _ => rfl⟩
  obtain ⟨h1, h2, h3⟩ := writtenBy_errors s u hr he
  rw [h.1, h1, h2, h3]
  exact ⟨hs.fatalErr, hs.noErr⟩

theorem exec_inv {i : Instr} {s t : State} (hs : s.Inv) (hc : i = .errClear → s.fatal = false)
    (h : exec i s = .next t) : t.Inv := by
  have hk := (pseudo_changes i s).and (pseudo_dataOk i hs.dataOk)
  rcases exec_cases hk h with ⟨u, ⟨hu, hd⟩, rfl⟩ | ⟨e, u, ⟨-, hd⟩, rfl⟩ | ⟨-, rfl⟩
  · obtain ⟨hf, he⟩ := hu.errors hs hc
    exact hd.inv rfl hf he rfl
  · exact hd.inv rfl (fun _ => rfl) (by simp) rfl
  · exact hs

theorem coreStep_inv {s t : State} (hs : s.Inv) (h : coreStep s = .next t) : t.Inv := by
  rcases coreStep_cases h with rfl | ⟨w, e, -, rfl⟩ | ⟨w, i, hp, hd, hx⟩
  · exact hs
  · exact hs.dataOk.inv rfl (fun _ => rfl) (fun he => nomatch he) rfl
  · refine exec_inv hs (fun hi => ?_) hx
    by_contra hf
    have hw : w = 1 := (hs.filter w hp).1 (by simpa using hf)
    rw [hw, hi] at hd
    cases hd

theorem resetBlock_inv (s : State) : s.resetBlock.Inv where
  wacc := Nat.one_pos
  racc := Nat.one_pos
  table := fun hv => nomatch hv
  noTable := State.CodeOk.of_code rfl
  fatalErr := fun hf => hf
  noErr := fun _ => rfl
  filter := fun _ hp => nomatch hp

theorem memWrite_inv {s t : State} {addr width : Nat} {v : Word} (hs : s.Inv) (ht : t = s.memWrite addr width v) :
    t.Inv := by
  rcases memWrite_changes ht with h | h | ⟨hf, he, h⟩
  · exact hs.congr (by rw [h])
  · rw [h]
    exact ⟨hs.wacc, hs.racc, fun hv => (nomatch hv), State.CodeOk.of_code rfl, hs.fatalErr, hs.noErr, hs.filter⟩
  · rw [h]
    refine ⟨hs.wacc, hs.racc, fun hv => (hs.table hv).congr rfl, hs.noTable, hs.fatalErr, hs.noErr, fun w hw => ?_⟩
    cases hw
    exact ⟨hf, he⟩

theorem hostMove_inv {m : HostMove} {s t : State} (hs : s.Inv) (h : hostMove m s = .next t) : t.Inv := by
  rcases hostMove_changes h with ⟨_, _, _, ht⟩ | ⟨-, rfl⟩ | ⟨b, -, h⟩ | h
  · exact memWrite_inv hs ht
  · exact resetBlock_inv s
  · exact hs.congr (by rw [h])
  · exact hs.congr (by rw [h])

/-- Settles O15: the pseudocode of every command keeps the accumulators and the tables, the end of a core step the
record of errors, and a host move that writes more than the invariant leaves open is a register write or HardReset. -/
theorem everyStepKeepsInvariant : Obligations.EveryStepKeepsInvariant := by
  intro s t hs h
  rcases step_turn h with ⟨u, hu, hc, -⟩ | ⟨u, m, hu, hm, -⟩ | ht
  · exact coreStep_inv (hs.congr (by rw [hu])) hc
  · exact hostMove_inv (hs.congr (by rw [hu])) hm
  · exact hs.congr (by rw [ht])

/-- Settles O14: power-on is a reset state. -/
theorem resetMeetsInvariant : Obligations.ResetMeetsInvariant := resetBlock_inv State.reset

/-- Settles O16: the table matches LEN, so its codes are laid one after the other in the code space. -/
theorem validCodesArePrefixFree : Obligations.ValidCodesArePrefixFree := by
  intro s hs hv
  have hT := hs.table hv
  exact ⟨fun x y hne hx hy hp => hne (hT.prefix_free hx hy hp), hT.code_lt⟩

/-! ### What no command but RESET, and no host move but HardReset, takes back -/

/-- A command other than RESET does not clear FATAL (spec R332, R340). -/
theorem exec_keeps_fatal {i : Instr} {s t : State} (hi : i ≠ .reset) (hf : s.fatal = true) (h : exec i s = .next t) :
    t.fatal = true := by
  have hu : ∀ u, ChangesOnly i s u → u.fatal = true := by
    intro u hu
    rw [hu.1, ← hf]
    cases i with
    | reset => exact absurd rfl hi
    | _ => rfl
  rcases exec_cases (pseudo_changes i s) h with ⟨u, hc, rfl⟩ | ⟨e, u, hc, rfl⟩ | ⟨-, rfl⟩
  · exact hu u hc
  · simp [hu u hc]
  · exact hf

theorem coreStep_keeps_fatal {s t : State} (hf : s.fatal = true) (h : coreStep s = .next t) :
    t.fatal = true ∨ s.pending = some 1 := by
  rcases coreStep_cases h with rfl | ⟨w, e, -, rfl⟩ | ⟨w, i, hp, hd, hx⟩
  · exact .inl hf
  · exact .inl (by simp [rejectWord, hf])
  · by_cases hi : i = .reset
    · rw [hi] at hd
      exact .inr (decode_eq_reset hd ▸ hp)
    · exact .inl (exec_keeps_fatal hi hf hx)

/-- A register write changes neither FATAL nor the output and its count (spec R89). -/
theorem memWrite_frame {s t : State} {addr width : Nat} {v : Word} (ht : t = s.memWrite addr width v) :
    t.fatal = s.fatal ∧ t.taken = s.taken ∧ t.outq = s.outq ∧ t.outcnt = s.outcnt := by
  rcases memWrite_changes ht with h | h | ⟨-, -, h⟩ <;> rw [h] <;> exact ⟨rfl, rfl, rfl, rfl⟩

theorem hostMove_keeps_fatal {m : HostMove} {s t : State} (hf : s.fatal = true) (h : hostMove m s = .next t) :
    t.fatal = true ∨ m = .hardReset := by
  rcases hostMove_changes h with ⟨_, _, _, ht⟩ | ⟨hm, -⟩ | ⟨b, -, ht⟩ | ht
  · exact .inl ((memWrite_frame ht).1.trans hf)
  · exact .inr hm
  · exact .inl (by rw [ht]; exact hf)
  · exact .inl (by rw [ht]; exact hf)

/-- The next turn is a HardReset move, or the core's with the word of RESET pending (spec R370, R371). -/
def State.ResetsNext (s : State) : Prop :=
  (∃ rest, s.script = .host .hardReset :: rest) ∨
    (s.pending = some 1 ∧ (s.script = [] ∨ ∃ rest, s.script = .core :: rest))

/-- Settles O9: a command or a move that is no reset only ever sets FATAL, and 1 is the only word that decodes to
RESET. -/
theorem onlyResetLeavesFatal : Obligations.OnlyResetLeavesFatal := by
  intro s t hf h
  suffices hr : t.fatal = true ∨ s.ResetsNext from hr
  rcases step_turn h with ⟨u, hu, hc, hs⟩ | ⟨u, m, hu, hm, rest, hs⟩ | ht
  · refine (coreStep_keeps_fatal (by rw [hu]; exact hf) hc).imp_right fun hp => .inr ⟨?_, hs⟩
    rw [hu] at hp; exact hp
  · refine (hostMove_keeps_fatal (by rw [hu]; exact hf) hm).imp_right fun he => .inl ⟨rest, ?_⟩
    rw [hs, he]
  · exact .inl (by rw [ht]; exact hf)

/-! ### The streams and the registers across a command -/

/-- Settles O24: a command that cannot be held has no input in its frame, and one that cannot raise IO.WRITE no
output. -/
theorem commandsMoveStreamsInOrder : Obligations.CommandsMoveStreamsInOrder := by
  intro i s t h
  obtain ⟨ht, hm⟩ := exec_changes h
  refine ⟨hm, fun hi => ?_, fun hi => ?_⟩
  · rw [ht]
    cases i with
    | getBit | getBits | decSym | hdrRead | encode | decode => cases hi
    | reset => exact ⟨rfl, fun hr => absurd rfl hr⟩
    | _ => exact ⟨rfl, fun _ => rfl⟩
  · rw [ht]
    cases i with
    | putBit | putBits | flush | encSym | hdrWrite | encode | decode => simp [raisedBy] at hi
    | reset => exact ⟨rfl, fun hr => absurd rfl hr⟩
    | _ => exact ⟨rfl, fun _ => rfl⟩

/-- Settles O25: a field that a command does not own is not in its frame. -/
theorem onlyOwnersWriteRegisters : Obligations.OnlyOwnersWriteRegisters := by
  intro i s t h
  rw [(exec_changes h).1]
  cases i <;> simp [writtenBy]

/-! ### The output -/

/-- From `s` to `t` the bytes the host took, followed by the queue, grew at the end only, and OUTCNT counted what came
(spec R91, R95). -/
def OutputGrows (s t : State) : Prop :=
  ∃ e, t.output = s.output ++ e ∧ t.outcnt = s.outcnt + BitVec.ofNat 64 e.length

/-- The output and its count, as they are after a reset (spec R370, R372). -/
def OutputKept (s t : State) : Prop := t.output = s.output ∧ t.outcnt = 0

theorem OutputGrows.of_eq {s t : State} (ht : t.output = s.output) (hc : t.outcnt = s.outcnt) : OutputGrows s t :=
  ⟨[], by simpa using ht, by simpa using hc⟩

theorem StreamsMove.outputGrows {s t : State} (h : StreamsMove s t) (ht : t.taken = s.taken) : OutputGrows s t := by
  obtain ⟨-, e, he, hc⟩ := h
  exact ⟨e, by rw [State.output, State.output, ht, he, List.append_assoc], hc⟩

theorem exec_output {i : Instr} {s t : State} (h : exec i s = .next t) :
    OutputGrows s t ∨ (i = .reset ∧ OutputKept s t) := by
  obtain ⟨⟨-, -, -, ht, -⟩, -⟩ := onlyOwnersWriteRegisters i s t h
  by_cases hi : i = .reset
  · subst hi; cases h; exact .inr ⟨rfl, rfl, rfl⟩
  · exact .inl (((exec_changes h).2 hi).outputGrows ht)

theorem coreStep_output {s t : State} (h : coreStep s = .next t) :
    OutputGrows s t ∨ (s.pending = some 1 ∧ OutputKept s t) := by
  rcases coreStep_cases h with rfl | ⟨w, e, -, rfl⟩ | ⟨w, i, hp, hd, hx⟩
  · exact .inl (.of_eq rfl rfl)
  · exact .inl (.of_eq rfl rfl)
  · refine (exec_output hx).imp_right fun ⟨hi, ht⟩ => ⟨?_, ht⟩
    rw [hi] at hd
    exact decode_eq_reset hd ▸ hp

theorem hostMove_output {m : HostMove} {s t : State} (h : hostMove m s = .next t) :
    OutputGrows s t ∨ (m = .hardReset ∧ OutputKept s t) := by
  rcases hostMove_changes h with ⟨_, _, _, ht⟩ | ⟨hm, rfl⟩ | ⟨b, hq, ht⟩ | ht
  · obtain ⟨-, h1, h2, h3⟩ := memWrite_frame ht
    exact .inl (.of_eq (by rw [State.output, State.output, h1, h2]) h3)
  · exact .inr ⟨hm, rfl, rfl⟩
  · refine .inl (.of_eq ?_ ?_)
    · rw [State.output, State.output, hq, ht]; simp
    · rw [ht]
  · exact .inl (.of_eq (by rw [ht]; rfl) (by rw [ht]))

theorem step_output {s t : State} (h : step s = .next t) : OutputGrows s t ∨ (s.ResetsNext ∧ OutputKept s t) := by
  rcases step_turn h with ⟨u, hu, hc, hs⟩ | ⟨u, m, hu, hm, rest, hs⟩ | ht
  · have ho := coreStep_output hc
    rw [hu] at ho
    exact ho.imp_right fun ⟨hp, hk⟩ => ⟨.inr ⟨hp, hs⟩, hk⟩
  · have ho := hostMove_output hm
    rw [hu] at ho
    exact ho.imp_right fun ⟨he, hk⟩ => ⟨.inl ⟨rest, by rw [hs, he]⟩, hk⟩
  · exact .inl (.of_eq (by rw [ht]; rfl) (by rw [ht]))

/-- Settles O23: commands append, a Pop moves the first byte of the queue to the end of what was taken, and the two
resets keep both. -/
theorem outputIsFifo : Obligations.OutputIsFifo := by
  intro s t h
  rcases step_output h with ⟨e, he, hc⟩ | ⟨hr, he, h0⟩
  · exact ⟨e, he, .inl hc⟩
  · exact ⟨[], he.trans (List.append_nil _).symm, .inr ⟨rfl, h0, hr⟩⟩

/-! ### What the registers read, by address (spec R31 to R47, R86) -/

theorem memRead_addr (s : State) (r : Reg) : s.memRead r.addr 8 = s.readReg r := by
  rw [memRead_cases, if_pos rfl, regAt_addr]
  rfl

/-- No named register lies among the reserved slots (spec R86). -/
theorem addr_not_reserved {r : Reg} (hr : r ≠ .reserved) :
    ¬ ((0x0070 ≤ r.addr ∧ r.addr ≤ 0x07F8) ∨ (0x2800 ≤ r.addr ∧ r.addr ≤ 0x3FF8)) := by
  cases r with
  | reserved => exact absurd rfl hr
  | freq x | len x | entry x | code x =>
    have := x.isLt
    simp only [Reg.addr]
    omega
  | _ => simp [Reg.addr]

theorem memRead_reserved (s : State) {a : Nat} (h : (0x0070 ≤ a ∧ a ≤ 0x07F8) ∨ (0x2800 ≤ a ∧ a ≤ 0x3FF8)) :
    s.memRead a 8 = 0 := by
  rw [memRead_cases, if_pos rfl]
  by_cases ha : a % 8 = 0
  · rcases regAt_valid ha (by omega) with ⟨r, -, hr, rfl⟩ | ⟨hr, -⟩
    · exact absurd h (addr_not_reserved hr)
    · rw [hr]; rfl
  · rw [regAt_invalid (.inl ha)]; rfl

theorem statusWord_toNat (s : State) : s.statusWord.toNat =
    (if s.pending = none then 0 else 1) + 2 * s.err.toNat + 4 * s.fatal.toNat + 8 * s.ovr.toNat +
      16 * s.codesValid.toNat := by
  have hb : s.busy.toNat = if s.pending = none then 0 else 1 := by
    rw [State.busy]; cases s.pending <;> rfl
  have h1 := s.busy.toNat_le
  have h2 := s.err.toNat_le
  have h3 := s.fatal.toNat_le
  have h4 := s.ovr.toNat_le
  have h5 := s.codesValid.toNat_le
  rw [State.statusWord, BitVec.toNat_ofNat, Nat.mod_eq_of_lt (by omega), hb]

/-- Two packed bytes read as one word without loss (spec R41, R42, R46). -/
theorem toNat_pack {a b : Nat} (ha : a < 256) (hb : b < 256) : (BitVec.ofNat 64 (256 * a + b)).toNat = b + 256 * a := by
  rw [BitVec.toNat_ofNat]; omega

/-- Settles O21: each address of the list is that of a register, whose value is then computed. -/
theorem registerReads : Obligations.RegisterReads := by
  intro s
  have value (r : Reg) : (s.memRead r.addr 8).toNat = (s.readReg r).toNat := congrArg BitVec.toNat (memRead_addr s r)
  refine ⟨memRead_addr s .id, (value .ctrl).trans ?_, (value .status).trans (statusWord_toNat s),
    memRead_addr s .errcode, memRead_addr s .cmd, memRead_addr s .data, memRead_addr s .total, memRead_addr s .remain,
    (value .nsym).trans ?_, (value .maxlen).trans ?_, (value .wacc).trans ?_, (value .racc).trans ?_,
    memRead_addr s .incnt, memRead_addr s .outcnt, fun x => value (.freq x), fun x => (value (.len x)).trans ?_,
    fun x => (value (.code x)).trans ?_, fun i e he => (value (.entry i)).trans ?_,
    fun i hi => (memRead_addr s (.entry i)).trans ?_, fun a ha => memRead_reserved s ha⟩
  · rw [State.readReg]
    cases s.fmt <;> rfl
  · exact BitVec.toNat_setWidth_of_le (by omega)
  · exact BitVec.toNat_setWidth_of_le (by omega)
  · exact toNat_pack (by omega) s.wbits.isLt
  · exact toNat_pack (by omega) s.rbits.isLt
  · exact BitVec.toNat_setWidth_of_le (by omega)
  · exact BitVec.toNat_setWidth ..
  · rw [State.readReg, State.entryAt, List.getD_eq_getElem?_getD, he]
    exact toNat_pack e.len.isLt e.sym.isLt
  · rw [State.readReg, State.entryAt, List.getD_eq_default _ _ hi]
    rfl

end Sys2Proof.Machine
end

section
/-! PROOFS of the family 20_memory.md. The raw reads where the input has too few bits; a step with a command pending;
what register accesses and stream moves do. -/

namespace Sys2Proof.Machine

variable {α β : Type}

/-! ### Reading on where no bit is left (spec R93, R202) -/

/-- How a read ends where no bit is left: held while the input is open, with IO.READ after its failure, and with the
caller's error at its end (spec R93). -/
def outOfBits (e : Err) (s : State) : Res α :=
  match s.inEnd with
  | .opened => .hold
  | .fail => .raise .ioRead s
  | .eos => .raise e s

theorem outOfBits_opened {s : State} (e : Err) (h : s.inEnd = .opened) : (outOfBits e s : Res α) = .hold := by
  simp [outOfBits, h]

theorem outOfBits_fail {s : State} (e : Err) (h : s.inEnd = .fail) : (outOfBits e s : Res α) = .raise .ioRead s := by
  simp [outOfBits, h]

theorem outOfBits_eos {s : State} (e : Err) (h : s.inEnd = .eos) : (outOfBits e s : Res α) = .raise e s := by
  simp [outOfBits, h]

@[simp] theorem outOfBits_bind (e : Err) (s : State) (f : α → State → Res β) :
    (outOfBits e s).bind f = outOfBits e s := by
  unfold outOfBits
  cases s.inEnd <;> rfl

theorem getBit_outOfBits {s : State} (e : Err) (h : s.inBits = []) : getBit e s = outOfBits e s := by
  rw [getBit_nil e h]
  cases hs : s.inEnd with
  | opened => exact (outOfBits_opened e hs).symm
  | fail => exact (outOfBits_fail e hs).symm
  | eos => exact (outOfBits_eos e hs).symm

/-- With fewer bits left than it needs, the loop of GET_BITS reads them all and then finds none (spec R221). -/
theorem getBits_outOfBits {s : State} (e : Err) {n : Nat} (v : Nat) (h : s.inBits.length < n) :
    ∃ t, ReadsOnly s t ∧ t.inBits = [] ∧ getBits e n v s = outOfBits e t := by
  induction n generalizing v s with
  | zero => omega
  | succ n ih =>
    cases hb : s.inBits with
    | nil => exact ⟨s, .refl s, hb, by rw [getBits, getBit_outOfBits e hb, outOfBits_bind]⟩
    | cons b rest =>
      obtain ⟨t, ht, hr, hrest, -⟩ := getBit_ok e hb
      have hlt : t.inBits.length < n := by rw [hb, List.length_cons] at h; rw [hrest]; omega
      obtain ⟨u, hr', hnil, hu⟩ := ih (2 * v + b.toNat) hlt
      exact ⟨u, .trans s t u hr hr', hnil, by rw [getBits, ht, Res.bind_ok, hu]⟩

/-- Recording an error that is not fatal sets ERR and ERRCODE and changes nothing else (spec R332, R333). -/
theorem takeError_retire_of_not_fatal (s : State) (op : Byte) {e : Err} (he : e.isFatal = false) :
    (s.takeError op e).retire = { s with pending := none, err := true, errcode := errWord op e } := by
  simp [State.takeError, State.retire, he]

theorem ReadsOnly.takeError {s t : State} {e : Err} (h : ReadsOnly s t) (op : Byte) (he : e.isFatal = false) :
    ReadsOnly { s with pending := none, err := true, errcode := errWord op e } (t.takeError op e).retire := by
  obtain ⟨ht, hp⟩ := h
  refine ⟨?_, hp⟩
  rw [takeError_retire_of_not_fatal t op he, ht]

/-- How a core step ends that ran out of bits, where the caller's error is not fatal (spec R93, R101, R333). -/
theorem finish_outOfBits {s t : State} {e : Err} (op : Op) (h : ReadsOnly s t) (hnil : t.inBits = [])
    (he : e.isFatal = false) :
    (s.inEnd = .opened → finish op s (outOfBits e t) = .next s) ∧
    (s.inEnd = .eos → ∃ u : State, finish op s (outOfBits e t) = .next u ∧ u.inBits = [] ∧
      ReadsOnly { s with pending := none, err := true, errcode := errWord op.code e } u) ∧
    (s.inEnd = .fail → ∃ u : State, finish op s (outOfBits e t) = .next u ∧ u.inBits = [] ∧
      ReadsOnly { s with pending := none, err := true, errcode := errWord op.code .ioRead } u) := by
  have hend := h.inEnd
  refine ⟨fun hs => ?_, fun hs => ⟨(t.takeError op.code e).retire, ?_, hnil, h.takeError op.code he⟩,
    fun hs => ⟨(t.takeError op.code .ioRead).retire, ?_, hnil, h.takeError op.code rfl⟩⟩
  · rw [outOfBits_opened e (hend.trans hs), finish_hold]
  · rw [outOfBits_eos e (hend.trans hs), finish_raise]
  · rw [outOfBits_fail e (hend.trans hs), finish_raise]

theorem exec_getBit_outOfBits {s : State} (h : s.inBits = []) :
    exec .getBit s = finish .getBit s (outOfBits .ioEnd s) := by
  rw [exec_eq, Instr.pseudo, getBit_outOfBits .ioEnd h, outOfBits_bind]
  rfl

theorem exec_getBits_outOfBits {s : State} {n : Byte} (hn : n.toNat ≤ 64) (h : s.inBits.length < n.toNat) :
    ∃ t, ReadsOnly s t ∧ t.inBits = [] ∧ exec (.getBits n) s = finish .getBits s (outOfBits .ioEnd t) := by
  obtain ⟨t, hr, hnil, ht⟩ := getBits_outOfBits .ioEnd 0 h
  have hok : Op.argOk .getBits n = true := decide_eq_true hn
  refine ⟨t, hr, hnil, ?_⟩
  rw [exec_eq, Instr.pseudo, if_pos hok, ht, outOfBits_bind]
  rfl

/-- Settles O35: with too few bits both commands come to a read that finds none, GET_BIT at once and GET_BITS after it
has read what there is. -/
theorem rawReadPastTheEnd : Obligations.RawReadPastTheEnd := by
  refine fun s => ⟨fun h => ?_, fun n hn h => ?_⟩
  · rw [exec_getBit_outOfBits h]
    refine ⟨fun he => ?_, fun he => ?_, fun he => ?_⟩
    · rw [outOfBits_opened _ he, finish_hold]
    · rw [outOfBits_eos _ he, finish_raise, takeError_retire_of_not_fatal s _ rfl]
      rfl
    · rw [outOfBits_fail _ he, finish_raise, takeError_retire_of_not_fatal s _ rfl]
      rfl
  · obtain ⟨t, hr, hnil, ht⟩ := exec_getBits_outOfBits hn h
    rw [ht]
    exact finish_outOfBits .getBits hr hnil rfl

/-! ### A step with a command pending (spec R98, R101) -/

/-- Settles O5: the turn is the core's, with the script empty or naming it, and the core runs the decoded word. -/
theorem stepRunsDecodedCommand : Obligations.StepRunsDecodedCommand := by
  refine fun s w i hp hd => ⟨fun hs => ?_, fun rest hs => ?_⟩
  · rw [step_core hs, coreStep_ok hp hd]
  · rw [step_core_cons hs]
    exact coreStep_ok hp hd

/-! ### Register accesses (spec R85 to R89, R100) -/

/-- A write of a register at its address (spec R87, R89). -/
theorem memWrite_reg (s : State) {a : Nat} {r : Reg} (v : Word) (h : regAt a = some r) :
    s.memWrite a 8 v = if s.busy then { s with ovr := true } else s.writeReg r v := by
  rcases memWrite_cases s a 8 v with ⟨hw | hn, -⟩ | ⟨-, r', hr, he⟩
  · exact absurd rfl hw
  · rw [h] at hn; cases hn
  · rw [h, Option.some.injEq] at hr
    rw [he, hr]

theorem memWrite_addr (s : State) (r : Reg) (v : Word) (h : s.pending = none) :
    s.memWrite r.addr 8 v = s.writeReg r v := by
  rw [memWrite_reg s v (regAt_addr r), State.busy, h]
  rfl

/-- A write of another width, misaligned or out of range is ignored (spec R85). -/
theorem memWrite_invalid (s : State) {a width : Nat} (v : Word) (h : width ≠ 8 ∨ a % 8 ≠ 0 ∨ 0x4000 ≤ a) :
    s.memWrite a width v = s := by
  rcases memWrite_cases s a width v with ⟨-, he⟩ | ⟨hw, r, hr, -⟩
  · exact he
  · rw [regAt_invalid (h.resolve_left (not_not_intro hw))] at hr
    cases hr

/-- A read of another width, misaligned or out of range gives 0 (spec R85). -/
theorem memRead_invalid (s : State) {a width : Nat} (h : width ≠ 8 ∨ a % 8 ≠ 0 ∨ 0x4000 ≤ a) :
    s.memRead a width = 0 := by
  rw [memRead_cases]
  rcases h with hw | ha
  · exact if_neg hw
  · rw [regAt_invalid ha]
    exact ite_self 0

theorem memWrite_busy {s : State} {w : Word} {a : Nat} (v : Word) (hp : s.pending = some w) (ha : a % 8 = 0)
    (h : a < 0x4000) : s.memWrite a 8 v = { s with ovr := true } := by
  obtain ⟨r, hr⟩ : ∃ r, regAt a = some r := by
    rcases regAt_valid ha h with ⟨r, hr, -⟩ | ⟨hr, -⟩
    · exact ⟨r, hr⟩
    · exact ⟨_, hr⟩
  rw [memWrite_reg s v hr, State.busy, hp]
  rfl

/-- Settles O17: a valid read is that of the register at the address, and a write is invalid, or dropped while BUSY. -/
theorem readsAndIgnoredAccesses : Obligations.ReadsAndIgnoredAccesses := by
  refine fun s a width v => ⟨rfl, fun r hw hr => ?_, fun h => ⟨memRead_invalid s h, ?_⟩,
    fun w hp hw ha hlt => ?_⟩
  · rw [memRead_cases, if_pos hw, hr]
    rfl
  · rw [hostMove, memWrite_invalid s v h]
  · rw [hw, hostMove, memWrite_busy v hp ha hlt]

/-- Outside the rows of R89 a register write has no effect (spec R86, R89). -/
theorem writeReg_ignored (s : State) (v : Word) {r : Reg} (hctrl : r.addr ≠ 0x0008) (hcmd : r.addr ≠ 0x0020)
    (hdata : r.addr ≠ 0x0028) (htotal : r.addr ≠ 0x0030) (hfile : ¬ (0x0800 ≤ r.addr ∧ r.addr < 0x1800)) :
    s.writeReg r v = s := by
  cases r with
  | ctrl => exact absurd rfl hctrl
  | cmd => exact absurd rfl hcmd
  | data => exact absurd rfl hdata
  | total => exact absurd rfl htotal
  | freq x | len x =>
    have := x.isLt
    simp only [Reg.addr] at hfile
    omega
  | _ => rfl

theorem getLsbD_zero_eq (v : Word) : v.getLsbD 0 = (v.toNat % 2 == 1) := by
  rw [BitVec.getLsbD, Nat.testBit_zero]
  rfl

/-- Settles O18: each row of R89 is the write of the register at that address; any other address holds a reserved slot or
a register without a row. -/
theorem writeEffects : Obligations.WriteEffects := by
  intro s v hp
  have write (r : Reg) : hostMove (.memWrite r.addr 8 v) s = .next (s.writeReg r v) := by
    rw [hostMove, memWrite_addr s r v hp]
  refine ⟨(write .ctrl).trans ?_, write .cmd, write .data, write .total, fun x => write (.freq x),
    fun x => (write (.len x)).trans ?_, fun a ha hlt hctrl hcmd hdata htotal hfile => ?_⟩
  · rw [State.writeReg, getLsbD_zero_eq]
  · rw [State.writeReg, show v.setWidth 8 = BitVec.ofNat 8 (v.toNat % 256) from byte_ext (by simp)]
  · rcases regAt_valid ha hlt with ⟨r, -, -, rfl⟩ | ⟨hr, -⟩
    · rw [write, writeReg_ignored s v hctrl hcmd hdata htotal hfile]
    · rw [hostMove, memWrite_reg s v hr, State.busy, hp]
      rfl

theorem memWrite_cmd (s : State) (w : Word) : s.memWrite 0x0020 8 w = s.issue w := by
  rw [memWrite_reg s w (a := 0x0020) (regAt_addr .cmd), State.writeReg, State.issue]
  split <;> rfl

/-- Settles O19: a CMD write issues its word, and the filter of R100 says what comes of that. -/
theorem commandWriteIsFiltered : Obligations.CommandWriteIsFiltered := by
  intro s w
  rw [hostMove, memWrite_cmd]
  have hbusy : s.busy = true ↔ s.pending ≠ none := Option.isSome_iff_ne_none
  have hpass : w ∉ ([0, 1, 2] : List Word) ↔ ¬ (w = 0 ∨ w = 1 ∨ w = 2) := by simp
  simp only [State.issue, hbusy, hpass]

/-! ### The stream moves (spec R104) -/

/-- Settles O22: each move of the streams, under the condition that enables it. -/
theorem streamMoves : Obligations.StreamMoves := by
  refine fun s => ⟨fun b h => if_pos h, fun h => if_pos h, fun h => if_pos h, fun h => ?_, fun b rest h => ?_,
    fun x => rfl⟩
  · rw [hostMove, State.busy, h]
    rfl
  · rw [hostMove, h]

end Sys2Proof.Machine
end

section
/-! PROOFS of the family 30_encoding.md. The fields of a command word and the checks on them; the record of a refused
word; HDR_READ of whole headers; what ENCODE emits, and the container of copies of one byte. -/

namespace Sys2Proof.Machine

open Laws

/-! ### The opcode map and ArgOK (spec R125, R126) -/

@[simp] theorem ofCode_code (op : Op) : Op.ofCode op.code = some op := by cases op <;> rfl

theorem command_op_arg (i : Instr) : i.op.command i.arg = i := by cases i <;> rfl

@[simp] theorem op_command (op : Op) (arg : Byte) : (op.command arg).op = op := by cases op <;> rfl

/-- A command keeps an ARG that ArgOK takes: what it drops is 0 (spec R126). -/
theorem arg_command {op : Op} {arg : Byte} (h : op.argOk arg = true) : (op.command arg).arg = arg := by
  cases op with
  | putBit | putBits | encSym | getBits => rfl
  | _ => exact (eq_of_beq h).symm

/-- A command is well formed exactly when ArgOK takes its ARG (spec R126). -/
theorem wf_eq_argOk (i : Instr) : i.wf = i.op.argOk i.arg := by
  cases i with
  | putBit arg => exact (CommandWord.putBit arg).2
  | _ => rfl

theorem mem_opcodeValues (n : Nat) : n ∈ opcodeValues ↔ ∃ op : Op, op.code.toNat = n := by
  have hall (op : Op) : op ∈ Op.all := by cases op <;> decide
  rw [show opcodeValues = Op.all.map fun op => op.code.toNat from rfl, List.mem_map]
  simp only [hall, true_and]

/-- ArgOK of an opcode, in numbers (spec R126). -/
theorem argOk_iff_argFits (op : Op) (arg : Byte) : op.argOk arg = true ↔ ArgFits op.code.toNat arg.toNat := by
  have hnum (b : Byte) : (arg == b) = true ↔ arg.toNat = b.toNat := by rw [beq_iff_eq, BitVec.toNat_inj]
  cases op with
  | putBit => rw [Op.argOk, Bool.or_eq_true, hnum, hnum]; rfl
  | putBits | getBits => exact decide_eq_true_iff
  | encSym => exact ⟨fun _ => trivial, fun _ => rfl⟩
  | _ => exact hnum 0

/-! ### The fields of a command word (spec R120) -/

theorem opField_toNat (w : Word) : (opField w).toNat = w.toNat % 256 := by simp [opField]

theorem commandWord_fields (op arg : Byte) :
    opField (commandWord op arg) = op ∧ argField (commandWord op arg) = arg ∧
      reservedField (commandWord op arg) = 0 := by
  have hw := word_toNat (commandWord op arg)
  rw [CommandWord.commandWord_toNat] at hw
  have hop := op.isLt
  have harg := arg.isLt
  have hop' := (opField (commandWord op arg)).isLt
  have harg' := (argField (commandWord op arg)).isLt
  exact ⟨byte_ext (by omega), byte_ext (by omega), BitVec.eq_of_toNat_eq (show _ = 0 by omega)⟩

theorem reservedField_eq_zero_iff (w : Word) : reservedField w = 0 ↔ w.toNat < 2 ^ 16 := by
  have hw := word_toNat w
  have hop := (opField w).isLt
  have harg := (argField w).isLt
  rw [← BitVec.toNat_inj]
  simp only [BitVec.ofNat_eq_ofNat, BitVec.toNat_ofNat]
  omega

theorem argField_toNat {w : Word} (h : w.toNat < 2 ^ 16) : (argField w).toNat = w.toNat / 256 := by
  have hw := word_toNat w
  have hop := (opField w).isLt
  omega

/-- The decoder on a word whose OP is in the map (spec R124). -/
theorem decode_of_opField {w : Word} {op : Op} (h : opField w = op.code) :
    decode w =
      if reservedField w ≠ 0 then .error .reservedBits
      else if op.argOk (argField w) then .ok (op.command (argField w)) else .error .badArg := by
  rw [decode, h, ofCode_code]

theorem decode_illegalOp {w : Word} (h : w.toNat % 256 ∉ opcodeValues) : decode w = .error .illegalOp := by
  have hnone : Op.ofCode (opField w) = none := by
    refine Option.eq_none_iff_forall_ne_some.2 fun op hop => h ((mem_opcodeValues _).2 ⟨op, ?_⟩)
    have hcode : op.code = opField w := by simpa using List.find?_some hop
    rw [hcode, opField_toNat]
  rw [decode, hnone]

theorem exists_opField_eq {w : Word} (h : w.toNat % 256 ∈ opcodeValues) : ∃ op : Op, opField w = op.code := by
  obtain ⟨op, hop⟩ := (mem_opcodeValues _).1 h
  exact ⟨op, byte_ext (by rw [opField_toNat, hop])⟩

theorem decode_reservedBits {w : Word} (hop : w.toNat % 256 ∈ opcodeValues) (hres : 2 ^ 16 ≤ w.toNat) :
    decode w = .error .reservedBits := by
  obtain ⟨op, hcode⟩ := exists_opField_eq hop
  have hne : reservedField w ≠ 0 := by rw [Ne, reservedField_eq_zero_iff]; omega
  rw [decode_of_opField hcode, if_pos hne]

/-- The last check, on a word whose OP is in the map and whose reserved bits are 0 (spec R124, R126). -/
theorem decode_of_lt {w : Word} {op : Op} (hcode : opField w = op.code) (hres : w.toNat < 2 ^ 16) :
    decode w = if op.argOk (argField w) then .ok (op.command (argField w)) else .error .badArg := by
  rw [decode_of_opField hcode, if_neg (not_not.2 ((reservedField_eq_zero_iff w).2 hres))]

theorem argOk_argField_iff {w : Word} {op : Op} (hcode : opField w = op.code) (hres : w.toNat < 2 ^ 16) :
    op.argOk (argField w) = true ↔ ArgFits (w.toNat % 256) (w.toNat / 256) := by
  rw [argOk_iff_argFits, ← hcode, opField_toNat, argField_toNat hres]

theorem decode_badArg {w : Word} (hop : w.toNat % 256 ∈ opcodeValues) (hres : w.toNat < 2 ^ 16)
    (harg : ¬ ArgFits (w.toNat % 256) (w.toNat / 256)) : decode w = .error .badArg := by
  obtain ⟨op, hcode⟩ := exists_opField_eq hop
  rw [decode_of_lt hcode hres, if_neg (mt (argOk_argField_iff hcode hres).1 harg)]

theorem decode_command {w : Word} (hop : w.toNat % 256 ∈ opcodeValues) (hres : w.toNat < 2 ^ 16)
    (harg : ArgFits (w.toNat % 256) (w.toNat / 256)) : ∃ i, decode w = .ok i := by
  obtain ⟨op, hcode⟩ := exists_opField_eq hop
  exact ⟨_, by rw [decode_of_lt hcode hres, if_pos ((argOk_argField_iff hcode hres).2 harg)]⟩

/-- Settles O2: the fields of the word are the command's opcode and ARG with the reserved bits 0, the map gives the
opcode back, and ArgOK takes the ARG of a well-formed command. -/
theorem decodeInvertsEncode : Obligations.DecodeInvertsEncode := by
  intro i hwf
  obtain ⟨hop, harg, hres⟩ := commandWord_fields i.op.code i.arg
  rw [wf_eq_argOk] at hwf
  rw [encode, decode_of_opField hop, harg, hres, if_neg (by simp), if_pos hwf, command_op_arg]

/-- Settles O3: the word and the word of its command have the same three fields. -/
theorem decodedWordIsEncoded : Obligations.DecodedWordIsEncoded := by
  intro w i h
  obtain ⟨op, hop, hres, harg, rfl⟩ := decode_eq_ok h
  refine ⟨?_, BitVec.eq_of_toNat_eq ?_⟩
  · rw [wf_eq_argOk, op_command, arg_command harg, harg]
  · rw [CommandWord.fields, op_command, arg_command harg, word_toNat w, hop, hres]
    simp only [BitVec.ofNat_eq_ofNat, BitVec.toNat_ofNat]
    omega

/-- Settles O1: each word has the opcode and the ARG that its command is written with. -/
theorem commandWordsDecode : Obligations.CommandWordsDecode := by
  unfold Obligations.CommandWordsDecode
  decide

/-! ### The record of a refused word (spec R124, R127, R333) -/

/-- ERRCODE of an error as a number: `OP * 65536 + CLASS * 256 + DETAIL` (spec R34, R333). -/
theorem errWord_eq_ofNat (op : Byte) (e : Err) :
    errWord op e = BitVec.ofNat 64 (65536 * op.toNat + (256 * e.cls.code.toNat + e.detail.toNat)) := by
  have hop := op.isLt
  have hcls := e.cls.code.isLt
  have hdet := e.detail.isLt
  have hlow : 256 * e.cls.code.toNat + e.detail.toNat < 2 ^ 16 := by omega
  have hshift : op.toNat <<< 16 % 2 ^ 64 = op.toNat <<< 16 := by rw [Nat.shiftLeft_eq]; omega
  refine BitVec.eq_of_toNat_eq ?_
  rw [errWord, BitVec.or_assoc, ← commandWord, BitVec.toNat_or, CommandWord.commandWord_toNat, BitVec.toNat_shiftLeft,
    BitVec.toNat_setWidth, BitVec.toNat_ofNat, Nat.mod_eq_of_lt (show op.toNat < 2 ^ 64 by omega), hshift,
    ← Nat.shiftLeft_add_eq_or_of_lt hlow, Nat.shiftLeft_eq]
  omega

/-- The core step of a word that is no command records its error and changes nothing else (spec R124, R127). -/
theorem coreStep_refused {s : State} {w : Word} {e : DecodeError} {n : Nat} (hp : s.pending = some w)
    (hd : decode w = .error e) (hn : 256 * (decodeErr e).cls.code.toNat + (decodeErr e).detail.toNat = n) :
    coreStep s = .next { s with
      pending := none, err := true, errcode := BitVec.ofNat 64 (65536 * (w.toNat % 256) + n) } := by
  have hnf : (decodeErr e).isFatal = false := by cases e <;> rfl
  rw [coreStep_error hp hd, rejectWord, takeError_retire_of_not_fatal s _ hnf, errWord_eq_ofNat, opField_toNat, hn]

/-- Settles O4: the decoder makes the three checks in this order, and each refusal is recorded the same way. -/
theorem illegalWordsAreRecorded : Obligations.IllegalWordsAreRecorded := by
  refine fun s w hp => ⟨fun hop => coreStep_refused hp (decode_illegalOp hop) rfl,
    fun hop hres => coreStep_refused hp (decode_reservedBits hop hres) rfl,
    fun hop hres harg => coreStep_refused hp (decode_badArg hop hres harg) rfl, fun hop hres harg => ?_⟩
  obtain ⟨i, hi⟩ := decode_command hop hres harg
  exact ⟨i, hi, coreStep_ok hp hi⟩
/-! ### HDR_READ of a whole header (spec R252, R253) -/

/-- Settles O46: an ended input and symbol_count 0 are the two ways to the empty table. -/
theorem hdrReadEmptyContainer : Obligations.HdrReadEmptyContainer := by
  refine fun s rest hr => ⟨fun hq he => ?_, fun hq => ?_⟩
  · have hread : hdrRead s = .ok () s.emptyTable := by
      rw [hdrRead, hdrReadBody, if_neg (not_not.2 hr), fetchByteOrEnd_nil hq, he]
      rfl
    rw [exec_eq, Instr.pseudo, hread, finish_ok]
    rfl
  · have hread : hdrRead s = .ok () ({ s with inq := rest, incnt := s.incnt + 1 + 1 } : State).emptyTable := by
      rw [hdrRead, hdrReadBody, if_neg (not_not.2 hr), fetchByteOrEnd_cons hq, Res.bind_ok]
      rfl
    have hcount : s.incnt + 2 = s.incnt + 1 + 1 := by rw [BitVec.add_assoc]; rfl
    rw [exec_eq, Instr.pseudo, hread, finish_ok, hcount]
    rfl

/-- Settles O45: the parser takes exactly the header, and BuildCodes gives the lengths it installs the table with the
header's entries. -/
theorem hdrReadInstallsHeader : Obligations.HdrReadInstallsHeader := by
  intro s es total rest hr hes htotal hq
  obtain ⟨c, hc⟩ := hes.codes
  have hsorted := hes.sortedEntries_lengthsOf
  have htable : ({ s with len := lengthsOf es }.withTable c).TableOk := withTable_tableOk (by rw [hsorted]; exact hc)
  have hread := hdrRead_ok (Fin.ext hr) hes htotal hc hq
  rw [length_headerOf] at hread
  refine ⟨_, by rw [exec_eq, Instr.pseudo, hread, finish_ok], htable.congr ?_, rfl, rfl⟩
  rw [State.withTable, hsorted]
  rfl

/-! ### What ENCODE emits (spec R281, R295) -/

theorem bytesBits_injective : Function.Injective bytesBits := by
  intro as
  induction as with
  | nil => intro bs h; simpa using (congrArg List.length h).symm
  | cons a as ih =>
    intro bs h
    cases bs with
    | nil => simpa using congrArg List.length h
    | cons b bs =>
      obtain ⟨hhead, htail⟩ := List.append_inj h (by simp)
      rw [byte_ext (natBits_inj a.isLt b.isLt hhead), ih htail]

theorem outBits_of_aligned {s : State} (h : s.wcnt.val = 0) : s.outBits = bytesBits s.outq := by
  rw [State.outBits, h, natBits_zero, List.append_nil]

/-- The data pass of ENCODE on an ended input of TOTAL bytes with codes, the writer aligned: the codes of the bytes,
packed (spec R281, steps (4) and (5)). -/
theorem encodeData_ok {s : State} (he : s.inEnd = .eos) (ho : s.outFail = false) (hw : s.wcnt.val = 0)
    (hc : ∀ b ∈ s.inq, s.lenAt b ≠ 0) (hn : s.inq.length = s.total.toNat) :
    ∃ (t : State) (payload : List Byte), encodeData s = .ok () t ∧ DataPassOnly s t ∧ t.inq = [] ∧ t.wcnt.val = 0 ∧
      t.outq = s.outq ++ payload ∧ IsPacked (s.inq.flatMap s.symBits) payload := by
  obtain ⟨u, hu, hsu, hqu, hbu⟩ := encodeLoop_ok s.inq 0 rfl he ho hc (by omega)
  obtain ⟨t, ht, hut, hwt, -, -, hbt⟩ := flush_ok (s := u) (by rw [hsu.1]; exact ho)
  have hst := DataPassOnly.trans s u t hsu hut.dataPass
  obtain ⟨-, payload, hout, -⟩ := hst.2
  refine ⟨t, payload, ?_, hst, by rw [hut.1]; exact hqu, congrArg Fin.val hwt, hout,
    (8 - u.wcnt.val) % 8, Nat.mod_lt _ (by omega), ?_⟩
  · have htotal : u.total = s.total := by rw [hsu.1]
    rw [encodeData, hu, Res.bind_ok, htotal, if_neg (by omega), ht]
  · rw [hbu, outBits_of_aligned hw, outBits_of_aligned (congrArg Fin.val hwt), hout, bytesBits_append,
      List.append_assoc] at hbt
    exact List.append_cancel_left hbt

theorem exec_buildTree_ok {s : State} (hlt : s.totalFreq < 2 ^ 64) (hne : s.totalFreq ≠ 0) :
    exec .buildTree s = .next s.withTree.retire := by
  rw [exec_eq, Instr.pseudo, buildTree_eq, if_neg (symbols_ne_nil hne), if_neg (by rw [← totalFreq_eq_freqSum]; omega),
    finish_ok]

/-- The table ENCODE works with: the lengths of the tree and the codes BuildCodes gives them (spec R281). -/
theorem hasEncodeTable_withTable {s : State} {c : Table CodeWord} (hlt : s.totalFreq < 2 ^ 64) (hne : s.totalFreq ≠ 0)
    (hc : codesOf (sortedEntries s.treeLengths) = .ok c) : HasEncodeTable s (s.withTree.withTable c) :=
  ⟨⟨s.withTree.retire, exec_buildTree_ok hlt hne, rfl⟩, by rw [totalFreq_eq_freqSum]; rfl, rfl, withTable_tableOk hc⟩

theorem HasEncodeTable.len_eq {s t : State} (h : HasEncodeTable s t) (hlt : s.totalFreq < 2 ^ 64)
    (hne : s.totalFreq ≠ 0) : t.len = s.treeLengths := by
  obtain ⟨⟨b, hb, hlen⟩, -⟩ := h
  rw [exec_buildTree_ok hlt hne, Host.Outcome.next.injEq] at hb
  rw [hlen, ← hb]
  rfl

/-- What comes after the table leaves it as it is: the header and the data pass change the streams, the writer and
PENDING only. -/
theorem HasEncodeTable.congr {s t u : State} (h : HasEncodeTable s t)
    (e : u = { u with
      len := t.len, total := t.total, codesValid := t.codesValid, nsym := t.nsym, maxlen := t.maxlen
      entry := t.entry, code := t.code }) : HasEncodeTable s u := by
  obtain ⟨⟨b, hb, hlen⟩, htotal, hvalid, htable⟩ := h
  rw [e]
  exact ⟨⟨b, hb, hlen⟩, htotal, hvalid, htable.congr rfl⟩

/-- The header of the table ENCODE builds is that of its entries and of the sum of FREQ (spec R250, R281). -/
theorem headerBytes_withTree {s : State} {c : Table CodeWord} (hlt : s.totalFreq < 2 ^ 64) (hne : s.totalFreq ≠ 0)
    (hc : codesOf (sortedEntries s.treeLengths) = .ok c) :
    (s.withTree.withTable c).headerBytes = headerOf s.fmt (s.withTree.withTable c).entry s.totalFreq := by
  have htable : (s.withTree.withTable c).TableOk := withTable_tableOk hc
  have hentry : (s.withTree.withTable c).entry ≠ [] := by
    obtain ⟨x, hx⟩ := List.exists_mem_of_ne_nil _ (symbols_ne_nil hne)
    have hlen : tget s.treeLengths x ≠ 0 := treeLengths_ne_zero ((mem_symbols s x).1 hx)
    exact List.ne_nil_of_mem (htable.mem (x := x) fun h0 => hlen (BitVec.eq_of_toNat_eq h0))
  rw [headerBytes_eq htable.count hentry, ← withTree_total_toNat hlt]
  rfl

/-- Settles O53: the tables of FREQ, their header, and the data pass. -/
theorem encodeEmitsContainer : Obligations.EncodeEmitsContainer := by
  intro s data hnil hlen htotal hfreq hw ho hq he
  have hne : s.totalFreq ≠ 0 := by rw [htotal]; exact mt List.length_eq_zero_iff.1 hnil
  have hlt : s.totalFreq < 2 ^ 64 := by rwa [htotal]
  obtain ⟨c, hc, hrun⟩ := encodeAll_eq_encodeData hw hlt hne ho
  have hhdr := headerBytes_withTree hlt hne hc
  have htable := hasEncodeTable_withTable hlt hne hc
  obtain ⟨t, payload, hdata, ht, hin, hwt, hout, hpacked⟩ :=
    encodeData_ok (s := (s.withTree.withTable c).withHeader) he ho hw
      (fun b hb h0 => treeLengths_ne_zero (hfreq b (hq ▸ hb)) (BitVec.eq_of_toNat_eq h0))
      ((congrArg List.length hq).trans (htotal.symm.trans (withTree_total_toNat hlt).symm))
  have hframe : EncodesOnly s t :=
    .trans s (s.withTree.withTable c).withHeader t ⟨rfl, (StreamsMove.refl s).1, _, rfl, rfl⟩ ht.encodes
  have hentry : t.entry = (s.withTree.withTable c).entry := by rw [ht.1]; rfl
  refine ⟨t.retire, payload, ?_, ⟨?_, hframe.2⟩, htable.congr ?_, hin, hwt, ?_, ?_⟩
  · rw [exec_eq, Instr.pseudo, hrun, hdata, finish_ok]
  · rw [State.retire, hframe.1]
  · rw [State.retire, ht.1]; rfl
  · show t.outq = _
    rw [hout, State.retire, hentry, ← htotal, ← hhdr]
    rfl
  · have hsym : t.retire.symBits = (s.withTree.withTable c).withHeader.symBits := by rw [State.retire, ht.1]; rfl
    rw [hsym, ← hq]
    exact hpacked

/-! ### The container of copies of one byte (spec R136, R293) -/

theorem totalFreq_of_hasHistogram {s : State} {data : List Byte} (h : s.HasHistogram data) :
    s.totalFreq = data.length := by
  have hcount : s.freqAt = fun x => (data : Multiset Byte).count x :=
    funext fun x => (h x).trans (Multiset.coe_count ..).symm
  rw [State.totalFreq, hcount, ← List.sum_toFinset _ allBytes_nodup, Multiset.sum_count_eq_card (by simp),
    Multiset.coe_card]

theorem symbols_of_single {s : State} {x : Byte} (h : ∀ y, s.freqAt y ≠ 0 ↔ y = x) : s.symbols = [x] := by
  refine List.perm_singleton.1 ((List.perm_ext_iff_of_nodup (nodup_symbols s) (List.nodup_singleton x)).2 fun y => ?_)
  rw [mem_symbols, h, List.mem_singleton]

/-- A single symbol gets the length 1 (spec R165). -/
theorem treeLengths_of_single {s : State} {x : Byte} (h : s.symbols = [x]) : s.treeLengths = lengthsOf [⟨x, 1⟩] := by
  rw [State.treeLengths, h]
  rfl

theorem sortedEntries_single (x : Byte) : sortedEntries (lengthsOf [⟨x, 1⟩]) = [⟨x, 1⟩] :=
  List.perm_singleton.1 (sortedEntries_lengthsOf_perm (List.nodup_singleton _) (by simp))

/-- The code table of a single length 1: one entry, with the code 1 (spec R175). -/
theorem State.TableOk.single {t : State} {x : Byte} (h : t.TableOk) (hlen : t.len = lengthsOf [⟨x, 1⟩]) :
    t.entry = [⟨x, 1⟩] ∧ t.symBits x = [true] := by
  have hentry : t.entry = [⟨x, 1⟩] := by rw [h.entry_eq, hlen, sortedEntries_single]
  have hcode := h.codes
  rw [hentry] at hcode
  have hlenx : t.lenAt x = 1 := by
    rw [State.lenAt, hlen, lengthsOf, List.foldl_cons, List.foldl_nil, tget_tset_self]
    rfl
  have hcodex : t.codeAt x = 1 := by rw [State.codeAt, (code_single hcode).2, tget_tset_self]; rfl
  refine ⟨hentry, ?_⟩
  rw [State.symBits, hlenx, hcodex]
  rfl

theorem headerOf_single (fmt : Bool) (x : Byte) (n : Nat) :
    headerOf fmt [⟨x, 1⟩] n = [0x00#8, 0x01#8, x, 0x01#8] ++ if fmt then bigEndian n 8 else [] := by
  have hcount : bigEndian 1 2 = [0x00#8, 0x01#8] := by decide
  rw [headerOf, List.length_singleton, hcount, List.flatMap_singleton]
  rfl

/-- The bytes that hold a bit sequence are determined by it (spec R134). -/
theorem IsPacked.unique {bits : List Bool} {as bs : List Byte} (ha : IsPacked bits as) (hb : IsPacked bits bs) :
    as = bs := by
  obtain ⟨n, hn, ha⟩ := ha
  obtain ⟨m, hm, hb⟩ := hb
  have hla := congrArg List.length ha
  have hlb := congrArg List.length hb
  simp only [length_bytesBits, List.length_append, List.length_replicate] at hla hlb
  have hnm : n = m := by omega
  exact bytesBits_injective (ha.trans (hnm ▸ hb.symm))

/-- The byte with `r` leading ones. -/
theorem byteBits_leading_ones :
    ∀ r ≤ 8, byteBits (BitVec.ofNat 8 (256 - 2 ^ (8 - r))) = List.replicate r true ++ List.replicate (8 - r) false := by
  decide

theorem bytesBits_replicate_ones (m : Nat) : bytesBits (List.replicate m 0xFF#8) = List.replicate (8 * m) true := by
  induction m with
  | zero => rfl
  | succ m ih => rw [List.replicate_succ, bytesBits_cons, ih, Nat.mul_succ, Nat.add_comm, List.replicate_add]; rfl

/-- The bytes of `n` bits 1, zero-padded (spec R293). -/
def paddedOnes (n : Nat) : List Byte :=
  List.replicate (n / 8) 0xFF#8 ++ (if n % 8 = 0 then [] else [BitVec.ofNat 8 (256 - 2 ^ (8 - n % 8))])

theorem isPacked_paddedOnes (n : Nat) : IsPacked (List.replicate n true) (paddedOnes n) := by
  have hsplit : List.replicate n true = List.replicate (8 * (n / 8)) true ++ List.replicate (n % 8) true := by
    rw [← List.replicate_add, Nat.div_add_mod]
  rw [hsplit]
  by_cases h0 : n % 8 = 0
  · refine ⟨0, by omega, ?_⟩
    rw [paddedOnes, if_pos h0, h0, bytesBits_append, bytesBits_replicate_ones]
    simp
  · refine ⟨8 - n % 8, by omega, ?_⟩
    rw [paddedOnes, if_neg h0, bytesBits_append, bytesBits_replicate_ones, bytesBits_cons,
      byteBits_leading_ones _ (Nat.mod_lt n (by omega)).le, bytesBits_nil, List.append_nil, List.append_assoc]

/-- Settles O60: the histogram has one symbol, so the table is its single entry and the payload the bits 1. -/
theorem encodeOfSingleSymbol : Obligations.EncodeOfSingleSymbol := by
  intro s x n hpos hn hhist hw ho hq he
  have hfreq (y : Byte) : s.freqAt y ≠ 0 ↔ y = x := by
    rw [hhist, ← Nat.pos_iff_ne_zero, List.count_pos_iff, List.mem_replicate]
    exact and_iff_right (by omega)
  have hlen : (List.replicate n x).length = n := List.length_replicate
  have htotal : s.totalFreq = n := (totalFreq_of_hasHistogram hhist).trans hlen
  obtain ⟨t, payload, hrun, -, htable, -, -, hout, hpacked⟩ :=
    encodeEmitsContainer s (List.replicate n x) (List.ne_nil_of_length_pos (by omega)) (by omega)
      (htotal.trans hlen.symm) (fun y hy => (hfreq y).2 (List.eq_of_mem_replicate hy)) hw ho hq he
  have htlen := htable.len_eq (by omega) (by omega)
  rw [treeLengths_of_single (symbols_of_single hfreq)] at htlen
  obtain ⟨-, -, -, hok⟩ := htable
  obtain ⟨hentry, hbits⟩ := hok.single htlen
  have hcodes : (List.replicate n x).flatMap t.symBits = List.replicate n true := by
    rw [List.flatMap_replicate, hbits]
    simp
  rw [hcodes] at hpacked
  refine ⟨t, hrun, ?_⟩
  rw [hout, hentry, hlen, headerOf_single, hpacked.unique (isPacked_paddedOnes n), paddedOnes]
  simp only [List.append_assoc]

end Sys2Proof.Machine
end

section
/-! PROOFS of the family 40_tree_and_codes.md. The merges of the tree builder take the two least nodes, and
the lengths are the depths of the tree they end in; when BUILD_CODES accepts a set of lengths; the codes of a table are
canonical. -/

namespace Sys2Proof.Machine

/-! ### Entries of FREQ and LEN that are not 0 -/

theorem freqAt_ne_zero_iff (s : State) (x : Byte) : s.freqAt x ≠ 0 ↔ tget s.freq x ≠ 0 :=
  (BitVec.toNat_inj (y := 0#64)).not

theorem lenAt_ne_zero_iff (s : State) (x : Byte) : s.lenAt x ≠ 0 ↔ tget s.len x ≠ 0 :=
  (BitVec.toNat_inj (y := 0#8)).not

/-! ### The order of the live nodes (spec R162) -/

theorem Tree.before_iff (a b : Tree) :
    a.before b = true ↔ a.weight < b.weight ∨ (a.weight = b.weight ∧ a.key < b.key) := by
  simp [Tree.before]

theorem Tree.before_trans {a b c : Tree} (h : a.before b = true) (h' : b.before c = true) : a.before c = true := by
  rw [before_iff] at *
  omega

/-- Nodes with different keys are ordered one way or the other. -/
theorem Tree.before_of_not_before {a b : Tree} (hk : a.key ≠ b.key) (h : ¬ a.before b = true) : b.before a = true := by
  rw [before_iff] at *
  omega

/-- Of nodes with different keys, the one `takeLeast` takes is before all the others (spec R161, R162). -/
theorem takeLeast_before {t : Tree} {ts : List Tree} (hd : ((t :: ts).map Tree.key).Nodup) :
    ∀ u ∈ (takeLeast t ts).2, (takeLeast t ts).1.before u = true := by
  induction ts generalizing t with
  | nil => simp [takeLeast]
  | cons v vs ih =>
    obtain ⟨hnew, hd'⟩ := List.nodup_cons.1 hd
    have hleast := ih hd'
    have hperm := takeLeast_perm v vs
    rw [takeLeast]
    intro u hu
    split at hu
    case isTrue hlt =>
      rw [if_pos hlt]
      rcases List.mem_cons.1 (hperm.mem_iff.2 hu) with rfl | hu
      · exact hlt
      · exact Tree.before_trans hlt (hleast u hu)
    case isFalse hge =>
      rw [if_neg hge]
      rcases List.mem_cons.1 hu with rfl | hu
      · refine Tree.before_of_not_before (fun hk => hnew ?_) hge
        exact List.mem_map.2 ⟨_, hperm.mem_iff.1 List.mem_cons_self, hk.symm⟩
      · exact hleast u hu

/-! ### The merges as the relation of R161 -/

/-- What the keys of the live nodes are when the k-th internal node is made: all different, and below its key (spec
R162). -/
structure KeysOk (k : Nat) (l : List Tree) : Prop where
  distinct : (l.map Tree.key).Nodup
  below : ∀ t ∈ l, t.key < 256 + k

theorem KeysOk.perm {k : Nat} {l l' : List Tree} (h : KeysOk k l) (hp : l.Perm l') : KeysOk k l' :=
  ⟨(hp.map Tree.key).nodup_iff.1 h.distinct, fun t ht => h.below t (hp.mem_iff.2 ht)⟩

/-- The parent of two merged nodes has a key of its own. -/
theorem KeysOk.merge {k w : Nat} {a b : Tree} {rest : List Tree} (h : KeysOk k (a :: b :: rest)) :
    KeysOk (k + 1) (.node a b w (256 + k) :: rest) := by
  have hrest : ∀ t ∈ rest, t.key < 256 + k := fun t ht =>
    h.below t (List.mem_cons_of_mem _ (List.mem_cons_of_mem _ ht))
  refine ⟨List.nodup_cons.2 ⟨fun hmem => ?_, ?_⟩, fun t ht => ?_⟩
  · obtain ⟨t, ht, hk⟩ := List.mem_map.1 hmem
    exact (hrest t ht).ne hk
  · exact (List.nodup_cons.1 (List.nodup_cons.1 h.distinct).2).2
  · rcases List.mem_cons.1 ht with rfl | ht
    · exact Nat.lt_succ_self (256 + k)
    · exact Nat.lt_succ_of_lt (hrest t ht)

/-- A merge of two or more live nodes takes the least and the least of the others (spec R161, R162). -/
theorem mergeStep_least {k : Nat} {l : List Tree} (h2 : 2 ≤ l.length) (hk : KeysOk k l) :
    ∃ a b rest, l.Perm (a :: b :: rest) ∧ (∀ u ∈ b :: rest, a.before u = true) ∧ (∀ u ∈ rest, b.before u = true) ∧
      mergeStep k l = some (.node a b (a.weight + b.weight) (256 + k) :: rest) := by
  match l, h2 with
  | t :: u :: us, _ =>
    have hp1 := takeLeast_perm t (u :: us)
    have hleast := takeLeast_before hk.distinct
    cases hr : (takeLeast t (u :: us)).2 with
    | nil => rw [hr] at hp1; simpa using hp1.length_eq
    | cons v vs =>
      rw [hr] at hp1 hleast
      have hp2 := takeLeast_perm v vs
      have hkeys := (hk.perm hp1.symm).distinct
      refine ⟨_, _, _, hp1.symm.trans (hp2.symm.cons _), fun w hw => hleast w (hp2.mem_iff.1 hw),
        takeLeast_before (List.nodup_cons.1 hkeys).2, ?_⟩
      simp only [mergeStep, hr]

/-- What BuildTree's merges end in is what R161's merging ends in. -/
theorem mergeAll_merges {n k : Nat} {l : List Tree} {root : Tree} (hk : KeysOk k l) (hroot : mergeAll n k l = [root]) :
    Merges k l root := by
  induction n generalizing k l with
  | zero =>
    rw [mergeAll] at hroot
    exact hroot ▸ .one k root
  | succ n ih =>
    match l with
    | [] => cases hroot
    | [t] => exact (List.cons.inj hroot).1 ▸ .one k t
    | t :: u :: us =>
      obtain ⟨a, b, rest, hp, hleast, hsecond, hstep⟩ := mergeStep_least (by simp) hk
      rw [mergeAll, hstep] at hroot
      exact .merge k _ rest a b root hp hleast hsecond (ih (hk.perm hp).merge hroot)

theorem leaves_keysOk (s : State) : KeysOk 0 s.leaves := by
  have hkeys : s.leaves.map Tree.key = s.symbols.map BitVec.toNat := by
    rw [State.leaves, State.symbols, List.map_map, List.map_map]
    rfl
  refine ⟨?_, fun t ht => ?_⟩
  · rw [hkeys]
    exact (nodup_symbols s).map fun _ _ => byte_ext
  · obtain ⟨p, -, rfl⟩ := List.mem_map.1 ht
    exact p.1.isLt

/-- The leaves that the merging starts from, written with the frequencies as numbers (spec R161). -/
theorem leaves_eq (s : State) :
    s.leaves = (allBytes.filter fun x => s.freqAt x ≠ 0).map fun x => .leaf x (s.freqAt x) := by
  have hpred : (fun p : Byte × Word => p.2 != 0) ∘ (fun x => (x, tget s.freq x)) = fun x => decide (s.freqAt x ≠ 0) :=
    funext fun x =>
      Bool.eq_iff_iff.2 (by rw [Function.comp_apply, bne_iff_ne, decide_eq_true_iff, freqAt_ne_zero_iff])
  rw [State.leaves, tpairs_eq, List.filter_map, List.map_map, hpred]
  rfl

/-! ### The lengths are the depths of the leaves (spec R161, R164, R165) -/

theorem Tree.depthOf_eq_none {t : Tree} {x : Byte} (d : Nat) (h : x ∉ t.syms) : t.depthOf x d = none := by
  induction t generalizing d with
  | leaf s w => exact if_neg fun hs => h (List.mem_singleton.2 hs.symm)
  | node l r w k ihl ihr =>
    rw [syms, List.mem_append, not_or] at h
    rw [depthOf, ihl _ h.1, Option.orElse_none, ihr _ h.2]

/-- In a tree that has each symbol once, the depth of a leaf is the length of its entry. -/
theorem Tree.depthOf_of_mem {t : Tree} {d : Nat} (hd : t.syms.Nodup) (h : d + t.syms.length ≤ 256) :
    ∀ e ∈ t.leafEntries d, t.depthOf e.sym d = some e.len.toNat := by
  induction t generalizing d with
  | leaf s w =>
    simp only [syms, List.length_singleton] at h
    simp [leafEntries, depthOf, Nat.mod_eq_of_lt (show d < 256 by omega)]
  | node l r w k ihl ihr =>
    simp only [syms, List.length_append] at h
    obtain ⟨hdl, hdr, hdisj⟩ := List.nodup_append.1 hd
    have hl := l.syms_length_pos
    have hr := r.syms_length_pos
    intro e he
    rw [depthOf]
    rcases List.mem_append.1 he with he | he
    · rw [ihl hdl (by omega) e he, Option.orElse_some]
    · have hmem : e.sym ∈ r.syms := r.map_sym_leafEntries (d + 1) ▸ List.mem_map.2 ⟨e, he, rfl⟩
      rw [depthOf_eq_none (d + 1) fun hsl => hdisj _ hsl _ hmem rfl, Option.orElse_none, ihr hdr (by omega) e he]

/-- With two symbols or more, the lengths BuildTree writes are the leaf depths of the tree of R161. -/
theorem treeLengths_eq_depths {s : State} (h : 2 ≤ s.symbols.length) :
    ∃ root, Merges 0 s.leaves root ∧ ∀ x, s.freqAt x ≠ 0 → root.depthOf x 0 = some (tget s.treeLengths x).toNat := by
  obtain ⟨root, hroot, hp, hlen⟩ := treeLengths_of_root h
  have hd : root.syms.Nodup := hp.nodup_iff.2 (nodup_symbols s)
  have hle : root.syms.length ≤ 256 := hp.length_eq.trans_le (length_symbols_le s)
  have hsyms := root.map_sym_leafEntries 0
  refine ⟨root, mergeAll_merges (leaves_keysOk s) hroot, fun x hx => ?_⟩
  have hmem : x ∈ root.syms := hp.mem_iff.2 ((mem_symbols s x).2 hx)
  rw [← hsyms] at hmem hd
  obtain ⟨e, he, rfl⟩ := List.mem_map.1 hmem
  rw [hlen, lengthsOf, (tget_foldl_lengths _ (tfill 0) e.sym hd).1 e he rfl]
  exact Tree.depthOf_of_mem (hsyms ▸ hd) (by omega) e he

/-- With two symbols or more, the lengths BuildTree writes meet the Kraft equality (spec R167). -/
theorem kraftSum_treeLengths {s : State} (h : 2 ≤ s.symbols.length) : kraftSum s.treeLengths = 2 ^ 255 := by
  obtain ⟨root, -, hp, hlen⟩ := treeLengths_of_root h
  have hle : root.syms.length ≤ 256 := hp.length_eq.trans_le (length_symbols_le s)
  have h2 : 2 ≤ root.syms.length := h.trans_eq hp.length_eq.symm
  have hd : ((root.leafEntries 0).map fun e => e.sym).Nodup := by
    rw [root.map_sym_leafEntries 0]
    exact hp.nodup_iff.2 (nodup_symbols s)
  rw [hlen, kraftSum_lengthsOf hd (Tree.leafEntries_len_ne_zero h2 hle), Tree.roomOf_leafEntries (by omega),
    Nat.sub_zero]

/-- BuildTree gives no length to a symbol that is not present (spec R161, R165). -/
theorem treeLengths_eq_zero {s : State} {x : Byte} (hne : s.symbols ≠ []) (hx : s.freqAt x = 0) :
    tget s.treeLengths x = 0 := by
  obtain ⟨es, hes, hp, -⟩ := treeLengths_eq_lengthsOf hne
  have hout : ∀ e ∈ es, e.sym ≠ x := by
    rintro e he rfl
    exact (mem_symbols s e.sym).1 (hp.mem_iff.1 (List.mem_map.2 ⟨e, he, rfl⟩)) hx
  rw [hes, lengthsOf, (tget_foldl_lengths es (tfill 0) x (hp.nodup_iff.2 (nodup_symbols s))).2 hout, tget_tfill]

theorem two_le_length_symbols {s : State} {x y : Byte} (hxy : x ≠ y) (hx : s.freqAt x ≠ 0) (hy : s.freqAt y ≠ 0) :
    2 ≤ s.symbols.length := by
  have hsub : [x, y] ⊆ s.symbols := by simp [mem_symbols, hx, hy]
  exact (List.subperm_of_subset (by simp [hxy]) hsub).length_le

theorem totalFreq_ne_zero {s : State} {x : Byte} (hx : s.freqAt x ≠ 0) : s.totalFreq ≠ 0 := fun h0 =>
  hx (List.sum_eq_zero_iff.1 h0 _ (List.mem_map.2 ⟨x, mem_allBytes x, rfl⟩))

/-! ### BUILD_TREE -/

/-- Recording a fatal error sets ERR, FATAL and ERRCODE and changes nothing else (spec R332, R333). -/
theorem takeError_retire_of_fatal (s : State) (op : Byte) {e : Err} (he : e.isFatal = true) :
    (s.takeError op e).retire = { s with pending := none, err := true, fatal := true, errcode := errWord op e } := by
  simp [State.takeError, State.retire, he]

theorem exec_buildTree_empty {s : State} (h : s.symbols = []) :
    exec .buildTree s = .next { s with pending := none, err := true, fatal := true, errcode := 0x100201 } := by
  rw [exec_eq, Instr.pseudo, buildTree_eq, if_pos h, finish_raise, takeError_retire_of_fatal s _ rfl]
  rfl

theorem exec_buildTree_sum {s : State} (h : 2 ^ 64 ≤ s.totalFreq) :
    exec .buildTree s = .next { s with pending := none, err := true, fatal := true, errcode := 0x100204 } := by
  have hne : s.symbols ≠ [] := symbols_ne_nil (by omega)
  rw [exec_eq, Instr.pseudo, buildTree_eq, if_neg hne, if_pos (by rwa [← totalFreq_eq_freqSum]), finish_raise,
    takeError_retire_of_fatal s _ rfl]
  rfl

/-- Settles O39: the keys of the live nodes stay different, so each merge takes the two least, and the depths written
are those of the leaves. -/
theorem buildTreeWritesLeafDepths : Obligations.BuildTreeWritesLeafDepths := by
  intro s
  refine ⟨fun h => exec_buildTree_empty ((symbols_eq_nil s).2 h), exec_buildTree_sum, ?_⟩
  rintro ⟨z, hz⟩ hlt
  have htotal := totalFreq_ne_zero hz
  refine ⟨s.treeLengths, ?_, fun x hx => treeLengths_of_single (symbols_of_single hx), ?_⟩
  · rw [exec_buildTree_ok hlt htotal, totalFreq_eq_freqSum]
    rfl
  · rintro ⟨x, y, hxy, hx, hy⟩
    obtain ⟨root, hmerges, hdepth⟩ := treeLengths_eq_depths (two_le_length_symbols hxy hx hy)
    refine ⟨root, leaves_eq s ▸ hmerges, fun x => ?_⟩
    split
    case isTrue h0 => exact treeLengths_eq_zero (symbols_ne_nil htotal) h0
    case isFalse h0 => exact hdepth x h0

/-! ### BUILD_CODES -/

theorem exec_buildCodes_ok {s : State} {c : Table CodeWord} (h : codesOf (sortedEntries s.len) = .ok c) :
    exec .buildCodes s = .next (s.withTable c).retire := by
  rw [exec_eq, Instr.pseudo, buildCodes_eq, h, finish_ok]

theorem exec_buildCodes_error {s : State} {e : Err} (h : codesOf (sortedEntries s.len) = .error e)
    (he : e.isFatal = false) :
    exec .buildCodes s = .next { s with
      pending := none, nsym := 0, maxlen := 0, entry := [], code := tfill 0, codesValid := false
      err := true, errcode := errWord 0x11 e } := by
  rw [exec_eq, Instr.pseudo, buildCodes_eq, h, finish_raise, takeError_retire_of_not_fatal _ _ he]
  rfl

/-- Settles O40: the tree is a full binary tree, and BuildCodes accepts the lengths of its leaves. -/
theorem treeLengthsMeetKraftEquality : Obligations.TreeLengthsMeetKraftEquality := by
  rintro s t hlt ⟨z, hz⟩ ht
  have htotal := totalFreq_ne_zero hz
  rw [exec_buildTree_ok hlt htotal, Host.Outcome.next.injEq] at ht
  subst ht
  obtain ⟨c, hc⟩ := codesOf_treeLengths (symbols_ne_nil htotal)
  refine ⟨fun x => ?_, ?_, (s.withTree.retire.withTable c).retire, exec_buildCodes_ok hc, rfl, rfl, rfl⟩
  · rw [lenAt_ne_zero_iff]
    exact ⟨fun hl h0 => hl (treeLengths_eq_zero (symbols_ne_nil htotal) h0), treeLengths_ne_zero⟩
  · rintro ⟨x, y, hxy, hx, hy⟩
    exact kraftSum_treeLengths (two_le_length_symbols hxy hx hy)

/-- The lengths are those of the one symbol `x` exactly when it alone has an entry (spec R175). -/
theorem sortedEntries_eq_singleton_iff (s : State) (x : Byte) :
    sortedEntries s.len = [⟨x, tget s.len x⟩] ↔ ∀ y, s.lenAt y ≠ 0 ↔ y = x := by
  constructor
  · intro h y
    have hmem := mem_sortedEntries s.len ⟨y, tget s.len y⟩
    rw [h, List.mem_singleton, Entry.mk.injEq] at hmem
    rw [lenAt_ne_zero_iff]
    exact ⟨fun hy => (hmem.2 ⟨hy, rfl⟩).1, fun hy => (hmem.1 ⟨hy, congrArg _ hy⟩).1⟩
  · intro h
    refine sorted_unique (sorted_sortedEntries s.len) (List.pairwise_singleton ..) fun e => ?_
    rw [mem_sortedEntries, List.mem_singleton]
    constructor
    · rintro ⟨hne, he⟩
      obtain rfl := (h e.sym).1 ((lenAt_ne_zero_iff s e.sym).2 (he ▸ hne))
      rw [he]
    · rintro rfl
      exact ⟨(lenAt_ne_zero_iff s x).1 ((h x).2 rfl), rfl⟩

/-- Settles O41: these are the lengths that get codes, and the table then matches them. -/
theorem buildCodesAcceptsKraftSets : Obligations.BuildCodesAcceptsKraftSets := by
  intro s hkraft hsingle
  have h1 : ∀ e, sortedEntries s.len = [e] → e.len = 1 := by
    intro e he
    have hlen : tget s.len e.sym = e.len := ((mem_sortedEntries s.len e).1 (he ▸ List.mem_singleton_self e)).2
    rw [← hlen]
    exact byte_ext (hsingle e.sym ((sortedEntries_eq_singleton_iff s e.sym).1 (by rw [he, hlen])))
  obtain ⟨c, hc⟩ := (codesOf_isOk s.len).2 ⟨hkraft, h1⟩
  exact ⟨(s.withTable c).retire, exec_buildCodes_ok hc, (withTable_tableOk hc).congr rfl, rfl⟩

/-- Lengths whose Kraft sum is above 1 are refused as oversubscribed: they are two or more (spec R174). -/
theorem codesOf_oversub {len : Table Byte} (h : 2 ^ 255 < kraftSum len) :
    codesOf (sortedEntries len) = .error .oversub := by
  rw [← roomOf_sortedEntries] at h
  match hes : sortedEntries len with
  | [] => simp [hes] at h
  | [e] => exact absurd (roomOf_singleton_le e) (by rw [← hes]; omega)
  | a :: b :: es =>
    rw [hes] at h
    rw [codesOf_eq (hes ▸ sorted_sortedEntries len), if_neg (by omega)]

/-- Settles O42: the first set does not fit the code space, and the second is a single length that is not 1. -/
theorem buildCodesRefusesOthers : Obligations.BuildCodesRefusesOthers := by
  intro s
  refine ⟨fun h => ?_, fun x hx h1 => ?_⟩
  · rw [exec_buildCodes_error (codesOf_oversub h) rfl]
    rfl
  · have hne : tget s.len x ≠ 1 := fun h => h1 (congrArg BitVec.toNat h)
    have hc : codesOf (sortedEntries s.len) = .error .badLen := by
      rw [(sortedEntries_eq_singleton_iff s x).2 hx, codesOf, if_pos hne]
    rw [exec_buildCodes_error hc rfl]
    rfl

/-! ### The codes are canonical (spec R171, R173, R175) -/

/-- In a table of two entries or more, a code counted in its own room is the room of the entries before it. -/
theorem State.TableOk.code_mul_room {s : State} (h : s.TableOk) (h2 : 2 ≤ s.entry.length) {as bs : List Entry}
    {e : Entry} (hsplit : s.entry = as ++ e :: bs) : s.codeAt e.sym * e.room = roomOf as :=
  (code_of_split h.sorted (h.entry_eq ▸ nodup_sortedEntries s.len) h.codes h2 hsplit).1

theorem Entry.room_eq_mul {a b : Entry} (h : a.len.toNat ≤ b.len.toNat) :
    a.room = 2 ^ (b.len.toNat - a.len.toNat) * b.room := by
  rw [Entry.room, Entry.room, ← Nat.pow_add]
  congr 1
  have := b.len_le
  omega

/-- The code after one of a sorted table (spec R171, step (d)). -/
theorem State.TableOk.code_next {s : State} (h : s.TableOk) {as bs : List Entry} {a b : Entry}
    (hsplit : s.entry = as ++ a :: b :: bs) :
    s.codeAt b.sym = (s.codeAt a.sym + 1) * 2 ^ (b.len.toNat - a.len.toNat) := by
  have h2 : 2 ≤ s.entry.length := by
    rw [hsplit, List.length_append, List.length_cons, List.length_cons]
    omega
  have hle : a.len.toNat ≤ b.len.toNat := by
    have hsorted := entries_len_sorted h.sorted
    rw [hsplit, List.pairwise_append, List.pairwise_cons] at hsorted
    exact hsorted.2.1.1 b List.mem_cons_self
  have ha := h.code_mul_room h2 hsplit
  have hb := h.code_mul_room h2 (as := as ++ [a]) (bs := bs) (e := b) (by rw [hsplit, List.append_assoc]; rfl)
  refine Nat.eq_of_mul_eq_mul_right b.room_pos ?_
  calc s.codeAt b.sym * b.room = roomOf as + a.room := by rw [hb, roomOf_append, roomOf_cons, roomOf_nil, Nat.add_zero]
    _ = (s.codeAt a.sym + 1) * a.room := by rw [← ha, Nat.add_mul, Nat.one_mul]
    _ = (s.codeAt a.sym + 1) * 2 ^ (b.len.toNat - a.len.toNat) * b.room := by
      rw [Nat.mul_assoc, ← Entry.room_eq_mul hle]

/-- Settles O43: each code begins where the codes before it end. -/
theorem codesAreCanonical : Obligations.CodesAreCanonical := by
  intro s h
  refine ⟨fun e he => ?_, fun h2 => ⟨fun e he => ?_, fun i a b ha hb => ?_⟩⟩
  · obtain ⟨hlen, hcode⟩ := code_single (he ▸ h.codes)
    exact ⟨by rw [State.codeAt, hcode, tget_tset_self]; rfl, hlen⟩
  · obtain ⟨bs, hsplit⟩ : ∃ bs, s.entry = e :: bs := List.head?_eq_some_iff.1 (by rw [List.head?_eq_getElem?, he])
    have hzero := h.code_mul_room h2 (as := []) hsplit
    exact (Nat.mul_eq_zero.1 hzero).resolve_right e.room_pos.ne'
  · obtain ⟨hi, rfl⟩ := List.getElem?_eq_some_iff.1 ha
    obtain ⟨hi', rfl⟩ := List.getElem?_eq_some_iff.1 hb
    refine h.code_next (as := s.entry.take i) (bs := s.entry.drop (i + 2)) ?_
    rw [← List.drop_eq_getElem_cons, ← List.drop_eq_getElem_cons, List.take_append_drop]

end Sys2Proof.Machine
end

section
/-! PROOFS of the family 41_bitstream.md. Who may change the accumulators; the bit writer, with a working and with a
failing sink; the bit reader; symbol decoding where no code begins; DECODE up to and past the bytes it emits. -/

namespace Sys2Proof.Machine

variable {α β γ : Type}

/-! ### Who may change the accumulators (spec R206) -/

/-- Settles O26: the frame of each other command leaves the accumulator as it was. -/
theorem writerAndReaderAreSeparate : Obligations.WriterAndReaderAreSeparate := by
  intro i s t h hreset
  obtain ⟨ht, -⟩ := exec_changes h
  refine ⟨fun hbit hbits hflush hsym henc => ?_, fun hbit hbits halign hsym hdec => ?_⟩ <;> rw [ht]
  · cases i with
    | reset => exact absurd rfl hreset
    | putBit b => exact absurd rfl (hbit b)
    | putBits n => exact absurd rfl (hbits n)
    | flush => exact absurd rfl hflush
    | encSym x => exact absurd rfl (hsym x)
    | encode => exact absurd rfl henc
    | _ => exact ⟨rfl, rfl⟩
  · cases i with
    | reset => exact absurd rfl hreset
    | getBit => exact absurd rfl hbit
    | getBits n => exact absurd rfl (hbits n)
    | align => exact absurd rfl halign
    | decSym => exact absurd rfl hsym
    | decode => exact absurd rfl hdec
    | _ => exact ⟨rfl, rfl⟩

/-! ### PutBit and Flush, by the count of the accumulator (spec R200, R205) -/

theorem shift_or_eq_ofNat (w : Byte) (b : Bool) :
    (w <<< 1) ||| BitVec.ofNat 8 b.toNat = BitVec.ofNat 8 (2 * w.toNat + b.toNat) :=
  byte_ext (by rw [toNat_shift_or, BitVec.toNat_ofNat])

theorem putBit_of_lt {s : State} (b : Bool) (h : s.wcnt.val < 7) :
    putBit b s = .ok () { s with wbits := BitVec.ofNat 8 (2 * s.wbits.toNat + b.toNat), wcnt := s.wcnt + 1 } := by
  rw [putBit, if_neg (by omega), shift_or_eq_ofNat]

theorem putBit_of_full {s : State} (b : Bool) (h : s.wcnt.val = 7) :
    putBit b s = emit (BitVec.ofNat 8 (2 * s.wbits.toNat + b.toNat)) { s with wbits := 0, wcnt := 0 } := by
  rw [putBit, if_pos (by omega), shift_or_eq_ofNat]

theorem wcnt_add_one_val {s : State} (h : s.wcnt.val < 7) : (s.wcnt + 1).val = s.wcnt.val + 1 :=
  Fin.val_add_one_of_lt (Fin.lt_def.2 h)

theorem getLsbD_zero_toNat {b : Byte} (h : b.toNat ≤ 1) : (b.getLsbD 0).toNat = b.toNat := by
  rw [BitVec.getLsbD, Nat.testBit_zero]
  interval_cases b.toNat <;> rfl

theorem exec_putBit {s : State} {b : Byte} (h : b.toNat ≤ 1) :
    exec (.putBit b) s = finish .putBit s (putBit (b.getLsbD 0) s) := by
  rw [exec_eq, Instr.pseudo, if_pos ((argOk_iff_argFits .putBit b).2 (show b.toNat = 0 ∨ b.toNat = 1 by omega))]
  rfl

/-- Settles O27: below seven bits PutBit keeps the bit, at seven it emits the byte. -/
theorem putBitAppendsOneBit : Obligations.PutBitAppendsOneBit := by
  intro s b hb
  rw [exec_putBit hb]
  refine ⟨fun h => ?_, fun h ho => ?_, fun h ho => ?_⟩
  · rw [putBit_of_lt _ h, finish_ok, getLsbD_zero_toNat hb]
    rfl
  · rw [putBit_of_full _ h, emit_ok _ (by exact ho), finish_ok, getLsbD_zero_toNat hb]
    rfl
  · rw [putBit_of_full _ h, emit_fail _ (by exact ho), finish_raise, takeError_retire_of_not_fatal _ _ rfl]
    rfl

theorem shiftLeft_eq_ofNat (w : Byte) (k : Nat) : w <<< k = BitVec.ofNat 8 (w.toNat * 2 ^ k) :=
  byte_ext (by rw [BitVec.toNat_shiftLeft, BitVec.toNat_ofNat, Nat.shiftLeft_eq])

theorem flush_of_ne {s : State} (h : s.wcnt.val ≠ 0) :
    flush s = emit (BitVec.ofNat 8 (s.wbits.toNat * 2 ^ (8 - s.wcnt.val))) { s with wbits := 0, wcnt := 0 } := by
  rw [flush, if_neg h, shiftLeft_eq_ofNat]

/-- Settles O31: nothing to do at a byte boundary, else one emission. -/
theorem flushPadsTheLastByte : Obligations.FlushPadsTheLastByte := by
  intro s
  rw [exec_eq, Instr.pseudo]
  refine ⟨fun h => ?_, fun h ho => ?_, fun h ho => ?_⟩
  · rw [flush, if_pos h, finish_ok]
    rfl
  · rw [flush_of_ne h, emit_ok _ (by exact ho), finish_ok]
    rfl
  · rw [flush_of_ne h, emit_fail _ (by exact ho), finish_raise, takeError_retire_of_not_fatal _ _ rfl]
    rfl

/-! ### PutCode, PUT_BITS and ENC_SYM (spec R201, R211, R213) -/

/-- PutBit appends its bit, also where the sink fails, as long as the byte does not become full (spec R200). -/
theorem putBit_appends_of_lt {s : State} (b : Bool) (h : s.wcnt.val < 7) :
    ∃ t, putBit b s = .ok () t ∧ WritesOnly s t ∧ t.outBits = s.outBits ++ [b] ∧ t.wcnt.val = s.wcnt.val + 1 := by
  obtain ⟨t, ht, -, hbits⟩ := putBit_ok (s := { s with outFail := false }) b rfl
  rw [putBit_of_lt b (by exact h), Res.ok.injEq] at ht
  exact ⟨_, putBit_of_lt b h, ⟨rfl, [], by simp⟩, by rw [← ht.2] at hbits; exact hbits, wcnt_add_one_val h⟩

/-- PutCode appends its bits, also where the sink fails, as long as no byte becomes full (spec R201). -/
theorem putCode_appends {s : State} (v n : Nat) (h : s.outFail = false ∨ s.wcnt.val + n < 8) :
    ∃ t, putCode v n s = .ok () t ∧ WritesOnly s t ∧ t.outBits = s.outBits ++ natBits v n := by
  rcases h with ho | hlt
  · exact putCode_ok v n ho
  · induction n generalizing s with
    | zero => exact ⟨s, rfl, .refl s, by simp⟩
    | succ n ih =>
      obtain ⟨t, ht, hst, hbt, hcnt⟩ := putBit_appends_of_lt (s := s) (v.testBit n) (by omega)
      obtain ⟨u, hu, htu, hbu⟩ := ih (s := t) (by omega)
      refine ⟨u, by rw [putCode, ht, Res.bind_ok, hu], .trans s t u hst htu, ?_⟩
      rw [hbu, hbt, natBits_succ, List.append_assoc, List.singleton_append]

/-- Where the sink fails, a PutCode that fills a byte loses it and the bits after it (spec R200, R201, R386). -/
theorem putCode_fails {s : State} (v n : Nat) (ho : s.outFail = true) (h : 8 ≤ s.wcnt.val + n) :
    putCode v n s = .raise .ioWrite { s with wbits := 0, wcnt := 0 } := by
  have hcnt := s.wcnt.isLt
  induction n generalizing s with
  | zero => omega
  | succ n ih =>
    rw [putCode]
    rcases Nat.lt_or_ge s.wcnt.val 7 with hlt | hge
    · have hval := wcnt_add_one_val hlt
      rw [putBit_of_lt _ hlt, Res.bind_ok]
      exact ih ho (by show 8 ≤ (s.wcnt + 1).val + n; omega) (s.wcnt + 1).isLt
    · rw [putBit_of_full _ (by omega), emit_fail _ (by exact ho), Res.bind_raise]

theorem WritesOnly.retire {s t : State} (h : WritesOnly s t) : WritesOnly { s with pending := none } t.retire :=
  ⟨by rw [State.retire, h.1], h.2⟩

/-- A core step that is one PutCode (spec R201, R211, R213). -/
theorem finish_putCode {s : State} (op : Op) (v n : Nat) (h : s.outFail = false ∨ s.wcnt.val + n < 8) :
    ∃ t : State, finish op s (putCode v n s) = .next t ∧ WritesOnly { s with pending := none } t ∧
      t.outBits = s.outBits ++ natBits v n ∧
      (s.wbits.toNat < 2 ^ s.wcnt.val → t.wbits.toNat < 2 ^ t.wcnt.val) := by
  obtain ⟨t, ht, hst, hbits⟩ := putCode_appends v n h
  refine ⟨t.retire, by rw [ht, finish_ok], hst.retire, hbits, fun hacc => ?_⟩
  have hkeeps := putCode_keeps v n hacc
  rw [ht] at hkeeps
  exact hkeeps

theorem finish_putCode_fails {s : State} (op : Op) (v n : Nat) (ho : s.outFail = true) (h : 8 ≤ s.wcnt.val + n) :
    finish op s (putCode v n s) = .next { s with
      pending := none, wbits := 0, wcnt := 0, err := true, errcode := errWord op.code .ioWrite } := by
  rw [putCode_fails v n ho h, finish_raise, takeError_retire_of_not_fatal _ _ rfl]

theorem exec_putBits (s : State) {n : Byte} (h : n.toNat ≤ 64) :
    exec (.putBits n) s = finish .putBits s (putCode s.data.toNat n.toNat s) := by
  rw [exec_eq, Instr.pseudo, if_pos (show Op.argOk .putBits n = true from decide_eq_true h)]
  rfl

theorem exec_encSym (x : Byte) (s : State) : exec (.encSym x) s = finish .encSym s (encSym x s) := rfl

theorem encSym_of_code {s : State} {x : Byte} (hv : s.codesValid = true) (hx : s.lenAt x ≠ 0) :
    encSym x s = putCode (s.codeAt x) (s.lenAt x) s := by
  rw [encSym, if_neg (by simp [hv]), if_neg hx]

/-- Settles O28: PUT_BITS is PutCode of DATA. -/
theorem putBitsAppendsLowBits : Obligations.PutBitsAppendsLowBits := by
  intro s n hn h
  rw [exec_putBits s hn]
  exact finish_putCode .putBits _ _ h

/-- Settles O29: ENC_SYM is PutCode of the symbol's code. -/
theorem encSymAppendsCode : Obligations.EncSymAppendsCode := by
  intro s x hv hx h
  rw [exec_encSym, encSym_of_code hv hx]
  exact finish_putCode .encSym _ _ h

/-- Settles O32: both commands are a PutCode, and it meets the failing sink at the first byte it fills. -/
theorem failedEmissionLosesBits : Obligations.FailedEmissionLosesBits := by
  refine fun s ho => ⟨fun n hn h => ?_, fun x hv hx h => ?_⟩
  · rw [exec_putBits s hn, finish_putCode_fails _ _ _ ho h]
    rfl
  · rw [exec_encSym, encSym_of_code hv hx, finish_putCode_fails _ _ _ ho h]
    rfl

/-! ### GET_BIT, GET_BITS and ALIGN (spec R220 to R222) -/

/-- Reading and then writing DATA at the end of the core step (spec R220, R221, R223). -/
theorem ReadsOnly.retire_data {s t : State} (h : ReadsOnly s t) (d : Word) :
    ReadsOnly { s with pending := none, data := d } ({ t with data := d } : State).retire :=
  ⟨by rw [State.retire, h.1], h.2⟩

/-- Settles O33: the next unread bit. -/
theorem getBitReadsNextBit : Obligations.GetBitReadsNextBit := by
  intro s b rest h
  obtain ⟨t, ht, hst, hrest, hacc⟩ := getBit_ok .ioEnd h
  refine ⟨_, ?_, hst.retire_data _, hrest, hacc⟩
  rw [exec_eq, Instr.pseudo, ht, Res.bind_ok, finish_ok]

/-- Settles O34: the loop of GET_BITS reads the bits one after the other. -/
theorem getBitsReadsBits : Obligations.GetBitsReadsBits := by
  intro s n bits rest hn hlen h
  obtain ⟨t, ht, hst, hrest⟩ := getBits_ok .ioEnd bits rest 0 h
  refine ⟨_, ?_, hst.retire_data _, hrest, fun hacc => ?_⟩
  · rw [exec_eq, Instr.pseudo, if_pos (show Op.argOk .getBits n = true from decide_eq_true hn), ← hlen, ht, Res.bind_ok,
      finish_ok]
    rfl
  · have hkeeps := getBits_keeps .ioEnd bits.length 0 hacc
    rw [ht] at hkeeps
    exact hkeeps

/-- Settles O36: Align by its test of the unread bits. -/
theorem alignDropsZeroBits : Obligations.AlignDropsZeroBits := by
  intro s
  rw [exec_eq, Instr.pseudo, align_eq]
  refine ⟨fun h => ?_, fun h => ?_⟩
  · rw [if_neg (not_not.2 h), finish_ok]
    rfl
  · rw [if_pos h, finish_raise, takeError_retire_of_not_fatal _ _ rfl]
    rfl

/-! ### Symbol decoding (spec R203, R223) -/

theorem ReadsOnly.symBits {s t : State} (h : ReadsOnly s t) : t.symBits = s.symBits := by rw [h.1]; rfl

theorem ReadsOnly.lenAt {s t : State} (h : ReadsOnly s t) : t.lenAt = s.lenAt := by rw [h.1]; rfl

/-- DecodeSym's loop where the bits read so far and those to come begin with no code: it reads what there is of the `n`
bits it may still read, and raises BAD_CODE after all of them (spec R203). -/
theorem decodeFrom_noCode {s : State} (e : Err) (n l p : Nat)
    (h : ∀ x, s.lenAt x ≠ 0 → ¬ s.symBits x <+: natBits p l ++ s.inBits) :
    ∃ t, ReadsOnly s t ∧ t.inBits = s.inBits.drop n ∧
      decodeFrom e n (l + 1) p s = if n ≤ s.inBits.length then .raise .badCode t else outOfBits e t := by
  induction n generalizing s l p with
  | zero => exact ⟨s, .refl s, rfl, rfl⟩
  | succ n ih =>
    cases hin : s.inBits with
    | nil => exact ⟨s, .refl s, hin, by rw [decodeFrom, getBit_outOfBits e hin, outOfBits_bind]; rfl⟩
    | cons b rest =>
      obtain ⟨t, ht, hst, hrest, -⟩ := getBit_ok e hin
      have hbits : natBits (2 * p + b.toNat) (l + 1) ++ t.inBits = natBits p l ++ s.inBits := by
        rw [natBits_snoc, hrest, hin, List.append_assoc, List.singleton_append]
      rw [← hbits, ← hst.lenAt, ← hst.symBits] at h
      have hnone : t.matchCode (l + 1) (2 * p + b.toNat) = none := by
        refine Option.eq_none_iff_forall_ne_some.2 fun y hy => ?_
        obtain ⟨hlen, hcode⟩ := matchCode_some hy
        exact h y (by omega) (by rw [State.symBits, hlen, hcode]; exact List.prefix_append _ _)
      obtain ⟨u, htu, hbu, hu⟩ := ih (l + 1) (2 * p + b.toNat) h
      refine ⟨u, .trans s t u hst htu, by rw [hbu, hrest, List.drop_succ_cons], ?_⟩
      rw [decodeFrom, ht, Res.bind_ok, hnone, List.length_cons]
      simp only [hu, hrest, Nat.add_le_add_iff_right]

/-- DecodeSym where the unread bits begin with no code (spec R203). -/
theorem decodeSym_noCode {s : State} (e : Err) (hn : s.nsym ≠ 0)
    (h : ∀ x, s.lenAt x ≠ 0 → ¬ s.symBits x <+: s.inBits) :
    ∃ t, ReadsOnly s t ∧ t.inBits = s.inBits.drop s.maxlen.toNat ∧
      decodeSym e s = if s.maxlen.toNat ≤ s.inBits.length then .raise .badCode t else outOfBits e t := by
  rw [decodeSym, if_neg hn]
  exact decodeFrom_noCode e s.maxlen.toNat 0 0 h

theorem exec_decSym {s : State} (hv : s.codesValid = true) :
    exec .decSym s =
      finish .decSym s ((decodeSym .truncated s).bind fun x t => .ok () { t with data := x.setWidth 64 }) := by
  rw [exec_eq, Instr.pseudo, decSym, if_neg (by simp [hv])]
  rfl

/-- Settles O30: each command makes its checks before it writes or reads a bit. -/
theorem symbolCommandsNeedCodes : Obligations.SymbolCommandsNeedCodes := by
  refine fun s x => ⟨fun hv => ?_, fun hv hx => ?_, fun hv => ?_, fun hv hn => ?_⟩
  · rw [exec_encSym, encSym, if_pos hv, finish_raise, takeError_retire_of_not_fatal _ _ rfl]
    rfl
  · rw [exec_encSym, encSym, if_neg (by simp [hv]), if_pos hx, finish_raise,
      takeError_retire_of_fatal _ _ rfl]
    rfl
  · rw [exec_eq, Instr.pseudo, decSym, if_pos hv, finish_raise, takeError_retire_of_not_fatal _ _ rfl]
    rfl
  · rw [exec_decSym hv, decodeSym, if_pos hn, Res.bind_raise, finish_raise, takeError_retire_of_not_fatal _ _ rfl]
    rfl

/-- Settles O37: DecodeSym returns the one symbol whose code comes next. -/
theorem decSymReadsOneCode : Obligations.DecSymReadsOneCode := by
  intro s x rest hinv hv hx hin
  obtain ⟨t, ht, hst, hrest⟩ := decodeSym_ok (hinv.table hv) .truncated hx hin
  have hkeeps := decodeSym_keeps .truncated (show s.RaccOk from hinv.racc)
  rw [ht] at hkeeps
  refine ⟨_, ?_, hst.retire_data _, hrest, hkeeps⟩
  rw [exec_decSym hv, ht, Res.bind_ok, finish_ok, BitVec.ofNat_toNat]

/-- Settles O38: DecodeSym reads up to MAXLEN bits and finds no code in them. -/
theorem decSymFindsNoCode : Obligations.DecSymFindsNoCode := by
  intro s hinv hv hn hno
  obtain ⟨t, hst, hrest, ht⟩ := decodeSym_noCode .truncated hn hno
  rw [exec_decSym hv, ht]
  refine ⟨fun hle => ?_, fun hlt => ?_⟩
  · rw [if_pos hle, Res.bind_raise, finish_raise]
    exact ⟨_, rfl, hrest, hst.takeError _ rfl⟩
  · rw [if_neg (by omega), outOfBits_bind]
    exact finish_outOfBits .decSym hst (hrest.trans (List.drop_eq_nil_of_le hlt.le)) rfl

/-! ### DECODE past the header and the bytes it emits (spec R282) -/

theorem exec_decode (s : State) : exec .decode s = finish .decode s (decodeAll s) := rfl

theorem Res.bind_assoc (r : Res α) (f : α → State → Res β) (g : β → State → Res γ) :
    (r.bind f).bind g = r.bind fun a s => (f a s).bind g := by
  cases r <;> rfl

theorem decodeLoop_add (m n : Nat) (s : State) :
    decodeLoop (m + n) s = (decodeLoop m s).bind fun _ t => decodeLoop n t := by
  induction m generalizing s with
  | zero => rw [Nat.zero_add]; rfl
  | succ m ih => simp only [Nat.succ_add, decodeLoop, Res.bind_assoc, ih]

/-- DECODE's loop emits the bytes whose codes come next and goes on from there (spec R282). -/
theorem decodeLoop_append {s : State} (hT : s.TableOk) (good : List Byte) (n : Nat) {rest : List Bool}
    (ho : s.outFail = false ∨ good = []) (hgood : ∀ x ∈ good, s.lenAt x ≠ 0) (hacc : s.RaccOk)
    (hin : s.inBits = good.flatMap s.symBits ++ rest) :
    ∃ t, decodeLoop (good.length + n) s = decodeLoop n t ∧ PayloadOnly s t ∧ t.outq = s.outq ++ good ∧
      t.inBits = rest ∧ t.remain = s.remain - BitVec.ofNat 64 good.length ∧ t.RaccOk := by
  rcases ho with ho | rfl
  · obtain ⟨t, ht, hframe, hout, hbits, hremain⟩ := decodeLoop_ok good rest rfl rfl hT ho hgood hin
    have hkeeps := decodeLoop_keeps good.length hacc
    rw [ht] at hkeeps
    exact ⟨t, by rw [decodeLoop_add, ht, Res.bind_ok], hframe, hout, hbits, hremain, hkeeps⟩
  · exact ⟨s, by rw [List.length_nil, Nat.zero_add], .refl s, by simp, hin, by simp, hacc⟩

/-- In `s` the reader is aligned and the input begins with the header of a nonempty container of `total` bytes, which
`body` follows; with FMT = 0, TOTAL holds the count (spec R130, R252). -/
structure AtHeader (s : State) (es : List Entry) (code : Table CodeWord) (total : Nat) (body : List Byte) : Prop where
  aligned : s.rcnt.val = 0
  empty : s.rbits = 0
  entries : EntriesOk es
  codes : codesOf es = .ok code
  bound : total < 2 ^ 64
  field : s.fmt = true → 0 < total
  register : s.fmt = false → s.total = BitVec.ofNat 64 total
  input : s.inq = headerOf s.fmt es total ++ body

/-- DECODE from `s` has read a header and emitted `good`, of `total` bytes, and is in `t` (spec R282). -/
structure DecodedSoFar (es : List Entry) (good : List Byte) (total : Nat) (s t : State) : Prop where
  frame : DecodesOnly s t
  output : t.outq = s.outq ++ good
  count : t.total = BitVec.ofNat 64 total
  remain : t.remain = BitVec.ofNat 64 (total - good.length)
  valid : t.codesValid = true
  table : t.TableOk
  entry : t.entry = es

theorem DecodedSoFar.code_eq {es : List Entry} {code : Table CodeWord} {good : List Byte} {total : Nat} {s t : State}
    (h : DecodedSoFar es good total s t) (hc : codesOf es = .ok code) : t.code = code := by
  have hcodes := h.table.codes
  rw [h.entry, hc] at hcodes
  exact (Except.ok.inj hcodes).symm

theorem DecodedSoFar.codeBits_eq {es : List Entry} {code : Table CodeWord} {good : List Byte} {total : Nat}
    {s t : State} (h : DecodedSoFar es good total s t) (hc : codesOf es = .ok code) (data : List Byte) :
    codeBits code (lengthsOf es) data = data.flatMap t.symBits := by
  rw [← h.code_eq hc, ← h.entry, h.table.lengthsOf_entry]
  rfl

theorem AtHeader.hdrRead_ok {s : State} {es : List Entry} {code : Table CodeWord} {total : Nat} {body : List Byte}
    (h : AtHeader s es code total body) :
    ∃ t, hdrRead s = .ok () t ∧ HeaderOk s t ∧ t.inq = body ∧ t.total = BitVec.ofNat 64 total ∧ t.entry = es ∧
      t.code = code := by
  have hread := Machine.hdrRead_ok (Fin.ext h.aligned) h.entries (fun hf => ⟨h.field hf, h.bound⟩) h.codes h.input
  have hspec := hdrRead_spec s
  rw [hread] at hspec
  refine ⟨_, hread, hspec, rfl, ?_, rfl, rfl⟩
  cases hf : s.fmt with
  | true => rfl
  | false => exact h.register hf

/-- DECODE reads the header, emits the bytes whose codes come first and goes on from there (spec R282). -/
theorem AtHeader.decodeAll_append {s : State} {es : List Entry} {code : Table CodeWord} {total : Nat}
    {body good : List Byte} {tail : List Bool} (h : AtHeader s es code total body) (ho : s.outFail = false ∨ good = [])
    (hgood : ∀ x ∈ good, tget (lengthsOf es) x ≠ 0) (hle : good.length ≤ total)
    (hbits : bytesBits body = codeBits code (lengthsOf es) good ++ tail) :
    ∃ t, decodeAll s = (decodeLoop (total - good.length) t).bind (fun _ u => align u) ∧
      DecodedSoFar es good total s t ∧ t.inBits = tail ∧ t.RaccOk := by
  obtain ⟨t, ht, ⟨hframe, hvalid, htable⟩, hinq, htotal, rfl, rfl⟩ := h.hdrRead_ok
  have hrcnt : t.rcnt = s.rcnt := by rw [hframe.1]
  have hrbits : t.rbits = s.rbits := by rw [hframe.1]
  have hin : t.inBits = good.flatMap t.symBits ++ tail := by
    rw [State.inBits, hrcnt, h.aligned, natBits_zero, List.nil_append, hinq, hbits, htable.lengthsOf_entry]
    rfl
  rw [htable.lengthsOf_entry] at hgood
  obtain ⟨u, hu, htu, hout, hrest, hremain, hacc⟩ :=
    decodeLoop_append (s := { t with remain := t.total }) (htable.congr rfl) good (total - good.length)
      (by rw [hframe.1]; exact ho) (fun x hx => (lenAt_ne_zero_iff t x).2 (hgood x hx))
      (by rw [State.RaccOk, hrbits, h.empty]; exact Nat.two_pow_pos _) hin
  refine ⟨u, ?_, ⟨?_, ?_, ?_, ?_, ?_, htable.congr ?_, ?_⟩, hrest, hacc⟩
  · rw [decodeAll, ht, Res.bind_ok, decodeData, htotal, BitVec.toNat_ofNat, Nat.mod_eq_of_lt h.bound, ← htotal, ← hu,
      Nat.add_sub_cancel' hle]
  · exact .trans s t u hframe.decodes (.trans t _ u ⟨rfl, .refl t⟩ htu.decodes)
  · rw [hout, hframe.1]
  · rw [htu.1]; exact htotal
  · rw [hremain, htotal, BitVec.ofNat_sub_ofNat_of_le _ _ (hle.trans_lt h.bound) hle]
  · rw [htu.1]; exact hvalid
  · rw [htu.1]
  · rw [htu.1]

/-! ### DECODE of a whole container (spec R282, R283) -/

theorem natBits_zero_left (n : Nat) : natBits 0 n = List.replicate n false := by
  induction n with
  | zero => rfl
  | succ n ih => rw [natBits_succ, ih, Nat.zero_testBit, List.replicate_succ]

/-- Where fewer than eight bits and then whole bytes are to be read, these bits are the reader's (spec R84, R202). -/
theorem unread_of_inBits {s : State} {tail : List Bool} {rest : List Byte} (h : s.inBits = tail ++ bytesBits rest)
    (hlt : tail.length < 8) : natBits s.rbits.toNat s.rcnt.val = tail ∧ s.inq = rest := by
  have hlen := congrArg List.length h
  simp only [State.inBits, List.length_append, length_natBits, length_bytesBits] at hlen
  have hcnt := s.rcnt.isLt
  obtain ⟨hacc, hq⟩ := List.append_inj h (by rw [length_natBits]; omega)
  exact ⟨hacc, bytesBits_injective hq⟩

/-- Settles O57: after the header and the codes of all the bytes only the pad bits are left, and Align drops them. -/
theorem decodeEmitsTheData : Obligations.DecodeEmitsTheData := by
  intro s es code data payload rest hcnt hbits ho hes hc hdata hlt hfield hreg ⟨n, hn, hpacked⟩ hq
  have hat : AtHeader s es code data.length (payload ++ rest) :=
    ⟨hcnt, hbits, hes, hc, hlt, fun hf => List.length_pos_iff.2 (hfield hf), hreg, by rw [hq, List.append_assoc]⟩
  obtain ⟨t, ht, hsofar, hin, hacc⟩ := hat.decodeAll_append (tail := List.replicate n false ++ bytesBits rest) ho hdata
    (Nat.le_refl _) (by rw [bytesBits_append, hpacked, List.append_assoc])
  obtain ⟨hunread, hinq⟩ := unread_of_inBits hin (by simpa using hn)
  have hpad : t.rbits = 0 := by
    have hcount : t.rcnt.val = n := by simpa using congrArg List.length hunread
    exact byte_ext (natBits_inj hacc (Nat.two_pow_pos _) (by rw [hunread, hcount]; exact (natBits_zero_left n).symm))
  have hframe : DecodesOnly s { t with rbits := 0, rcnt := 0 } := .trans s t _ hsofar.frame ⟨rfl, .refl t⟩
  refine ⟨({ t with rbits := 0, rcnt := 0 } : State).retire, ?_, ⟨?_, hframe.2⟩, hsofar.output, hinq, hsofar.count, ?_,
    rfl, rfl, hsofar.valid, hsofar.entry, hsofar.code_eq hc⟩
  · rw [exec_decode, ht, Nat.sub_self, decodeLoop, Res.bind_ok, align_eq, if_neg (not_not.2 hpad), finish_ok]
  · rw [State.retire, hframe.1]
  · exact hsofar.remain.trans (congrArg (BitVec.ofNat 64) (Nat.sub_self _))

/-! ### The refusals of DECODE (spec R282, R335) -/

/-- What HDR_READ refuses, DECODE refuses with its own OP (spec R253, R282, R333). -/
theorem exec_decode_of_hdrRead (s : State) :
    ∃ t : State, exec .hdrRead s = .next t ∧
      (s.err = false → t.err = true →
        exec .decode s = .next { t with errcode := BitVec.ofNat 64 (0x410000 + t.errcode.toNat % 65536) }) ∧
      (s.pending ≠ none → t.pending ≠ none → exec .decode s = .next s) := by
  have hspec := hdrRead_spec s
  rw [exec_eq, Instr.pseudo, exec_decode, decodeAll]
  cases hr : hdrRead s with
  | ok a t =>
    rw [hr] at hspec
    have herr : t.err = s.err := by rw [hspec.1.1]
    refine ⟨t.retire, finish_ok .., fun hs ht => ?_, fun _ ht => absurd rfl ht⟩
    rw [State.retire_err, herr, hs] at ht
    cases ht
  | raise e t =>
    refine ⟨(t.takeError _ e).retire, finish_raise .., fun _ _ => ?_, fun _ ht => absurd rfl ht⟩
    have hcode : errWord Op.decode.code e =
        BitVec.ofNat 64 (0x410000 + (errWord Op.hdrRead.code e).toNat % 65536) := by
      cases e <;> rfl
    rw [Res.bind_raise, finish_raise, State.takeError, State.takeError, hcode]
    rfl
  | hold => exact ⟨s, finish_hold .., fun hs ht => absurd (hs.symm.trans ht) (by simp), fun _ _ => finish_hold ..⟩

theorem exec_decode_unaligned {s : State} (h : s.rcnt.val ≠ 0) :
    exec .decode s = .next (s.dropTable.takeError Op.decode.code .unaligned).retire := by
  rw [exec_decode, decodeAll, hdrRead, hdrReadBody, if_pos h, Res.onRaise_raise, Res.bind_raise, finish_raise]

/-- Reading on without emitting a byte (spec R202). -/
theorem DecodedSoFar.reads {es : List Entry} {good : List Byte} {total : Nat} {s t u : State}
    (h : DecodedSoFar es good total s t) (hr : ReadsOnly t u) : DecodedSoFar es good total s u := by
  refine ⟨.trans s t u h.frame hr.decodes, ?_, ?_, ?_, ?_, h.table.congr ?_, ?_⟩ <;> rw [hr.1]
  · exact h.output
  · exact h.count
  · exact h.remain
  · exact h.valid
  · exact h.entry

/-- Recording an error that is not fatal ends DECODE as a failure after the bytes it emitted (spec R333, R335). -/
theorem DecodedSoFar.failed {es : List Entry} {good : List Byte} {total : Nat} {s t : State}
    (h : DecodedSoFar es good total s t) {e : Err} (he : e.isFatal = false) :
    DecodeFailedAfter es good total (errWord Op.decode.code e) s (t.takeError Op.decode.code e).retire := by
  rw [takeError_retire_of_not_fatal t _ he]
  exact ⟨⟨by rw [h.frame.1], h.frame.2⟩, h.output, h.count, h.remain, h.valid, h.table.congr rfl, h.entry⟩

/-- The longest code of a table bounds the lengths of its entries, and one entry attains it (spec R40, R53). -/
theorem State.TableOk.maxlen_le_iff {s : State} (h : s.TableOk) (n : Nat) :
    s.maxlen.toNat ≤ n ↔ ∀ e ∈ s.entry, e.len.toNat ≤ n := by
  constructor
  · intro hle e he
    rw [← ((h.listed e).1 he).2]
    exact (h.bound e.sym).trans hle
  · intro hall
    obtain ⟨x, hx⟩ := h.attained
    rw [← hx]
    by_cases h0 : s.lenAt x = 0
    · omega
    · exact hall _ (h.mem h0)

/-- DECODE where, after the codes of `good`, no code begins: DecodeSym reads up to MAXLEN of the bits there (spec R203,
R282). -/
theorem AtHeader.decodeAll_noCode {s : State} {es : List Entry} {code : Table CodeWord} {total : Nat}
    {body good : List Byte} {tail : List Bool} (h : AtHeader s es code total body) (ho : s.outFail = false ∨ good = [])
    (hgood : ∀ x ∈ good, tget (lengthsOf es) x ≠ 0) (hlt : good.length < total)
    (hbits : bytesBits body = codeBits code (lengthsOf es) good ++ tail)
    (hno : ∀ e ∈ es, ¬ natBits (tget code e.sym).toNat e.len.toNat <+: tail) :
    ∃ t, DecodedSoFar es good total s t ∧ t.inBits = tail.drop t.maxlen.toNat ∧
      decodeAll s = if ∀ e ∈ es, e.len.toNat ≤ tail.length then .raise .badCode t else outOfBits .truncated t := by
  obtain ⟨t, ht, hsofar, hin, -⟩ := h.decodeAll_append ho hgood hlt.le hbits
  have htable := hsofar.table
  have hnsym : t.nsym ≠ 0 := by
    intro h0
    have hcount := htable.count
    rw [h0, hsofar.entry] at hcount
    exact h.entries.nonempty (List.eq_nil_of_length_eq_zero hcount.symm)
  obtain ⟨u, htu, hrest, hu⟩ := decodeSym_noCode .truncated hnsym fun x hx hp => by
    rw [hin, State.symBits, State.codeAt, hsofar.code_eq h.codes] at hp
    exact hno _ (hsofar.entry ▸ htable.mem hx) hp
  have hmax : u.maxlen = t.maxlen := by rw [htu.1]
  obtain ⟨n, hn⟩ : ∃ n, total - good.length = n + 1 := ⟨total - good.length - 1, by omega⟩
  refine ⟨u, hsofar.reads htu, by rw [hrest, hin, hmax], ?_⟩
  rw [ht, hn, decodeLoop, hu, hin, ← hsofar.entry]
  simp only [htable.maxlen_le_iff]
  split
  · rfl
  · simp only [outOfBits_bind]

/-- DECODE whose first byte the sink fails to take (spec R95, R282). -/
theorem AtHeader.exec_decode_sinkFails {s : State} {es : List Entry} {code : Table CodeWord} {total : Nat}
    {body : List Byte} {x : Byte} {tail : List Bool} (h : AtHeader s es code total body) (ho : s.outFail = true)
    (hx : tget (lengthsOf es) x ≠ 0) (hpos : 0 < total)
    (hbits : bytesBits body = codeBits code (lengthsOf es) [x] ++ tail) :
    ∃ t : State, exec .decode s = .next t ∧ DecodeFailedAfter es [] total 0x410102 s t ∧ t.inBits = tail := by
  obtain ⟨t, ht, hsofar, hin, -⟩ := h.decodeAll_append (good := []) (.inr rfl) (by simp) (Nat.zero_le _) hbits
  have hlen : t.lenAt x ≠ 0 := by
    rw [lenAt_ne_zero_iff, ← hsofar.table.lengthsOf_entry, hsofar.entry]
    exact hx
  rw [hsofar.codeBits_eq h.codes, List.flatMap_singleton] at hin
  obtain ⟨u, hu, htu, hrest⟩ := decodeSym_ok hsofar.table .truncated hlen hin
  obtain ⟨n, rfl⟩ : ∃ n, total = n + 1 := ⟨total - 1, by omega⟩
  have hsu := hsofar.reads htu
  have hfail : u.outFail = true := by rw [hsu.frame.1]; exact ho
  refine ⟨_, ?_, hsu.failed (e := .ioWrite) rfl, hrest⟩
  rw [exec_decode, ht, List.length_nil, Nat.sub_zero, decodeLoop, hu, Res.bind_ok, emit_fail _ hfail, Res.bind_raise,
    Res.bind_raise, finish_raise]

/-- DECODE of a payload with a pad bit 1 (spec R204, R282). -/
theorem AtHeader.exec_decode_badPad {s : State} {es : List Entry} {code : Table CodeWord} {body good rest : List Byte}
    {tail : List Bool} (h : AtHeader s es code good.length body) (ho : s.outFail = false)
    (hgood : ∀ x ∈ good, tget (lengthsOf es) x ≠ 0) (hlt : tail.length < 8) (hone : true ∈ tail)
    (hbits : bytesBits body = codeBits code (lengthsOf es) good ++ (tail ++ bytesBits rest)) :
    ∃ t : State, exec .decode s = .next t ∧ DecodeFailedAfter es good good.length 0x410309 s t ∧
      t.inBits = tail ++ bytesBits rest ∧ t.inq = rest := by
  obtain ⟨t, ht, hsofar, hin, -⟩ := h.decodeAll_append (.inl ho) hgood (Nat.le_refl _) hbits
  obtain ⟨hunread, hinq⟩ := unread_of_inBits hin hlt
  have hpad : t.rbits ≠ 0 := by
    intro h0
    rw [← hunread, h0, show (0 : Byte).toNat = 0 from rfl, natBits_zero_left] at hone
    exact Bool.noConfusion (List.eq_of_mem_replicate hone)
  refine ⟨_, ?_, hsofar.failed (e := .badPad) rfl, hin, hinq⟩
  rw [exec_decode, ht, Nat.sub_self, decodeLoop, Res.bind_ok, align_eq, if_pos hpad, finish_raise]

/-- A code that is no longer than the bits before the last bytes does not begin them if it does not begin those bits. -/
theorem not_prefix_append {code tail more : List Bool} (hle : code.length ≤ tail.length) (h : ¬ code <+: tail) :
    ¬ code <+: tail ++ more := fun hp =>
  h (List.prefix_of_prefix_length_le hp (List.prefix_append tail more) hle)

/-- Settles O58: DECODE ends where HdrRead fails, where Emit fails, where Align finds a 1, or where DecodeSym finds no
code. -/
theorem decodeRefusesBadPayload : Obligations.DecodeRefusesBadPayload := by
  refine fun s es code total good payload rest tail => ⟨exec_decode_of_hdrRead s, fun hcnt => ?_,
    fun hcnt hrbits hes hc hgood hlt hfield hreg hbits => ?_⟩
  · exact ⟨_, exec_decode_unaligned hcnt, rfl, rfl, rfl, rfl, rfl⟩
  have hat {body : List Byte} (hq : s.inq = headerOf s.fmt es total ++ body) : AtHeader s es code total body :=
    ⟨hcnt, hrbits, hes, hc, hlt, hfield, hreg, hq⟩
  have hbits' : bytesBits (payload ++ rest) = codeBits code (lengthsOf es) good ++ (tail ++ bytesBits rest) := by
    rw [bytesBits_append, hbits, List.append_assoc]
  refine ⟨fun ho hone hpos hq => ?_, fun ho hlen hshort hone hq => ?_, fun ho hmore hno => ⟨fun hlong hq => ?_,
    fun ⟨e, he, hshort⟩ hq => ?_⟩⟩
  · obtain ⟨x, rfl⟩ := List.length_eq_one_iff.1 hone
    exact (hat (by rw [hq, List.append_assoc])).exec_decode_sinkFails ho (hgood x (by simp)) hpos hbits'
  · subst hlen
    exact (hat (by rw [hq, List.append_assoc])).exec_decode_badPad ho hgood hshort hone hbits'
  · have hall : ∀ e ∈ es, e.len.toNat ≤ (tail ++ bytesBits rest).length := fun e he =>
      (hlong e he).trans (by simp)
    obtain ⟨t, hsofar, hin, ht⟩ := (hat (by rw [hq, List.append_assoc])).decodeAll_noCode ho hgood hmore hbits'
      fun e he => not_prefix_append ((length_natBits _ _).trans_le (hlong e he)) (hno e he)
    have hmax : t.maxlen.toNat ≤ tail.length := (hsofar.table.maxlen_le_iff _).2 (by rw [hsofar.entry]; exact hlong)
    refine ⟨_, ?_, hsofar.failed (e := .badCode) rfl, hin.trans (List.drop_append_of_le_length hmax)⟩
    rw [exec_decode, ht, if_pos hall, finish_raise]
  · obtain ⟨t, hsofar, hin, ht⟩ := (hat hq).decodeAll_noCode ho hgood hmore hbits hno
    have hend : t.inEnd = s.inEnd := by rw [hsofar.frame.1]
    have hlong : ¬ ∀ e ∈ es, e.len.toNat ≤ tail.length := fun hall => (hall e he).not_gt hshort
    have hmax : ¬ t.maxlen.toNat ≤ tail.length := by rwa [hsofar.table.maxlen_le_iff, hsofar.entry]
    have hnil : t.inBits = [] := by rw [hin, List.drop_eq_nil_of_le (Nat.le_of_not_le hmax)]
    rw [exec_decode, ht, if_neg hlong]
    refine ⟨fun hi => ?_, fun hi => ?_, fun hi => ?_⟩
    · rw [outOfBits_opened _ (hend.trans hi), finish_hold]
    · rw [outOfBits_eos _ (hend.trans hi), finish_raise]
      exact ⟨_, rfl, hsofar.failed rfl, hnil⟩
    · rw [outOfBits_fail _ (hend.trans hi), finish_raise]
      exact ⟨_, rfl, hsofar.failed rfl, hnil⟩

end Sys2Proof.Machine
end

section
/-! PROOFS of the family 42_container.md. HDR_WRITE, with a working and with a failing sink; the ways HDR_READ fails: an
input that breaks off, a bad count, the first bad entry after good ones, and the checks on the whole header; HDR_READ of
what HDR_WRITE emitted. -/

namespace Sys2Proof.Machine

variable {α β : Type}

/-! ### The header framer (spec R250) -/

theorem hdrWrite_eq_emitAll {s : State} (hv : s.codesValid = true) (hw : s.wcnt.val = 0) :
    hdrWrite s = emitAll s.headerBytes s := by
  rw [hdrWrite, if_neg (by simp [hv]), if_neg (not_not.2 hw)]

theorem emitAll_fail {s : State} {bs : List Byte} (ho : s.outFail = true) (h : bs ≠ []) :
    emitAll bs s = .raise .ioWrite s := by
  obtain ⟨b, bs, rfl⟩ := List.exists_cons_of_ne_nil h
  rw [emitAll, emit_fail b ho, Res.bind_raise]

theorem entry_ne_nil {s : State} (hcount : s.nsym.toNat = s.entry.length) (hn : s.nsym ≠ 0) : s.entry ≠ [] := by
  intro h0
  rw [h0] at hcount
  exact hn (BitVec.eq_of_toNat_eq hcount)

theorem headerOf_ne_nil (fmt : Bool) (es : List Entry) (total : Nat) : headerOf fmt es total ≠ [] := by
  refine List.ne_nil_of_length_pos ?_
  rw [length_headerOf]
  omega

/-- Settles O44: past the two checks HDR_WRITE emits the bytes of the header, and a failing sink takes none of them. -/
theorem hdrWriteEmitsHeader : Obligations.HdrWriteEmitsHeader := by
  intro s
  rw [exec_eq, Instr.pseudo]
  refine ⟨fun hv => ?_, fun hv hw => ?_, fun hv hw hn => ?_, fun hv hw hn hcount => ?_⟩
  · rw [hdrWrite, if_pos hv, finish_raise, takeError_retire_of_not_fatal _ _ rfl]
    rfl
  · rw [hdrWrite, if_neg (by simp [hv]), if_pos hw, finish_raise, takeError_retire_of_not_fatal _ _ rfl]
    rfl
  · rw [hdrWrite_eq_emitAll hv hw, State.headerBytes, if_pos (by rw [hn]; rfl), emitAll, finish_ok]
    rfl
  · have hbytes := headerBytes_eq hcount (entry_ne_nil hcount hn)
    refine ⟨fun ho => ?_, fun ho => ?_⟩
    · rw [hdrWrite_ok hv (Fin.ext hw) ho, hbytes, length_headerOf, ← hcount, finish_ok]
      rfl
    · rw [hdrWrite_eq_emitAll hv hw, hbytes, emitAll_fail ho (headerOf_ne_nil _ _ _), finish_raise,
        takeError_retire_of_not_fatal _ _ rfl]
      rfl

/-! ### A failed HDR_READ (spec R252) -/

theorem headerErrs_not_fatal : ∀ e ∈ headerErrs, e.isFatal = false := by decide

/-- Settles O47: the cleanup drops the table, and everything before it only fetched bytes. -/
theorem failedHdrReadLeavesNoTable : Obligations.FailedHdrReadLeavesNoTable := by
  intro s t herr h ht
  have hspec := hdrRead_spec s
  rw [exec_eq, Instr.pseudo] at h
  rcases finish_cases h with ⟨u, hu, rfl⟩ | ⟨e, u, hu, rfl⟩ | ⟨-, rfl⟩
  · rw [hu] at hspec
    have hsame : u.err = s.err := by rw [hspec.1.1]
    rw [State.retire_err, hsame, herr] at ht
    cases ht
  · rw [hu] at hspec
    obtain ⟨⟨he, ⟨hframe, hmove⟩, htotal⟩, hdrop⟩ := hspec
    have hfatal := headerErrs_not_fatal e he
    refine ⟨?_, hmove⟩
    calc (u.takeError _ e).retire = (u.dropTable.takeError _ e).retire := by rw [← hdrop]
      _ = _ := by
        rw [takeError_retire_of_not_fatal _ _ hfatal, takeError_retire_of_not_fatal _ _ hfatal, hframe, htotal]
        rfl
  · rw [herr] at ht
    cases ht

/-- HDR_READ from `s` ends with the error `e` recorded and the bytes `rest` not fetched. -/
def HdrReadFails (s : State) (e : Err) (rest : List Byte) : Prop :=
  ∃ t : State, exec .hdrRead s = .next t ∧ t.err = true ∧ t.errcode = errWord 0x31 e ∧ t.inq = rest

/-- An error that the body of HdrRead raises is what HDR_READ records (spec R252, R333). -/
theorem hdrReadFails_of_raise {s t : State} {e : Err} (h : hdrReadBody s = .raise e t) : HdrReadFails s e t.inq := by
  refine ⟨(t.dropTable.takeError Op.hdrRead.code e).retire, ?_, rfl, rfl, rfl⟩
  rw [exec_eq, Instr.pseudo, hdrRead, h, Res.onRaise_raise]
  rfl

theorem Res.onRaise_eq_ok {r : Res α} {f : State → State} {a : α} {t : State} :
    r.onRaise f = .ok a t ↔ r = .ok a t := by
  cases r <;> simp

/-! ### Readers on an input that breaks off (spec R93, R254 checks 2 and 3) -/

/-- The state with more bytes delivered. -/
def State.pushAll (s : State) (more : List Byte) : State := { s with inq := s.inq ++ more }

/-- A piece of pseudocode run from `s` fetched all the bytes there are and then needed one more. -/
def RunsShort (s : State) (r : Res α) : Prop :=
  ∃ t : State, t.inq = [] ∧ t.inEnd = s.inEnd ∧ r = outOfBits .truncated t

/-- A reader that succeeds once more bytes are delivered either needs some of them, and then runs short without them, or
does the same without them. -/
def NeedsItsBytes (f : State → Res α) : Prop :=
  ∀ (s : State) (more : List Byte) (a : α) (t : State), f (s.pushAll more) = .ok a t →
    RunsShort s (f s) ∨ ∃ u : State, f s = .ok a u ∧ u.inEnd = s.inEnd ∧ t = u.pushAll more

theorem RunsShort.bind {s u : State} {r : Res α} (h : RunsShort s r) (hu : s.inEnd = u.inEnd) (f : α → State → Res β) :
    RunsShort u (r.bind f) := by
  obtain ⟨t, hq, he, rfl⟩ := h
  exact ⟨t, hq, he.trans hu, outOfBits_bind ..⟩

/-- Of two readers in sequence the first runs short, or else it did the same and the second decides. -/
theorem NeedsItsBytes.bind {f : State → Res α} {g : α → State → Res β} (hf : NeedsItsBytes f)
    (hg : ∀ a, NeedsItsBytes (g a)) : NeedsItsBytes fun s => (f s).bind g := by
  intro s more b t h
  obtain ⟨a, u', hu', ht⟩ := Res.bind_eq_ok.1 h
  rcases hf s more a u' hu' with hshort | ⟨u, hu, hend, rfl⟩
  · exact .inl (hshort.bind rfl g)
  · simp only [hu, Res.bind_ok]
    rcases hg a u more b t ht with ⟨v, hq, he, hv⟩ | ⟨v, hv, he, rfl⟩
    · exact .inl ⟨v, hq, he.trans hend, hv⟩
    · exact .inr ⟨v, hv, he.trans hend, rfl⟩

theorem NeedsItsBytes.ok (a : α) : NeedsItsBytes fun s => .ok a s := by
  intro s more b t h
  cases h
  exact .inr ⟨s, rfl, rfl, rfl⟩

theorem NeedsItsBytes.raise (e : Err) : NeedsItsBytes fun s => (.raise e s : Res α) := by
  intro s more b t h
  cases h

theorem fetchByte_runsShort {s : State} (h : s.inq = []) : RunsShort s (fetchByte .truncated s) :=
  ⟨s, h, rfl, by rw [fetchByte_nil _ h]; rfl⟩

theorem fetchByte_needs : NeedsItsBytes (fetchByte .truncated) := by
  intro s more b t h
  cases hq : s.inq with
  | nil => exact .inl (fetchByte_runsShort hq)
  | cons a q =>
    rw [fetchByte_cons .truncated (show (s.pushAll more).inq = a :: (q ++ more) by rw [State.pushAll, hq]; rfl)] at h
    cases h
    exact .inr ⟨_, fetchByte_cons _ hq, rfl, rfl⟩

theorem readBigEndian_needs (n t : Nat) : NeedsItsBytes (readBigEndian n t) := by
  induction n generalizing t with
  | zero => exact .ok t
  | succ n ih => exact fetchByte_needs.bind fun b => ih _

theorem readEntries_needs (n : Nat) (prev : Option Entry) (staged : Table Byte) :
    NeedsItsBytes (readEntries n prev staged) := by
  induction n generalizing prev staged with
  | zero => exact .ok staged
  | succ n ih =>
    refine fetchByte_needs.bind fun x => fetchByte_needs.bind fun l => ?_
    cases entryError prev staged ⟨x, l⟩ with
    | some e => exact .raise e
    | none => exact ih _ _

theorem readTotal_needs : NeedsItsBytes readTotal := by
  have hfield : NeedsItsBytes fun s =>
      (readBigEndian 8 0 s).bind fun t s => if t = 0 then .raise .badTotal s else .ok (some t) s := by
    refine (readBigEndian_needs 8 0).bind fun t => ?_
    split
    · exact .raise .badTotal
    · exact .ok (some t)
  intro s more a t h
  have hfmt : (s.pushAll more).fmt = s.fmt := rfl
  rw [readTotal, hfmt] at h
  rw [readTotal]
  cases hf : s.fmt with
  | true => rw [hf] at h; exact hfield s more a t h
  | false => rw [hf] at h; exact NeedsItsBytes.ok none s more a t h

theorem installHeader_needs (staged : Table Byte) (total : Option Nat) :
    NeedsItsBytes (installHeader staged total) := by
  intro s more a t h
  rw [installHeader, buildCodes_eq] at h ⊢
  cases hc : codesOf (sortedEntries staged) with
  | error e => simp [hc] at h
  | ok c =>
    simp only [hc, Res.bind_ok] at h ⊢
    cases total with
    | none => cases h; exact .inr ⟨_, rfl, rfl, rfl⟩
    | some n => cases h; exact .inr ⟨_, rfl, rfl, rfl⟩

theorem hdrReadTable_needs (n : Nat) : NeedsItsBytes (hdrReadTable n) := by
  unfold hdrReadTable
  split
  · intro s more a t h
    cases h
    exact .inr ⟨_, rfl, rfl, rfl⟩
  split
  · exact .raise .badCount
  · exact (readEntries_needs n none (tfill 0)).bind fun staged => readTotal_needs.bind fun total =>
      installHeader_needs staged total

/-- HdrRead of a nonempty input that it accepts once more bytes are delivered, and all of them fetched (spec R252). -/
theorem hdrReadBody_runsShort {s t : State} {more : List Byte} (hr : s.rcnt.val = 0) (hq : s.inq ≠ [])
    (hmore : more ≠ []) (h : hdrReadBody (s.pushAll more) = .ok () t) (ht : t.inq = []) :
    RunsShort s (hdrReadBody s) := by
  obtain ⟨b, q, hbq⟩ := List.exists_cons_of_ne_nil hq
  have hbq' : (s.pushAll more).inq = b :: (q ++ more) := by rw [State.pushAll, hbq]; rfl
  have hrest : NeedsItsBytes fun u =>
      (fetchByte .truncated u).bind fun b1 u => hdrReadTable (256 * b.toNat + b1.toNat) u :=
    fetchByte_needs.bind fun b1 => hdrReadTable_needs _
  rw [hdrReadBody, if_neg (by exact not_not.2 hr), fetchByteOrEnd_cons hbq', Res.bind_ok] at h
  rw [hdrReadBody, if_neg (not_not.2 hr), fetchByteOrEnd_cons hbq, Res.bind_ok]
  rcases hrest { s with inq := q, incnt := s.incnt + 1 } more () t h with hshort | ⟨u, -, -, rfl⟩
  · exact hshort
  · exact absurd (List.append_eq_nil_iff.1 ht).2 hmore

/-- How HDR_READ ends where its body runs short: held while the input is open, else with an error and every byte fetched
(spec R254 checks 2 and 3). -/
theorem RunsShort.exec_hdrRead {s : State} (h : RunsShort s (hdrReadBody s)) :
    (s.inEnd = .opened → exec .hdrRead s = .next s) ∧ (s.inEnd = .eos → HdrReadFails s .truncated []) ∧
    (s.inEnd = .fail → HdrReadFails s .ioRead []) := by
  obtain ⟨t, hq, he, ht⟩ := h
  rw [← hq]
  refine ⟨fun hs => ?_, fun hs => ?_, fun hs => ?_⟩
  · rw [exec_eq, Instr.pseudo, hdrRead, ht, outOfBits_opened _ (he.trans hs), Res.onRaise_hold, finish_hold]
  · exact hdrReadFails_of_raise (by rw [ht, outOfBits_eos _ (he.trans hs)])
  · exact hdrReadFails_of_raise (by rw [ht, outOfBits_fail _ (he.trans hs)])

/-- Settles O48: HdrRead accepts the whole header, so it runs short on what is there; where nothing is there its first
fetch waits or fails. -/
theorem hdrReadOfPartOfHeader : Obligations.HdrReadOfPartOfHeader := by
  intro s es total missing hr hes htotal hq hmissing
  by_cases hnil : s.inq = []
  · refine ⟨fun hs => ?_, fun _ hne => absurd hnil hne, fun hs => ?_⟩
    · rw [exec_eq, Instr.pseudo, hdrRead, hdrReadBody, if_neg (not_not.2 hr), fetchByteOrEnd_nil hnil, hs]
      rfl
    · rw [← hnil]
      exact hdrReadFails_of_raise (by rw [hdrReadBody, if_neg (not_not.2 hr), fetchByteOrEnd_nil hnil, hs]; rfl)
  · obtain ⟨c, hc⟩ := hes.codes
    have hread := hdrRead_ok (s := s.pushAll missing) (rest := []) (Fin.ext hr) hes htotal hc
      (hq.trans (List.append_nil _).symm)
    have hshort := hdrReadBody_runsShort hr hnil hmissing (Res.onRaise_eq_ok.1 hread) rfl
    obtain ⟨hopened, heos, hfail⟩ := hshort.exec_hdrRead
    exact ⟨hopened, fun hs _ => heos hs, hfail⟩

/-! ### The entries of a header, in order (spec R254 checks 4 to 7) -/

/-- Entries that pass the checks HdrRead makes as each one arrives (spec R254 checks 5 to 7). -/
structure EntriesInOrder (es : List Entry) : Prop where
  sorted : es.Pairwise Entry.lt
  distinct : (es.map fun e => e.sym).Nodup
  positive : ∀ e ∈ es, e.len ≠ 0

theorem EntriesInOrder.of_append {as bs : List Entry} (h : EntriesInOrder (as ++ bs)) : EntriesInOrder as where
  sorted := (List.pairwise_append.1 h.sorted).1
  distinct := (List.nodup_append.1 (List.map_append ▸ h.distinct)).1
  positive := fun e he => h.positive e (List.mem_append_left _ he)

theorem EntriesInOrder.length_le {es : List Entry} (h : EntriesInOrder es) : es.length ≤ 256 := by
  rw [← length_allBytes, ← List.length_map (fun e : Entry => e.sym)]
  exact (List.subperm_of_subset h.distinct fun x _ => mem_allBytes x).length_le

/-- The staged lengths are 0 at exactly the symbols not seen yet (spec R252). -/
theorem EntriesInOrder.tget_lengthsOf_eq_zero {es : List Entry} (h : EntriesInOrder es) (x : Byte) :
    tget (lengthsOf es) x = 0 ↔ x ∉ es.map fun e => e.sym := by
  obtain ⟨hseen, hnew⟩ := tget_foldl_lengths es (tfill 0) x h.distinct
  constructor
  · intro h0 hx
    obtain ⟨e, he, rfl⟩ := List.mem_map.1 hx
    exact h.positive e he ((hseen e he rfl).symm.trans h0)
  · intro hx
    rw [lengthsOf, hnew fun e he hs => hx (List.mem_map.2 ⟨e, he, hs⟩), tget_tfill]

theorem lengthsOf_concat (es : List Entry) (e : Entry) : lengthsOf (es ++ [e]) = tset (lengthsOf es) e.sym e.len := by
  rw [lengthsOf, List.foldl_append]
  rfl

theorem entryPairs_concat (es : List Entry) (e : Entry) : entryPairs (es ++ [e]) = entryPairs es ++ [e.sym, e.len] := by
  rw [entryPairs, List.flatMap_append, List.flatMap_singleton]
  rfl

/-- One round of the entry loop (spec R252). -/
theorem readEntries_succ {s : State} {e : Entry} {rest : List Byte} (n : Nat) (prev : Option Entry)
    (staged : Table Byte) (h : s.inq = e.sym :: e.len :: rest) :
    ∃ t : State, FetchesOnly s t ∧ t.inq = rest ∧
      (∀ x, entryError prev staged e = some x → readEntries (n + 1) prev staged s = .raise x t) ∧
      (entryError prev staged e = none →
        readEntries (n + 1) prev staged s = readEntries n (some e) (tset staged e.sym e.len) t) := by
  refine ⟨{ s with inq := rest, incnt := s.incnt + 1 + 1 }, ⟨⟨rfl, [e.sym, e.len], h, BitVec.add_assoc ..⟩, rfl, rfl⟩,
    rfl, fun x hx => ?_, fun hx => ?_⟩ <;>
  rw [readEntries, fetchByte_cons _ h, Res.bind_ok, fetchByte_cons _ rfl, Res.bind_ok, hx]

/-- The entry loop takes entries that are in order and goes on from there, however the input goes on (spec R252). -/
theorem readEntries_append {es : List Entry} (h : EntriesInOrder es) (n : Nat) (rest : List Byte) {s : State}
    (hq : s.inq = entryPairs es ++ rest) :
    ∃ t : State, FetchesOnly s t ∧ t.inq = rest ∧
      readEntries (es.length + n) none (tfill 0) s = readEntries n es.getLast? (lengthsOf es) t := by
  induction es using List.reverseRecOn generalizing n rest with
  | nil => exact ⟨s, .refl s, hq, by rw [List.length_nil, Nat.zero_add]; rfl⟩
  | append_singleton es e ih =>
    have hes := h.of_append
    obtain ⟨t, hst, hqt, ht⟩ := ih hes (n + 1) (e.sym :: e.len :: rest)
      (by rw [hq, entryPairs_concat, List.append_assoc]; rfl)
    obtain ⟨u, htu, hqu, -, hu⟩ := readEntries_succ n es.getLast? (lengthsOf es) hqt
    have hnew : e.sym ∉ es.map fun a => a.sym := by
      have hd := h.distinct
      rw [List.map_append, List.nodup_append] at hd
      exact fun hx => hd.2.2 _ hx _ (by simp) rfl
    have hnone : entryError es.getLast? (lengthsOf es) e = none :=
      entryError_none (h.positive e (by simp)) ((hes.tget_lengthsOf_eq_zero _).2 hnew) fun p hp =>
        (List.pairwise_append.1 h.sorted).2.2 p (List.mem_of_getLast? hp) e (by simp)
    refine ⟨u, .trans s t u hst htu, hqu, ?_⟩
    rw [List.length_append, List.length_singleton, Nat.add_assoc, Nat.add_comm 1 n, ht, hu hnone, List.getLast?_concat,
      lengthsOf_concat]

/-- The error of an entry of length 0 (spec R254 check 5). -/
theorem entryError_badLen (prev : Option Entry) (staged : Table Byte) {e : Entry} (h : e.len = 0) :
    entryError prev staged e = some .badLen := by
  unfold entryError
  rw [if_pos h]

/-- The error of an entry whose symbol was seen before (spec R254 check 6). -/
theorem entryError_dupSym (prev : Option Entry) {staged : Table Byte} {e : Entry} (hl : e.len ≠ 0)
    (hs : tget staged e.sym ≠ 0) : entryError prev staged e = some .dupSym := by
  unfold entryError
  rw [if_neg hl, if_pos hs]

/-- The error of an entry not after the one before it (spec R254 check 7). -/
theorem entryError_badOrder {p : Entry} {staged : Table Byte} {e : Entry} (hl : e.len ≠ 0)
    (hs : tget staged e.sym = 0) (hp : ¬ p.lt e) : entryError (some p) staged e = some .badOrder := by
  have hle : e.le p := by unfold Entry.le Entry.lt at *; omega
  unfold entryError
  rw [if_neg hl, if_neg (not_not.2 hs)]
  exact if_pos hle

theorem Entry.lt_trans {a b c : Entry} (h : a.lt b) (h' : b.lt c) : a.lt c := by unfold Entry.lt at *; omega

/-- An entry that is not after some entry of a sorted list is not after the last one. -/
theorem exists_getLast?_not_lt {es : List Entry} {e : Entry} (h : es.Pairwise Entry.lt) (hno : ∃ a ∈ es, ¬ a.lt e) :
    ∃ p, es.getLast? = some p ∧ ¬ p.lt e := by
  obtain ⟨a, ha, hae⟩ := hno
  obtain ⟨init, p, rfl⟩ := (List.eq_nil_or_concat' es).resolve_left (List.ne_nil_of_mem ha)
  refine ⟨p, List.getLast?_concat, fun hp => hae ?_⟩
  rcases List.mem_append.1 ha with ha | ha
  · exact Entry.lt_trans ((List.pairwise_append.1 h).2.2 a ha p (by simp)) hp
  · rw [List.mem_singleton.1 ha]; exact hp

/-! ### HdrRead up to its entries (spec R252) -/

/-- HdrRead fetches symbol_count (spec R252). -/
theorem hdrReadBody_count {s : State} {n : Nat} {rest : List Byte} (hr : s.rcnt.val = 0) (hn : n < 65536)
    (hq : s.inq = bigEndian n 2 ++ rest) :
    ∃ t : State, FetchesOnly s t ∧ t.inq = rest ∧ hdrReadBody s = hdrReadTable n t := by
  have hcount : 256 * (BitVec.ofNat 8 (n >>> 8) : Byte).toNat + (BitVec.ofNat 8 n : Byte).toNat = n := by
    rw [BitVec.toNat_ofNat, BitVec.toNat_ofNat, Nat.shiftRight_eq_div_pow]; omega
  have hq' : s.inq = BitVec.ofNat 8 (n >>> 8) :: BitVec.ofNat 8 n :: rest := hq
  refine ⟨{ s with inq := rest, incnt := s.incnt + 1 + 1 }, ⟨⟨rfl, _, hq, BitVec.add_assoc ..⟩, rfl, rfl⟩, rfl, ?_⟩
  rw [hdrReadBody, if_neg (not_not.2 hr), fetchByteOrEnd_cons hq', Res.bind_ok]
  simp only
  rw [fetchByte_cons _ rfl, Res.bind_ok, hcount]

/-- HdrRead fetches symbol_count and the first entries, where these are in order (spec R252). -/
theorem hdrReadBody_entries {s : State} {es : List Entry} {n : Nat} {rest : List Byte} (hr : s.rcnt.val = 0)
    (hes : EntriesInOrder es) (hpos : 0 < es.length + n) (hle : es.length + n ≤ 256)
    (hq : s.inq = bigEndian (es.length + n) 2 ++ (entryPairs es ++ rest)) :
    ∃ t : State, FetchesOnly s t ∧ t.inq = rest ∧ hdrReadBody s =
      (readEntries n es.getLast? (lengthsOf es) t).bind fun staged u =>
        (readTotal u).bind fun total v => installHeader staged total v := by
  obtain ⟨t, hst, hqt, ht⟩ := hdrReadBody_count hr (by omega) hq
  obtain ⟨u, htu, hqu, hu⟩ := readEntries_append hes n rest hqt
  refine ⟨u, .trans s t u hst htu, hqu, ?_⟩
  rw [ht, hdrReadTable, if_neg (by omega), if_neg (by rw [Config.nsymMax]; omega), hu]

/-- The first entry that fails a check ends HDR_READ, with nothing fetched after it (spec R254). -/
theorem hdrReadFails_of_badEntry {s : State} {es : List Entry} {e : Entry} {x : Err} {n : Nat} {rest : List Byte}
    (hr : s.rcnt.val = 0) (hes : EntriesInOrder es) (hlt : es.length < n) (hle : n ≤ 256)
    (hq : s.inq = bigEndian n 2 ++ entryPairs (es ++ [e]) ++ rest)
    (hx : entryError es.getLast? (lengthsOf es) e = some x) :
    HdrReadFails s x rest := by
  obtain ⟨m, rfl⟩ : ∃ m, n = es.length + (m + 1) := ⟨n - es.length - 1, by omega⟩
  obtain ⟨t, -, hqt, ht⟩ := hdrReadBody_entries (n := m + 1) (rest := e.sym :: e.len :: rest) hr hes (by omega) hle
    (by rw [hq, entryPairs_concat]; simp)
  obtain ⟨u, -, hqu, hu, -⟩ := readEntries_succ m es.getLast? (lengthsOf es) hqt
  rw [← hqu]
  exact hdrReadFails_of_raise (by rw [ht, hu x hx, Res.bind_raise])

/-- Settles O49: each check is the first that fails, and it is made before the next byte is fetched. -/
theorem hdrReadChecksInOrder : Obligations.HdrReadChecksInOrder := by
  refine fun s n es e rest => ⟨fun hr => ?_, fun hr hn hlt hq => ?_,
    fun hr hlt hle hsorted hdistinct hpositive hq => ?_⟩
  · exact hdrReadFails_of_raise (by rw [hdrReadBody, if_pos hr])
  · obtain ⟨t, -, hqt, ht⟩ := hdrReadBody_count hr hlt hq
    rw [← hqt]
    exact hdrReadFails_of_raise (by rw [ht, hdrReadTable, if_neg (by omega), if_pos (by exact hn)])
  · have hes : EntriesInOrder es := ⟨hsorted, hdistinct, hpositive⟩
    have hseen := hes.tget_lengthsOf_eq_zero e.sym
    refine ⟨fun hl => ?_, fun hl hs => ?_, fun hl hs hno => ?_⟩
    · exact hdrReadFails_of_badEntry hr hes hlt hle hq (entryError_badLen _ _ hl)
    · exact hdrReadFails_of_badEntry hr hes hlt hle hq (entryError_dupSym _ hl fun h0 => hseen.1 h0 hs)
    · obtain ⟨p, hp, hpe⟩ := exists_getLast?_not_lt hsorted hno
      exact hdrReadFails_of_badEntry hr hes hlt hle hq (by rw [hp]; exact entryError_badOrder hl (hseen.2 hs) hpe)

/-! ### HdrRead after its entries (spec R254 checks 8 to 10) -/

/-- HdrRead of a header whose entries are in order comes to total_len (spec R252). -/
theorem hdrReadBody_total {s : State} {es : List Entry} {total : Nat} {rest : List Byte} (hr : s.rcnt.val = 0)
    (hne : es ≠ []) (hes : EntriesInOrder es) (hq : s.inq = headerOf s.fmt es total ++ rest) :
    ∃ t : State, t.fmt = s.fmt ∧ t.inq = (if s.fmt then bigEndian total 8 else []) ++ rest ∧
      hdrReadBody s = (readTotal t).bind fun n u => installHeader (lengthsOf es) n u := by
  have hpos := List.length_pos_iff.2 hne
  have hle := hes.length_le
  obtain ⟨t, hst, hqt, ht⟩ := hdrReadBody_entries (n := 0) (rest := (if s.fmt then bigEndian total 8 else []) ++ rest)
    hr hes (by omega) (by omega) (by rw [hq, headerOf, List.append_assoc, List.append_assoc]; rfl)
  exact ⟨t, by rw [hst.1.1], hqt, ht⟩

theorem readTotal_of_fmt_true {s : State} {total : Nat} {rest : List Byte} (hf : s.fmt = true) (hlt : total < 2 ^ 64)
    (hq : s.inq = bigEndian total 8 ++ rest) :
    ∃ t : State, t.inq = rest ∧ readTotal s = if total = 0 then .raise .badTotal t else .ok (some total) t := by
  have hmod : 0 * 256 ^ 8 + total % 256 ^ 8 = total := by
    rw [Nat.zero_mul, Nat.zero_add, pow_256_8, Nat.mod_eq_of_lt hlt]
  refine ⟨{ s with inq := rest, incnt := s.incnt + BitVec.ofNat 64 8 }, rfl, ?_⟩
  rw [readTotal, if_pos hf, readBigEndian_ok total 8 0 rest hq, Res.bind_ok, hmod]

theorem readTotal_of_fmt_false {s : State} (hf : s.fmt = false) : readTotal s = .ok none s := by
  rw [readTotal, hf]
  rfl

/-- HdrRead whose code table BuildCodes refuses (spec R252, R254 checks 9 and 10). -/
theorem hdrReadFails_of_badTable {s : State} {es : List Entry} {total : Nat} {rest : List Byte} {x : Err}
    (hr : s.rcnt.val = 0) (hne : es ≠ []) (hes : EntriesInOrder es) (hlt : total < 2 ^ 64)
    (hq : s.inq = headerOf s.fmt es total ++ rest) (htotal : s.fmt = false ∨ total ≠ 0)
    (hx : codesOf (sortedEntries (lengthsOf es)) = .error x) :
    HdrReadFails s x rest := by
  obtain ⟨t, hfmt, hqt, ht⟩ := hdrReadBody_total hr hne hes hq
  obtain ⟨n, u, hqu, hu⟩ : ∃ n u, State.inq u = rest ∧ readTotal t = .ok n u := by
    cases hf : s.fmt with
    | false => exact ⟨none, t, by rw [hqt, hf]; rfl, readTotal_of_fmt_false (hfmt.trans hf)⟩
    | true =>
      have h0 := htotal.resolve_left (by simp [hf])
      obtain ⟨u, hqu, hu⟩ := readTotal_of_fmt_true (hfmt.trans hf) hlt (by rw [hqt, hf]; rfl)
      exact ⟨some total, u, hqu, by rw [hu, if_neg h0]⟩
  rw [← hqu]
  refine hdrReadFails_of_raise
    (t := { ({ u with len := lengthsOf es } : State).clearCodes with codesValid := false }) ?_
  rw [ht, hu, Res.bind_ok, installHeader, buildCodes_eq, hx]
  rfl

theorem sortedEntries_lengthsOf_singleton {e : Entry} (h : e.len ≠ 0) : sortedEntries (lengthsOf [e]) = [e] := by
  have hlen : lengthsOf [e] = tset (tfill 0) e.sym e.len := rfl
  refine sorted_unique (sorted_sortedEntries _) (List.pairwise_singleton ..) fun a => ?_
  rw [mem_sortedEntries, hlen, tget_tset, tget_tfill, List.mem_singleton]
  constructor
  · rintro ⟨hl, ha⟩
    split at ha
    · exact Entry.ext_nat (congrArg _ ha.symm) (congrArg _ ‹a.sym = e.sym›)
    · exact absurd ha.symm hl
  · rintro rfl
    exact ⟨h, if_pos rfl⟩

/-- Settles O50: total_len is checked as it is read, the other two checks are those of BuildCodes. -/
theorem hdrReadChecksWholeHeader : Obligations.HdrReadChecksWholeHeader := by
  intro s es total rest hr hne hsorted hdistinct hpositive hlt hq
  have hes : EntriesInOrder es := ⟨hsorted, hdistinct, hpositive⟩
  refine ⟨fun hf h0 => ?_, fun htotal => ⟨fun e he hl => ?_, fun hk => ?_⟩⟩
  · obtain ⟨t, hfmt, hqt, ht⟩ := hdrReadBody_total hr hne hes hq
    obtain ⟨u, hqu, hu⟩ := readTotal_of_fmt_true (hfmt.trans hf) hlt (by rw [hqt, hf]; rfl)
    rw [← hqu]
    exact hdrReadFails_of_raise (by rw [ht, hu, if_pos h0, Res.bind_raise])
  · subst he
    have hcodes : codesOf (sortedEntries (lengthsOf [e])) = .error .badLen := by
      rw [sortedEntries_lengthsOf_singleton (hpositive e (by simp)), codesOf, if_pos hl]
    exact hdrReadFails_of_badTable hr hne hes hlt hq htotal hcodes
  · exact hdrReadFails_of_badTable hr hne hes hlt hq htotal (codesOf_oversub hk)

/-! ### HDR_READ inverts HDR_WRITE (spec R256) -/

/-- A valid code table is determined by its entries (spec R53, item 3). -/
theorem State.TableOk.eq_of_entry_eq {s t : State} (h : s.TableOk) (h' : t.TableOk) (he : s.entry = t.entry) :
    s.len = t.len ∧ s.nsym = t.nsym ∧ s.maxlen = t.maxlen ∧ s.code = t.code := by
  refine ⟨?_, ?_, ?_, ?_⟩
  · rw [← h.lengthsOf_entry, he, h'.lengthsOf_entry]
  · exact BitVec.eq_of_toNat_eq (by rw [h.count, he, h'.count])
  · have hle (n : Nat) : s.maxlen.toNat ≤ n ↔ t.maxlen.toNat ≤ n := by rw [h.maxlen_le_iff, he, h'.maxlen_le_iff]
    exact byte_ext (Nat.le_antisymm ((hle _).2 le_rfl) ((hle _).1 le_rfl))
  · have hc := h.codes
    rw [he, h'.codes, Except.ok.injEq] at hc
    exact hc.symm

/-- Settles O51: HDR_WRITE emits the header of the entries, HDR_READ installs the table with these entries, and there is
only one. -/
theorem hdrReadInvertsHdrWrite : Obligations.HdrReadInvertsHdrWrite := by
  intro s t u header rest hinv hv hn hw ho htotal ht hout hfmt hr hq
  have hT := hinv.table hv
  have hentry := entry_ne_nil hT.count hn
  have hheader : header = headerOf u.fmt s.entry s.total.toNat := by
    rw [exec_eq, Instr.pseudo, hdrWrite_ok hv (Fin.ext hw) ho, finish_ok, Host.Outcome.next.injEq] at ht
    rw [hfmt, ← headerBytes_eq hT.count hentry]
    rw [← ht] at hout
    exact (List.append_cancel_left hout).symm
  have hfield : u.fmt = true → 0 < s.total.toNat ∧ s.total.toNat < 2 ^ 64 := fun hf =>
    ⟨Nat.pos_of_ne_zero fun h0 => htotal (hfmt ▸ hf) (BitVec.eq_of_toNat_eq h0), s.total.isLt⟩
  obtain ⟨v, hrun, hvT, hve, hframe⟩ := hdrReadInstallsHeader u s.entry s.total.toNat rest hr (hT.entriesOk hentry)
    hfield (by rw [hq, hheader])
  obtain ⟨hlen, hnsym, hmaxlen, hcode⟩ := hvT.eq_of_entry_eq hT hve
  refine ⟨v, hrun, by rw [hframe], by rw [hframe], by rw [hframe], hlen, hnsym, hmaxlen, hve, hcode, fun hf => ?_⟩
  rw [hframe]
  show (if u.fmt then _ else _) = _
  rw [hfmt, if_pos hf, BitVec.ofNat_toNat, BitVec.setWidth_eq]

end Sys2Proof.Machine
end

section
/-! PROOFS of the family 43_drivers.md. ENCODE and DECODE of nothing; the round trip; the refusals of ENCODE; what the
result of ENCODE depends on. -/

namespace Sys2Proof.Machine

variable {α β : Type}

/-! ### ENCODE and DECODE of nothing (spec R135, R281, R282, R294) -/

theorem exec_encode (s : State) : exec .encode s = finish .encode s (encodeAll s) := rfl

theorem encodeAll_of_no_symbols {s : State} (hw : s.wcnt.val = 0) (h : s.symbols = []) :
    encodeAll s = .ok () s.emptyTable := by
  rw [encodeAll, if_neg (not_not.2 hw), if_pos h]

theorem align_of_aligned {s : State} (hcnt : s.rcnt.val = 0) (hbits : s.rbits = 0) : align s = .ok () s := by
  have hsame : { s with rbits := 0, rcnt := 0 } = s := by rw [← hbits, ← (Fin.ext hcnt : s.rcnt = 0)]
  rw [align_eq, if_neg (not_not.2 hbits), hsame]

/-- Where HdrRead finds an empty container, DECODE has nothing more to do (spec R135, R282). -/
theorem decodeAll_of_emptyTable {s t : State} (h : hdrRead s = .ok () t.emptyTable) (hcnt : t.rcnt.val = 0)
    (hbits : t.rbits = 0) : decodeAll s = .ok () { t.emptyTable with remain := 0 } := by
  rw [decodeAll, h, Res.bind_ok]
  exact align_of_aligned hcnt hbits

theorem hdrRead_of_ended {s : State} (hcnt : s.rcnt.val = 0) (hq : s.inq = []) (he : s.inEnd = .eos) :
    hdrRead s = .ok () s.emptyTable := by
  rw [hdrRead, hdrReadBody, if_neg (not_not.2 hcnt), fetchByteOrEnd_nil hq, he]
  rfl

theorem hdrRead_of_zero_count {s : State} {rest : List Byte} (hcnt : s.rcnt.val = 0)
    (hq : s.inq = 0x00#8 :: 0x00#8 :: rest) :
    hdrRead s = .ok () ({ s with inq := rest, incnt := s.incnt + 2 } : State).emptyTable := by
  have hcount : s.incnt + 2 = s.incnt + 1 + 1 := by rw [BitVec.add_assoc]; rfl
  rw [hdrRead, hdrReadBody, if_neg (not_not.2 hcnt), fetchByteOrEnd_cons hq, Res.bind_ok, hcount]
  rfl

/-- Settles O52: ENCODE without a symbol is EmptyTable, and both forms of the empty container leave DECODE no byte to
decode and no bit to drop. -/
theorem emptyDataIsEmptyContainer : Obligations.EmptyDataIsEmptyContainer := by
  refine fun s rest => ⟨fun hw hfreq => ?_, fun hcnt hbits => ⟨fun hq he => ?_, fun hq => ?_⟩⟩
  · rw [exec_encode, encodeAll_of_no_symbols hw ((symbols_eq_nil s).2 hfreq), finish_ok]
    rfl
  · rw [exec_decode, decodeAll_of_emptyTable (hdrRead_of_ended hcnt hq he) hcnt hbits, finish_ok]
    rfl
  · rw [exec_decode, decodeAll_of_emptyTable (hdrRead_of_zero_count hcnt hq) hcnt hbits, finish_ok]
    rfl

/-! ### The round trip (spec R290) -/

/-- The bits of the codes of a byte sequence, by the symbol codes of a state whose table is valid (spec R134). -/
theorem State.TableOk.codeBits_eq {s : State} (h : s.TableOk) (data : List Byte) :
    codeBits s.code (lengthsOf s.entry) data = data.flatMap s.symBits := by
  rw [h.lengthsOf_entry]
  rfl

theorem HasEncodeTable.tableOk {s t : State} (h : HasEncodeTable s t) : t.TableOk := by
  obtain ⟨-, -, -, hok⟩ := h
  exact hok

/-- ENCODE from `s`, whose input is `data` with its histogram in FREQ, emits `container` and ends in `t`. -/
structure EncodesTo (data container : List Byte) (s t : State) : Prop where
  bound : data.length < 2 ^ 64
  histogram : s.HasHistogram data
  aligned : s.wcnt.val = 0
  works : s.outFail = false
  input : s.inq = data
  ended : s.inEnd = .eos
  run : exec .encode s = .next t
  output : t.outq = s.outq ++ container

theorem EncodesTo.freqAt_ne_zero {data container : List Byte} {s t : State} (h : EncodesTo data container s t) {x : Byte}
    (hx : x ∈ data) : s.freqAt x ≠ 0 := by
  rw [h.histogram]
  exact (List.count_pos_iff.2 hx).ne'

/-- The round trip of nothing: the container is the empty input. -/
theorem EncodesTo.nil {container : List Byte} {s t : State} (h : EncodesTo [] container s t) :
    container = [] ∧ t.err = s.err ∧ t.inq = [] := by
  have hfreq (x : Byte) : s.freqAt x = 0 := by rw [h.histogram, List.count_nil]
  have hrun := h.run
  rw [exec_encode, encodeAll_of_no_symbols h.aligned ((symbols_eq_nil s).2 hfreq), finish_ok,
    Host.Outcome.next.injEq] at hrun
  have hout := h.output
  subst hrun
  exact ⟨List.append_right_eq_self.1 hout.symm, rfl, h.input⟩

/-- The container of nonempty data: the header of a valid table with the codes of the data, packed (spec R130). -/
theorem EncodesTo.container_eq {data container : List Byte} {s t : State} (h : EncodesTo data container s t)
    (hne : data ≠ []) :
    ∃ payload, container = headerOf s.fmt t.entry data.length ++ payload ∧
      IsPacked (data.flatMap t.symBits) payload ∧ HasEncodeTable s t ∧ EncodesOnly { s with pending := none } t ∧
      t.inq = [] := by
  obtain ⟨t', payload, hrun, hframe, htable, hin, -, hout, hpacked⟩ :=
    encodeEmitsContainer s data hne h.bound (totalFreq_of_hasHistogram h.histogram) (fun _ => h.freqAt_ne_zero)
      h.aligned h.works h.input h.ended
  obtain rfl : t' = t := by rw [h.run, Host.Outcome.next.injEq] at hrun; exact hrun.symm
  refine ⟨payload, ?_, hpacked, htable, hframe, hin⟩
  rw [h.output, List.append_assoc] at hout
  exact List.append_cancel_left hout

/-- ENCODE gives every byte of the data a length (spec R161, R281). -/
theorem EncodesTo.lenAt_ne_zero {data container : List Byte} {s t : State} (h : EncodesTo data container s t)
    (htable : HasEncodeTable s t) {x : Byte} (hx : x ∈ data) : t.lenAt x ≠ 0 := by
  have htotal := totalFreq_of_hasHistogram h.histogram
  have hbound := h.bound
  have hpos := List.length_pos_of_mem hx
  rw [lenAt_ne_zero_iff, htable.len_eq (by omega) (by omega)]
  exact treeLengths_ne_zero (h.freqAt_ne_zero hx)

/-- Settles O59: DECODE finds the header of ENCODE's table and the packed codes of the data behind it. -/
theorem decodeInvertsEncodeOfData : Obligations.DecodeInvertsEncodeOfData := by
  intro s t u data container rest hlt hhist hw ho hq he hrun hout hfmt hcnt hbits hou htotal hin hnil
  have henc : EncodesTo data container s t := ⟨hlt, hhist, hw, ho, hq, he, hrun, hout⟩
  by_cases hne : data = []
  · subst hne
    obtain ⟨rfl, herr, hqt⟩ := henc.nil
    obtain ⟨rfl, hend⟩ := hnil rfl
    obtain ⟨-, hdec⟩ := emptyDataIsEmptyContainer u []
    exact ⟨herr, hqt, _, (hdec hcnt hbits).1 hin hend, (List.append_nil _).symm, hin, rfl, rfl⟩
  · obtain ⟨payload, rfl, hpacked, htable, hframe, hqt⟩ := henc.container_eq hne
    have hok := htable.tableOk
    have hlen (x : Byte) (hx : x ∈ data) : tget (lengthsOf t.entry) x ≠ 0 := by
      rw [hok.lengthsOf_entry, ← lenAt_ne_zero_iff]
      exact henc.lenAt_ne_zero htable hx
    obtain ⟨x, hx⟩ := List.exists_mem_of_ne_nil data hne
    have hentry : t.entry ≠ [] := List.ne_nil_of_mem (hok.mem (henc.lenAt_ne_zero htable hx))
    obtain ⟨v, hdec, hdframe, hvout, hvin, -, hremain, -⟩ :=
      decodeEmitsTheData u t.entry t.code data payload rest hcnt hbits (.inl hou) (hok.entriesOk hentry) hok.codes hlen
        hlt (fun _ => hne) htotal (by rw [hok.codeBits_eq]; exact hpacked) (by rw [hin, hfmt])
    exact ⟨by rw [hframe.1], hqt, v, hdec, hvout, hvin, by rw [hdframe.1], hremain⟩

/-! ### ENCODE past the good bytes of its input (spec R281) -/

/-- The data pass of ENCODE from the point where `n` bytes are coded (spec R281, steps (4) and (5)). -/
def encodeFrom (fuel n : Nat) (s : State) : Res Unit :=
  (encodeLoop fuel n s).bind fun n s => if n ≠ s.total.toNat then .raise .countMismatch s else flush s

theorem encodeData_eq_encodeFrom (s : State) : encodeData s = encodeFrom s.inq.length 0 s := rfl

theorem encodeFrom_cons {s : State} {x : Byte} {rest : List Byte} (fuel n : Nat) (h : s.inq = x :: rest) {e : Err}
    (hx : ∀ t : State, t.total = s.total → t.len = s.len → encodeByte x n t = .raise e t) :
    encodeFrom (fuel + 1) n s = .raise e { s with inq := rest, incnt := s.incnt + 1 } := by
  rw [encodeFrom, encodeLoop, fetchByteOrEnd_cons h, Res.bind_ok]
  simp only
  rw [hx { s with inq := rest, incnt := s.incnt + 1 } rfl rfl, Res.bind_raise, Res.bind_raise]

/-- ENCODE from `s` has emitted the header, coded the bytes `good` and is in `t` (spec R281). -/
structure EncodedSoFar (good : List Byte) (s t : State) : Prop where
  frame : EncodesOnly s t
  table : HasEncodeTable s t
  bits : t.outBits = s.outBits ++ bytesBits (headerOf s.fmt t.entry s.totalFreq) ++ good.flatMap t.symBits

theorem EncodedSoFar.total_toNat {good : List Byte} {s t : State} (h : EncodedSoFar good s t)
    (hlt : s.totalFreq < 2 ^ 64) : t.total.toNat = s.totalFreq := by
  obtain ⟨-, htotal, -⟩ := h.table
  rw [htotal, BitVec.toNat_ofNat, Nat.mod_eq_of_lt hlt]

/-- Fetching on without coding a byte (spec R94). -/
theorem EncodedSoFar.fetches {good : List Byte} {s t u : State} (h : EncodedSoFar good s t) (hu : FetchesOnly t u) :
    EncodedSoFar good s u := by
  have hd : DataPassOnly t u := hu.dataPass
  have hout : u.outBits = t.outBits := by rw [hu.1.1]; rfl
  have hentry : u.entry = t.entry := by rw [hd.1]
  have hsym : u.symBits = t.symBits := by rw [hd.1]; rfl
  exact ⟨.trans s t u h.frame hd.encodes, h.table.congr (by rw [hd.1]), by rw [hout, hentry, hsym]; exact h.bits⟩

/-- Recording an error ends ENCODE as a failure after the bytes it coded (spec R333, R335). -/
theorem EncodedSoFar.failed {good : List Byte} {s t : State} (h : EncodedSoFar good s t) (e : Err) :
    EncodeFailedAfter good (errWord Op.encode.code e) e.isFatal s (t.takeError Op.encode.code e).retire :=
  ⟨⟨by rw [State.retire, State.takeError, h.frame.1], h.frame.2⟩, h.table.congr rfl, h.bits⟩

/-- ENCODE after BuildTree (spec R281, steps (2) to (5)). -/
def encodeTail (s : State) : Res Unit :=
  (buildCodes s).bind fun _ s => (hdrWrite s).bind fun _ s => encodeData s

theorem encodeAll_eq_encodeTail {s : State} (hw : s.wcnt.val = 0) (hlt : s.totalFreq < 2 ^ 64) (hs : s.symbols ≠ []) :
    encodeAll s = encodeTail s.withTree := by
  rw [encodeAll, if_neg (not_not.2 hw), if_neg hs, buildTree_eq, if_neg hs,
    if_neg (by rw [← totalFreq_eq_freqSum]; omega), Res.bind_ok]
  rfl

/-- Where FREQ is usable and the writer aligned, ENCODE builds the tables and goes on with the header (spec R281, steps
(2) and (3)). -/
theorem encodeAll_eq_hdrWrite {s : State} (hw : s.wcnt.val = 0) (hlt : s.totalFreq < 2 ^ 64) (hne : s.totalFreq ≠ 0) :
    ∃ c, codesOf (sortedEntries s.treeLengths) = .ok c ∧
      encodeAll s = (hdrWrite (s.withTree.withTable c)).bind fun _ t => encodeData t := by
  have hs := symbols_ne_nil hne
  obtain ⟨c, hc⟩ := codesOf_treeLengths hs
  have htable : buildCodes s.withTree = .ok () (s.withTree.withTable c) := by
    rw [buildCodes_eq, show s.withTree.len = s.treeLengths from rfl, hc]
  exact ⟨c, hc, by rw [encodeAll_eq_encodeTail hw hlt hs, encodeTail, htable, Res.bind_ok]⟩

/-- ENCODE codes the good bytes at the front of the input and goes on from there, however the input goes on (spec
R281). -/
theorem encodeAll_append {s : State} {good rest : List Byte} (hw : s.wcnt.val = 0) (hlt : s.totalFreq < 2 ^ 64)
    (hne : s.totalFreq ≠ 0) (ho : s.outFail = false) (hgood : ∀ y ∈ good, s.freqAt y ≠ 0)
    (hle : good.length ≤ s.totalFreq) (hq : s.inq = good ++ rest) :
    ∃ t, encodeAll s = encodeFrom rest.length good.length t ∧ EncodedSoFar good s t ∧ t.inq = rest := by
  obtain ⟨c, hc, hrun⟩ := encodeAll_eq_encodeData hw hlt hne ho
  obtain ⟨t, ht, hd, hrest, hbits⟩ := encodeLoop_append (s := (s.withTree.withTable c).withHeader) good rest
    rest.length 0 hq ho (fun b hb h0 => treeLengths_ne_zero (hgood b hb) (BitVec.eq_of_toNat_eq h0))
    ((Nat.zero_add _).trans_le (hle.trans (withTree_total_toNat hlt).ge))
  refine ⟨t, ?_, ⟨?_, (hasEncodeTable_withTable hlt hne hc).congr ?_, ?_⟩, hrest⟩
  · have hlen : (s.withTree.withTable c).withHeader.inq.length = good.length + rest.length :=
      (congrArg List.length hq).trans List.length_append
    rw [hrun, encodeData_eq_encodeFrom, hlen, encodeFrom, ht, Nat.zero_add]
    rfl
  · exact .trans s (s.withTree.withTable c).withHeader t ⟨rfl, (StreamsMove.refl s).1, _, rfl, rfl⟩ hd.encodes
  · rw [hd.1]; rfl
  · have hentry : t.entry = (s.withTree.withTable c).entry := by rw [hd.1]; rfl
    have hsym : t.symBits = (s.withTree.withTable c).withHeader.symBits := by rw [hd.1]; rfl
    have hcnt : (s.withTree.withTable c).withHeader.wcnt.val = 0 := hw
    rw [hbits, hsym, hentry, ← headerBytes_withTree hlt hne hc, outBits_of_aligned hw, outBits_of_aligned hcnt,
      ← bytesBits_append]
    rfl

/-! ### The refusals of ENCODE (spec R281, R335) -/

theorem exec_encode_unaligned {s : State} (hw : s.wcnt.val ≠ 0) :
    exec .encode s = .next { s with pending := none, err := true, errcode := 0x400502 } := by
  rw [exec_encode, encodeAll, if_pos hw, finish_raise, takeError_retire_of_not_fatal _ _ rfl]
  rfl

theorem exec_encode_freqSum {s : State} (hw : s.wcnt.val = 0) (hsum : 2 ^ 64 ≤ s.totalFreq) :
    exec .encode s = .next { s with pending := none, err := true, fatal := true, errcode := 0x400204 } := by
  have hs : s.symbols ≠ [] := symbols_ne_nil (by omega)
  rw [exec_encode, encodeAll, if_neg (not_not.2 hw), if_neg hs, buildTree_eq, if_neg hs,
    if_pos (by rw [← totalFreq_eq_freqSum]; exact hsum), Res.bind_raise, finish_raise,
    takeError_retire_of_fatal _ _ rfl]
  rfl

/-- A failing sink takes no byte of the header (spec R95, R250). -/
theorem exec_encode_sinkFails {s : State} (hw : s.wcnt.val = 0) (hlt : s.totalFreq < 2 ^ 64) (hne : s.totalFreq ≠ 0)
    (ho : s.outFail = true) :
    ∃ t : State, exec .encode s = .next t ∧ HasEncodeTable s t ∧
      t = { s with
        pending := none, err := true, errcode := 0x400102, len := t.len, total := t.total, nsym := t.nsym
        maxlen := t.maxlen, entry := t.entry, code := t.code, codesValid := true } := by
  obtain ⟨c, hc, hrun⟩ := encodeAll_eq_hdrWrite hw hlt hne
  let u := s.withTree.withTable c
  have hhdr : hdrWrite u = .raise .ioWrite u := by
    rw [hdrWrite_eq_emitAll (s := u) rfl hw, headerBytes_withTree hlt hne hc,
      emitAll_fail (s := u) ho (headerOf_ne_nil _ _ _)]
  refine ⟨{ u with pending := none, err := true, errcode := errWord Op.encode.code .ioWrite }, ?_,
    (hasEncodeTable_withTable hlt hne hc).congr rfl, rfl⟩
  rw [exec_encode, hrun, hhdr, Res.bind_raise, finish_raise, takeError_retire_of_not_fatal _ _ rfl]

/-- ENCODE on an input whose next byte after the good ones is refused (spec R281, step (4)). -/
theorem exec_encode_badByte {s : State} {good rest : List Byte} {x : Byte} {e : Err} (hw : s.wcnt.val = 0)
    (hlt : s.totalFreq < 2 ^ 64) (hne : s.totalFreq ≠ 0) (ho : s.outFail = false)
    (hgood : ∀ y ∈ good, s.freqAt y ≠ 0) (hle : good.length ≤ s.totalFreq) (hq : s.inq = good ++ x :: rest)
    (hx : ∀ t : State, t.total.toNat = s.totalFreq → t.len = s.treeLengths →
      encodeByte x good.length t = .raise e t) :
    ∃ t : State, exec .encode s = .next t ∧
      EncodeFailedAfter good (errWord Op.encode.code e) e.isFatal s t ∧ t.inq = rest := by
  obtain ⟨t, ht, hsofar, hin⟩ := encodeAll_append hw hlt hne ho hgood hle hq
  have hfetch : FetchesOnly t { t with inq := rest, incnt := t.incnt + 1 } :=
    ⟨⟨rfl, [x], hin, rfl⟩, rfl, rfl⟩
  refine ⟨_, ?_, (hsofar.fetches hfetch).failed e, rfl⟩
  rw [exec_encode, ht, List.length_cons, encodeFrom_cons _ _ hin fun u hu hl =>
    hx u (by rw [hu, hsofar.total_toNat hlt]) (hl.trans (hsofar.table.len_eq hlt hne)), finish_raise]

/-- ENCODE on an input that is only good bytes and ends (spec R281, steps (4) and (5)). -/
theorem exec_encode_shortInput {s : State} {e : Err} (hw : s.wcnt.val = 0) (hlt : s.totalFreq < 2 ^ 64)
    (hne : s.totalFreq ≠ 0) (ho : s.outFail = false) (hgood : ∀ y ∈ s.inq, s.freqAt y ≠ 0)
    (hle : s.inq.length ≤ s.totalFreq)
    (hx : ∀ t : State, t.inq = [] → t.inEnd = s.inEnd → t.total.toNat = s.totalFreq →
      encodeFrom 0 s.inq.length t = .raise e t) :
    ∃ t : State, exec .encode s = .next t ∧
      EncodeFailedAfter s.inq (errWord Op.encode.code e) e.isFatal s t ∧ t.inq = [] := by
  obtain ⟨t, ht, hsofar, hin⟩ := encodeAll_append hw hlt hne ho hgood hle (List.append_nil _).symm
  refine ⟨_, ?_, hsofar.failed e, hin⟩
  rw [exec_encode, ht, List.length_nil, hx t hin (by rw [hsofar.frame.1]) (hsofar.total_toNat hlt),
    finish_raise]

/-- Settles O54: ENCODE stops at its first check, in BuildTree, at the header, at a byte it refuses, or at the end of an
input that is too short or failed. -/
theorem encodeRefusesBadInput : Obligations.EncodeRefusesBadInput := by
  refine fun s good rest x => ⟨exec_encode_unaligned, exec_encode_freqSum, fun hw hlt hne =>
    ⟨exec_encode_sinkFails hw hlt hne, fun ho hgood => ⟨fun hq hless hx => ?_, fun hq hlen => ?_, fun hq he hless => ?_,
      fun hq he hle => ?_⟩⟩⟩
  · refine exec_encode_badByte (e := .noEntry) hw hlt hne ho hgood hless.le hq fun t htotal hlen => ?_
    have hno : t.lenAt x = 0 := by
      rw [State.lenAt, hlen, treeLengths_eq_zero (symbols_ne_nil hne) hx]
      rfl
    rw [encodeByte, if_neg (by omega), if_pos hno]
  · refine exec_encode_badByte (e := .countMismatch) hw hlt hne ho hgood hlen.le hq fun t htotal _ => ?_
    rw [encodeByte, if_pos (by omega)]
  · subst hq
    refine exec_encode_shortInput (e := .countMismatch) hw hlt hne ho hgood hless.le fun t hin hend htotal => ?_
    rw [encodeFrom, encodeLoop, fetchByteOrEnd_nil hin, hend, he]
    exact if_pos (by omega)
  · subst hq
    refine exec_encode_shortInput (e := .ioRead) hw hlt hne ho hgood hle fun t hin hend _ => ?_
    rw [encodeFrom, encodeLoop, fetchByteOrEnd_nil hin, hend, he]
    rfl

/-! ### What the result of ENCODE depends on (spec R291) -/

/-- The block `c` with what ENCODE works on taken from `s`, and the output and the counts of `s` added to its own. -/
def State.over (s c : State) : State :=
  { c with
    fmt := s.fmt, codesValid := s.codesValid, total := s.total, nsym := s.nsym, maxlen := s.maxlen, wbits := s.wbits
    wcnt := s.wcnt, freq := s.freq, len := s.len, entry := s.entry, code := s.code, inq := s.inq, inEnd := s.inEnd
    outFail := s.outFail, incnt := c.incnt + s.incnt, outcnt := c.outcnt + s.outcnt, outq := c.outq ++ s.outq }

/-- The same way to end, in another state. -/
def Res.mapState (g : State → State) : Res α → Res α
  | .ok a s => .ok a (g s)
  | .raise e s => .raise e (g s)
  | .hold => .hold

/-- A piece of pseudocode does the same over every block: it uses nothing of the block and leaves it alone. -/
def SameOverAny (f : State → Res α) : Prop := ∀ s c : State, f (s.over c) = (f s).mapState fun t => t.over c

theorem SameOverAny.bind {f : State → Res α} {g : α → State → Res β} (hf : SameOverAny f)
    (hg : ∀ a, SameOverAny (g a)) : SameOverAny fun s => (f s).bind g := by
  intro s c
  show (f (s.over c)).bind g = ((f s).bind g).mapState fun t => t.over c
  rw [hf]
  cases f s with
  | ok a t => exact hg a t c
  | raise e t => rfl
  | hold => rfl

theorem SameOverAny.ok (a : α) : SameOverAny fun s => .ok a s := fun _ _ => rfl

theorem SameOverAny.raise (e : Err) : SameOverAny fun s => (.raise e s : Res α) := fun _ _ => rfl

/-- A branch on what ENCODE works on. -/
theorem SameOverAny.ite {p : State → Prop} [DecidablePred p] {f g : State → Res α} (hp : ∀ s c, p (s.over c) ↔ p s)
    (hf : SameOverAny f) (hg : SameOverAny g) : SameOverAny fun s => if p s then f s else g s := by
  intro s c
  by_cases h : p s
  · simp only [if_pos h, if_pos ((hp s c).2 h), hf s c]
  · simp only [if_neg h, if_neg (mt (hp s c).1 h), hg s c]

theorem fetchByteOrEnd_sameOverAny : SameOverAny fetchByteOrEnd := by
  intro s c
  cases hq : s.inq with
  | nil =>
    rw [fetchByteOrEnd_nil hq, fetchByteOrEnd_nil (s := s.over c) hq, show (s.over c).inEnd = s.inEnd from rfl]
    cases s.inEnd <;> rfl
  | cons b rest =>
    rw [fetchByteOrEnd_cons hq, fetchByteOrEnd_cons (s := s.over c) hq]
    simp [Res.mapState, State.over, BitVec.add_assoc]

theorem emit_sameOverAny (b : Byte) : SameOverAny (emit b) := by
  intro s c
  cases ho : s.outFail with
  | true =>
    rw [emit_fail b ho, emit_fail (s := s.over c) b ho]
    rfl
  | false =>
    rw [emit_ok b ho, emit_ok (s := s.over c) b ho]
    simp [Res.mapState, State.over, BitVec.add_assoc]

/-- Emitting a byte made of the writer's bits, with the accumulator cleared (spec R200, R205). -/
theorem emit_cleared_sameOverAny {b : State → Byte} (hb : ∀ s c, b (s.over c) = b s) :
    SameOverAny fun s => emit (b s) { s with wbits := 0, wcnt := 0 } := by
  intro s c
  show emit (b (s.over c)) _ = _
  rw [hb]
  exact emit_sameOverAny (b s) { s with wbits := 0, wcnt := 0 } c

theorem putBit_sameOverAny (b : Bool) : SameOverAny (putBit b) :=
  .ite (fun _ _ => .rfl) (emit_cleared_sameOverAny fun _ _ => rfl) fun _ _ => rfl

theorem emitAll_sameOverAny (bs : List Byte) : SameOverAny (emitAll bs) := by
  induction bs with
  | nil => exact .ok ()
  | cons b bs ih => exact (emit_sameOverAny b).bind fun _ => ih

theorem putCode_sameOverAny (v n : Nat) : SameOverAny (putCode v n) := by
  induction n with
  | zero => exact .ok ()
  | succ n ih => exact (putBit_sameOverAny _).bind fun _ => ih

theorem flush_sameOverAny : SameOverAny flush :=
  .ite (fun _ _ => .rfl) (.ok ()) (emit_cleared_sameOverAny fun _ _ => rfl)

theorem encodeByte_sameOverAny (b : Byte) (n : Nat) : SameOverAny (encodeByte b n) :=
  .ite (fun _ _ => .rfl) (.raise _)
    (.ite (fun _ _ => .rfl) (.raise _) fun s => putCode_sameOverAny (s.codeAt b) (s.lenAt b) s)

theorem encodeLoop_sameOverAny (fuel n : Nat) : SameOverAny (encodeLoop fuel n) := by
  induction fuel generalizing n with
  | zero => exact fetchByteOrEnd_sameOverAny.bind fun _ => .ok n
  | succ fuel ih =>
    refine fetchByteOrEnd_sameOverAny.bind fun b => ?_
    cases b with
    | none => exact .ok n
    | some b => exact (encodeByte_sameOverAny b n).bind fun _ => ih (n + 1)

theorem encodeFrom_sameOverAny (fuel n : Nat) : SameOverAny (encodeFrom fuel n) :=
  (encodeLoop_sameOverAny fuel n).bind fun _ => .ite (fun _ _ => .rfl) (.raise _) flush_sameOverAny

theorem encodeData_sameOverAny : SameOverAny encodeData := fun s => encodeFrom_sameOverAny s.inq.length 0 s

theorem hdrWrite_sameOverAny : SameOverAny hdrWrite :=
  .ite (fun _ _ => .rfl) (.raise _) (.ite (fun _ _ => .rfl) (.raise _) fun s => emitAll_sameOverAny s.headerBytes s)

theorem buildCodes_sameOverAny : SameOverAny buildCodes := by
  intro s c
  rw [buildCodes_eq, buildCodes_eq, show (s.over c).len = s.len from rfl]
  cases codesOf (sortedEntries s.len) <;> rfl

theorem encodeTail_sameOverAny : SameOverAny encodeTail :=
  buildCodes_sameOverAny.bind fun _ => hdrWrite_sameOverAny.bind fun _ => encodeData_sameOverAny

/-- Two blocks agree on all that ENCODE starts from: FREQ, CTRL.FMT, the streams and the writer (spec R291). -/
structure SameInput (s s' : State) : Prop where
  freq : s.freq = s'.freq
  fmt : s.fmt = s'.fmt
  inq : s.inq = s'.inq
  inEnd : s.inEnd = s'.inEnd
  outFail : s.outFail = s'.outFail
  wbits : s.wbits = s'.wbits
  wcnt : s.wcnt = s'.wcnt

theorem SameInput.refl (s : State) : SameInput s s := ⟨rfl, rfl, rfl, rfl, rfl, rfl, rfl⟩

theorem SameInput.symbols {s s' : State} (h : SameInput s s') : s.symbols = s'.symbols := by
  rw [State.symbols, State.symbols, h.freq]

theorem SameInput.freqSum {s s' : State} (h : SameInput s s') : s.freqSum = s'.freqSum := by
  rw [State.freqSum, State.freqSum, h.freq]

theorem SameInput.treeLengths {s s' : State} (h : SameInput s s') : s.treeLengths = s'.treeLengths := by
  rw [State.treeLengths, State.treeLengths, h.symbols, State.leaves, State.leaves, h.freq]

/-- The state with nothing emitted and nothing counted yet. -/
def State.fresh (s : State) : State := { s with incnt := 0, outcnt := 0, outq := [] }

/-- What BuildTree leaves is the same over both blocks (spec R161). -/
theorem SameInput.withTree_eq {s s' : State} (h : SameInput s s') : s'.withTree = s.withTree.fresh.over s' := by
  simp [State.withTree, State.clearCodes, State.over, State.fresh, h.freq, h.fmt, h.inq, h.inEnd, h.outFail, h.wbits,
    h.wcnt, h.treeLengths, h.freqSum]

/-- The empty table is the same over both blocks (spec R252). -/
theorem SameInput.emptyTable_eq {s s' : State} (h : SameInput s s') : s'.emptyTable = s.emptyTable.fresh.over s' := by
  simp [State.emptyTable, State.clearCodes, State.over, State.fresh, h.freq, h.fmt, h.inq, h.inEnd, h.outFail, h.wbits,
    h.wcnt]

/-- Over two blocks that agree on its input ENCODE ends the same way (spec R291). -/
theorem SameInput.encodeAll_eq {s s' : State} (h : SameInput s s') (hw : s.wcnt.val = 0) (hlt : s.totalFreq < 2 ^ 64) :
    ∃ r : Res Unit, encodeAll s = (r.mapState fun u => u.over s) ∧ encodeAll s' = r.mapState fun u => u.over s' := by
  have hw' : s'.wcnt.val = 0 := by rw [← h.wcnt, hw]
  have hlt' : s'.totalFreq < 2 ^ 64 := by rwa [totalFreq_eq_freqSum, ← h.freqSum, ← totalFreq_eq_freqSum]
  by_cases hs : s.symbols = []
  · have hs' : s'.symbols = [] := by rw [← h.symbols, hs]
    refine ⟨.ok () s.emptyTable.fresh, ?_, ?_⟩
    · rw [encodeAll_of_no_symbols hw hs, (SameInput.refl s).emptyTable_eq]
      rfl
    · rw [encodeAll_of_no_symbols hw' hs', h.emptyTable_eq]
      rfl
  · have hs' : s'.symbols ≠ [] := by rwa [← h.symbols]
    exact ⟨encodeTail s.withTree.fresh,
      (encodeAll_eq_encodeTail hw hlt hs).trans
        ((congrArg encodeTail (SameInput.refl s).withTree_eq).trans (encodeTail_sameOverAny _ s)),
      (encodeAll_eq_encodeTail hw' hlt' hs').trans
        ((congrArg encodeTail h.withTree_eq).trans (encodeTail_sameOverAny _ s'))⟩

/-- Settles O56: ENCODE does the same over both blocks, and on an input that is not open it is not held. -/
theorem encodeIsDeterminedByItsInput : Obligations.EncodeIsDeterminedByItsInput := by
  intro s s' t t' hfreq hfmt hinq hend hof hw hw' hwb hne hlt hrun hrun'
  have hsame : SameInput s s' := ⟨hfreq, hfmt, hinq, hend, hof, hwb, Fin.ext (hw.trans hw'.symm)⟩
  obtain ⟨r, hr, hr'⟩ := hsame.encodeAll_eq hw hlt
  rw [exec_encode, hr] at hrun
  rw [exec_encode, hr'] at hrun'
  cases r with
  | ok a u =>
    obtain rfl := Host.Outcome.next.inj hrun
    obtain rfl := Host.Outcome.next.inj hrun'
    exact ⟨⟨u.outq, rfl, rfl⟩, rfl, rfl, rfl, rfl, rfl, rfl, rfl, rfl, rfl, rfl,
      fun he he' hc => ⟨he.trans he'.symm, hc⟩⟩
  | raise e u =>
    obtain rfl := Host.Outcome.next.inj hrun
    obtain rfl := Host.Outcome.next.inj hrun'
    exact ⟨⟨u.outq, rfl, rfl⟩, rfl, rfl, rfl, rfl, rfl, rfl, rfl, rfl, rfl, rfl, fun _ _ _ => ⟨rfl, rfl⟩⟩
  | hold => exact absurd ((encodeAll_spec s).of_hold hr) hne

end Sys2Proof.Machine
end

section
/-! PROOFS of the family 44_control.md. The commands whose pseudocode ends without an error or a HOLD. -/

namespace Sys2Proof.Machine

/-- A command whose pseudocode comes to its end leaves what the pseudocode left, with PENDING emptied (spec R101). -/
theorem exec_of_pseudo_ok {i : Instr} {s t : State} (h : Instr.pseudo i s = .ok () t) : exec i s = .next t.retire := by
  rw [exec_eq, h, finish_ok]

/-- NOP has no pseudocode (spec R310). -/
theorem exec_nop (s : State) : exec .nop s = .next s.retire := exec_of_pseudo_ok rfl

/-- ERR_CLEAR is the return from a recorded error (spec R312, R340). -/
theorem exec_errClear (s : State) : exec .errClear s = .next s.clearError.retire := exec_of_pseudo_ok rfl

/-- Settles O10: NOP leaves its state to the end of the core step, ERR_CLEAR the state with the record cleared. -/
theorem nopAndErrClear : Obligations.NopAndErrClear := fun s => ⟨exec_nop s, exec_errClear s⟩

end Sys2Proof.Machine
end

section
/-! PROOFS of the family 60_exceptions.md. The numbers of the errors and the record of one; the errors a command can
raise; the words a mode accepts. -/

namespace Sys2Proof.Machine

variable {α β : Type}

/-! ### The record of an error (spec R331 to R333) -/

/-- `CLASS * 256 + DETAIL` of an error (spec R331). -/
def Err.number (e : Err) : Nat := 256 * e.cls.code.toNat + e.detail.toNat

/-- The table of R331 gives every error its number, and no other. -/
theorem mem_errorCodes (e : Err) (n : Nat) : (e, n) ∈ errorCodes ↔ n = e.number := by
  have hlisted : ∀ p ∈ errorCodes, p.2 = p.1.number := by decide
  constructor
  · exact hlisted (e, n)
  · rintro rfl
    cases e <;> decide

/-- The fatal errors are those of the class INVARIANT, whose code is 2 (spec R330, R332). -/
theorem isFatal_eq (e : Err) : e.isFatal = (e.number / 256 == 2) := by
  cases e <;> rfl

/-- Recording an error and ending the step write the record and PENDING, and nothing else (spec R101, R333). -/
theorem takeError_retire (s : State) (op : Byte) (e : Err) :
    (s.takeError op e).retire = { s with
      pending := none, err := true, errcode := BitVec.ofNat 64 (65536 * op.toNat + e.number)
      fatal := s.fatal || e.number / 256 == 2 } := by
  rw [State.takeError, errWord_eq_ofNat, isFatal_eq]
  rfl

/-- Settles O7: the table of R331 lists each error once, and a raise ends the step with its record. -/
theorem errorIsRecorded : Obligations.ErrorIsRecorded := by
  refine ⟨fun e => ⟨e.number, (mem_errorCodes e _).2 rfl⟩, fun e n hn => ?_⟩
  obtain rfl := (mem_errorCodes e n).1 hn
  exact ⟨fun op s t => by rw [finish_raise, takeError_retire], fun op t => takeError_retire t op e⟩

/-! ### The errors a command can raise (spec R331, last column) -/

/-- A piece of pseudocode raises no error but those of a list. -/
def Res.RaisesOnly (es : List Err) (r : Res α) : Prop := ∀ e t, r = .raise e t → e ∈ es

theorem Res.RaisesOnly.ok {es : List Err} (a : α) (s : State) : (Res.ok a s).RaisesOnly es :=
  fun _ _ h => nomatch h

theorem Res.RaisesOnly.raise {es : List Err} {e : Err} (s : State) (he : e ∈ es) :
    (Res.raise e s : Res α).RaisesOnly es := by
  rintro _ _ ⟨⟩
  exact he

theorem Res.RaisesOnly.bind {es : List Err} {r : Res α} {f : α → State → Res β} (hr : r.RaisesOnly es)
    (hf : ∀ a t, (f a t).RaisesOnly es) : (r.bind f).RaisesOnly es := by
  intro e t h
  rcases Res.bind_eq_raise.1 h with h | ⟨a, u, -, h⟩
  · exact hr e t h
  · exact hf a u e t h

theorem Res.Spec.raisesOnly {r : Res α} {P : α → State → Prop} {Q : Err → State → Prop} {held : Prop}
    {es : List Err} (hr : r.Spec P Q held) (hQ : ∀ e t, Q e t → e ∈ es) : r.RaisesOnly es := by
  rintro e t rfl
  exact hQ e t hr

theorem Res.Sat.raisesOnly {r : Res α} {P : State → Prop} {held : Prop} {es es' : List Err}
    (hr : r.Sat P es held) (he : es ⊆ es') : r.RaisesOnly es' := by
  rintro e t rfl
  exact he hr.1

theorem decSym_raisesOnly (s : State) : (decSym s).RaisesOnly (raisedBy .decSym) := by
  unfold decSym
  split
  · exact .raise s (by decide)
  · exact ((decodeSym_sat .truncated s).raisesOnly (by decide)).bind fun _ _ => .ok _ _

theorem align_raisesOnly (s : State) : (align s).RaisesOnly (raisedBy .align) := by
  rw [align_eq]
  split
  · exact .raise s (by decide)
  · exact .ok _ _

/-- ENCODE takes a FREQ of zeros for the empty container, BuildCodes accepts the lengths of the tree, and HdrWrite
meets a valid table: so neither EMPTY_FREQ, BAD_LEN, OVERSUB nor NO_CODES is raised (spec R281, R167). -/
theorem encodeAll_raisesOnly (s : State) : (encodeAll s).RaisesOnly (raisedBy .encode) := by
  by_cases hw : s.wcnt.val = 0
  case neg =>
    rw [encodeAll, if_pos hw]
    exact .raise s (by decide)
  by_cases hs : s.symbols = []
  case pos =>
    rw [encodeAll, if_neg (not_not.2 hw), if_pos hs]
    exact .ok _ _
  obtain ⟨x, hx⟩ := List.exists_mem_of_ne_nil _ hs
  have hne : s.totalFreq ≠ 0 := totalFreq_ne_zero ((mem_symbols s x).1 hx)
  by_cases hlt : s.totalFreq < 2 ^ 64
  case neg =>
    rw [encodeAll, if_neg (not_not.2 hw), if_neg hs, buildTree_eq, if_neg hs,
      if_pos (by rw [← totalFreq_eq_freqSum]; omega), Res.bind_raise]
    exact .raise s (by decide)
  obtain ⟨c, -, hrun⟩ := encodeAll_eq_hdrWrite hw hlt hne
  rw [hrun, hdrWrite_eq_emitAll (s := s.withTree.withTable c) rfl hw]
  exact ((emitAll_sat _ _).raisesOnly (by decide)).bind fun _ t => (encodeData_sat t).raisesOnly (by decide)

/-- A command's pseudocode raises only the errors R331 lists for it. -/
theorem pseudo_raisesOnly (i : Instr) (s : State) : (Instr.pseudo i s).RaisesOnly (raisedBy i) := by
  cases i with
  | nop | reset | errClear => exact .ok _ _
  | buildTree => exact (buildTree_spec s).raisesOnly fun _ _ h => h.1
  | buildCodes => exact (buildCodes_spec s).raisesOnly fun _ _ h => h.1
  | putBit arg =>
    simp only [Instr.pseudo]
    split
    · exact (putBit_sat _ s).raisesOnly (by simp [raisedBy])
    · exact .raise s (by simp [raisedBy])
  | putBits arg =>
    simp only [Instr.pseudo]
    split
    · exact (putCode_sat _ _ s).raisesOnly (by simp [raisedBy])
    · exact .raise s (by simp [raisedBy])
  | flush => exact (flush_sat s).raisesOnly (by decide)
  | encSym arg => exact (encSym_sat arg s).raisesOnly (by simp [raisedBy])
  | getBit => exact ((getBit_sat .ioEnd s).raisesOnly (by decide)).bind fun _ _ => .ok _ _
  | getBits arg =>
    simp only [Instr.pseudo]
    split
    · exact ((getBits_sat .ioEnd _ 0 s).raisesOnly (by simp [raisedBy])).bind fun _ _ => .ok _ _
    · exact .raise s (by simp [raisedBy])
  | align => exact align_raisesOnly s
  | decSym => exact decSym_raisesOnly s
  | hdrWrite => exact (hdrWrite_sat s).raisesOnly (by decide)
  | hdrRead => exact (hdrRead_spec s).raisesOnly fun _ _ h => h.1.1
  | encode => exact encodeAll_raisesOnly s
  | decode => exact (decodeAll_spec s).raisesOnly fun _ _ h => h.1

/-- A command other than RESET and ERR_CLEAR leaves the record of errors to the end of the step (spec R333). -/
theorem pseudo_keeps_record {i : Instr} (s : State) (hr : i ≠ .reset) (hc : i ≠ .errClear) :
    (Instr.pseudo i s).Keeps fun u => u.err = s.err ∧ u.fatal = s.fatal ∧ u.errcode = s.errcode :=
  (pseudo_changes i s).mono fun u hu => by
    rw [hu.1]
    exact writtenBy_errors s u hr hc

/-- Settles O8: the pseudocode leaves the record alone and raises listed errors only, and the end of the step records
what was raised. -/
theorem onlyListedErrorsAreRaised : Obligations.OnlyListedErrorsAreRaised := by
  intro i s t h hr hc
  have hkeeps := pseudo_keeps_record s hr hc
  rw [exec_eq] at h
  rcases finish_cases h with ⟨u, hu, rfl⟩ | ⟨e, u, hu, rfl⟩ | ⟨-, rfl⟩
  · rw [hu] at hkeeps
    exact .inl hkeeps
  · rw [hu] at hkeeps
    obtain ⟨-, hfatal, -⟩ := hkeeps
    refine .inr ⟨e, e.number, pseudo_raisesOnly i s e u hu, (mem_errorCodes e _).2 rfl, ?_⟩
    rw [takeError_retire, ← hfatal]
    exact ⟨rfl, rfl, rfl⟩
  · exact .inl ⟨rfl, rfl, rfl⟩

/-! ### The words a mode accepts (spec R336, R342) -/

/-- With no command pending, the mode accepts the words that the filter of R100 lets pass, in every state: where FATAL
is set, ERR makes no difference. -/
theorem mode_accepts_iff {s : State} (hp : s.pending = none) (w : Word) :
    s.mode.accepts w ↔ (s.fatal = true → w = 1) ∧ (s.err = true → w = 0 ∨ w = 1 ∨ w = 2) := by
  have hb : s.busy = false := by rw [State.busy, hp]; rfl
  cases hf : s.fatal with
  | true =>
    have hmode : s.mode = .fatal := by simp [State.mode, hb, hf]
    rw [hmode]
    exact ⟨fun h => ⟨fun _ => h, fun _ => .inr (.inl h)⟩, fun h => h.1 rfl⟩
  | false =>
    cases he : s.err with
    | true =>
      have hmode : s.mode = .error := by simp [State.mode, hb, hf, he]
      rw [hmode]
      exact ⟨fun h => ⟨fun h0 => (nomatch h0), fun _ => h⟩, fun h => h.2 rfl⟩
    | false =>
      have hmode : s.mode = .idle := by simp [State.mode, hb, hf, he]
      rw [hmode]
      exact ⟨fun _ => ⟨fun h0 => (nomatch h0), fun h0 => nomatch h0⟩, fun _ => trivial⟩

/-- Settles O20: a CMD write issues its word, and the filter is what the mode accepts; the invariant is
not needed. -/
theorem modesAcceptTheirWords : Obligations.ModesAcceptTheirWords := by
  intro s t w _ hp h
  rw [hostMove, memWrite_cmd, Host.Outcome.next.injEq] at h
  subst h
  rw [mode_accepts_iff hp]
  rcases issue_cases s w with ⟨hb, -⟩ | ⟨-, hdrop, hi⟩ | ⟨-, hf, he, hi⟩
  · rw [State.busy, hp] at hb
    cases hb
  · rw [hi, hp]
    refine ⟨⟨fun h0 => (nomatch h0), fun ⟨hf, he⟩ => ?_⟩, .inl rfl⟩
    rcases hdrop with ⟨hset, hw⟩ | ⟨hset, hw⟩
    · exact absurd (hf hset) hw
    · exact absurd (he hset) hw
  · rw [hi]
    exact ⟨⟨fun _ => ⟨hf, he⟩, fun _ => rfl⟩, .inr rfl⟩

end Sys2Proof.Machine
end

section
/-! PROOFS of the family 70_reset_and_hazards.md. The two resets write the same state; a host move and the pending
word; what the registers read at power-on. -/

namespace Sys2Proof.Machine

/-! ### The two resets (spec R370 to R372) -/

/-- A reset leaves no command pending, so the end of RESET's core step has nothing left to do (spec R101, R370). -/
theorem retire_resetBlock (s : State) : s.resetBlock.retire = s.resetBlock := rfl

theorem exec_reset (s : State) : exec .reset s = .next s.resetBlock := by
  rw [exec_of_pseudo_ok (i := .reset) (t := s.resetBlock) rfl, retire_resetBlock]

theorem hostMove_hardReset (s : State) : hostMove .hardReset s = .next s.resetBlock := rfl

/-- Settles O11: RESET and HardReset both answer `ResetState()`, whose fields the statement writes out. -/
theorem resetWritesEveryField : Obligations.ResetWritesEveryField := by
  intro s t ht
  obtain rfl : t = s.resetBlock := ht
  exact ⟨exec_reset s, hostMove_hardReset s⟩

/-! ### The pending word (spec R87, R371) -/

/-- A register write made while BUSY = 1 is ignored or only sets OVR, a write of CMD included (spec R85, R87). -/
theorem memWrite_keeps_pending {s : State} {w : Word} (hp : s.pending = some w) (addr width : Nat) (v : Word) :
    (s.memWrite addr width v).pending = some w := by
  have hb : s.busy = true := by rw [State.busy, hp]; rfl
  rcases memWrite_cases s addr width v with ⟨-, h⟩ | ⟨-, r, -, h⟩
  · rw [h, hp]
  · rw [h, if_pos hb, hp]

/-- Settles O12: of the moves that write more than the streams, HardReset is excluded and a register write finds the
block busy. -/
theorem onlyHardResetDiscardsPending : Obligations.OnlyHardResetDiscardsPending := by
  refine ⟨fun s => ⟨s.resetBlock, hostMove_hardReset s, rfl, rfl, rfl, rfl, rfl⟩, fun s t m w hp hm h => ?_⟩
  rcases hostMove_changes h with ⟨addr, width, v, rfl⟩ | ⟨hreset, -⟩ | ⟨b, -, ht⟩ | ht
  · exact memWrite_keeps_pending hp addr width v
  · exact absurd hreset hm
  · rw [ht, hp]
  · rw [ht, hp]

/-! ### Power-on (spec R55, R373) -/

/-- At power-on every register but ID and CTRL reads 0 (spec R55). -/
theorem readReg_reset {r : Reg} (hid : r ≠ .id) (hctrl : r ≠ .ctrl) : State.reset.readReg r = 0 := by
  cases r with
  | id => exact absurd rfl hid
  | ctrl => exact absurd rfl hctrl
  | freq x | len x | code x => simp [State.readReg]
  | _ => rfl

/-- Settles O13: power-on is a reset state; a read is invalid, of a reserved slot, or of the register at the address. -/
theorem powerOnIsResetState : Obligations.PowerOnIsResetState := by
  refine ⟨fun s => rfl, rfl, memRead_addr State.reset .id, memRead_addr State.reset .ctrl, fun a hid hctrl => ?_⟩
  by_cases ha : a % 8 ≠ 0 ∨ 0x4000 ≤ a
  · exact memRead_invalid State.reset (.inr ha)
  · rcases regAt_valid (a := a) (by omega) (by omega) with ⟨r, -, -, rfl⟩ | ⟨-, hres⟩
    · rw [memRead_addr]
      exact readReg_reset (fun h => hid (congrArg Reg.addr h)) fun h => hctrl (congrArg Reg.addr h)
    · exact memRead_reserved State.reset hres

end Sys2Proof.Machine
end
